-- ==== Sys2Proof/Word.lean ====
section
/-! DEFINITION. The word types of the block: limbs, bytes, command words (00_scope.md R6, R10). -/

namespace Sys2Proof

/-- One limb of an Element: `LIMBW = 64` unsigned bits (00_scope.md R6, R11). -/
abbrev Limb := BitVec 64

/-- One byte, the addressable unit of the buffer space (20_memory.md R50). -/
abbrev Byte := BitVec 8

/-- A command word or a `STATUS` word: `CMDW = 32` bits (30_encoding.md R70, 10_state.md R30). -/
abbrev Word := BitVec 32

/-- A 4-bit half of a scalar byte (00_scope.md R16 "nibble"). -/
abbrev Nibble := BitVec 4

/-- A point encoding, field-element encoding or scalar in transit: bytes, first byte first (00_scope.md R10). -/
abbrev Bytes := List Byte

end Sys2Proof
end

