-- ==== Sys2Proof/Config.lean ====
section
/-! DEFINITION. The parameters of the block (00_scope.md R6), the index types they bound, and the one open
quantity, the latency of a command. -/

namespace Sys2Proof

/-- `NEREG`: Element registers (00_scope.md R6, 10_state.md R20). -/
abbrev NEREG : Nat := 16
/-- `NPREG`: Point registers (00_scope.md R6, 10_state.md R23). -/
abbrev NPREG : Nat := 8
/-- `NBUF`: byte buffers (00_scope.md R6, 10_state.md R26). -/
abbrev NBUF : Nat := 4
/-- `BUFMAX`: greatest length of a byte buffer (00_scope.md R6, 10_state.md R26). -/
abbrev BUFMAX : Nat := 65
/-- `NTAB`: tables in the generator table (00_scope.md R6, 10_state.md R34). -/
abbrev NTAB : Nat := 64
/-- `TABLEN`: points in one table (00_scope.md R6, 10_state.md R34). -/
abbrev TABLEN : Nat := 15

/-- Index of an Element register, `e0` to `e15` (30_encoding.md R72, kind `e`). -/
abbrev EReg := Fin NEREG
/-- Index of a Point register, `p0` to `p7` (30_encoding.md R72, kind `p`). -/
abbrev PReg := Fin NPREG
/-- Index of a byte buffer, `b0` to `b3` (30_encoding.md R72, kind `b`). -/
abbrev BReg := Fin NBUF

/-- Everything the time of a command may depend on, and nothing else (70_reset_and_hazards.md R248): (a) the
command word, (b) the length of the scalar buffer, (c) `GTV` before the command, (d) the bytes of a source buffer
that is validated. A component that R248 does not list for the command is `none`. -/
structure PublicInputs where
  word      : Word
  scalarLen : Option Nat
  gtv       : Option Bool
  source    : Option Bytes
deriving DecidableEq, Repr

/-- `LAT(cmd)` is OPEN (00_scope.md R6, 70_reset_and_hazards.md R251): an uninterpreted function of the public
inputs. DESIGN CHOICE, log entry 8; safe: nothing can prove a value of it. -/
opaque Config.latency : PublicInputs → Nat

end Sys2Proof
end

