-- ==== Sys2Proof/Syntax.lean ====
section
/-! DEFINITION. The 28 commands of the K1 command set (30_encoding.md R74), one constructor per row of the opcode
table, operands in the order `rd`, `ra`, `rb`. -/

namespace Sys2Proof

/-- A command with its operands. An operand is the index it names, in the range 30_encoding.md R72 gives its kind; a
word whose index is out of range spells no command (R76), so such an index has no term here. -/
inductive Instr where
  /-- `GTINIT` (46_scalar_mult.md R214) -/
  | gtinit
  /-- `FZERO ed` (41_field_commands.md R130) -/
  | fzero (ed : EReg)
  /-- `FONE ed` (41_field_commands.md R131) -/
  | fone (ed : EReg)
  /-- `FSET ed, ea` (41_field_commands.md R132) -/
  | fset (ed ea : EReg)
  /-- `FSEL ed, ea, eb` (41_field_commands.md R133) -/
  | fsel (ed ea eb : EReg)
  /-- `FEQ ea, eb` (41_field_commands.md R134) -/
  | feq (ea eb : EReg)
  /-- `FISZ ea` (41_field_commands.md R135) -/
  | fisz (ea : EReg)
  /-- `FADD ed, ea, eb` (41_field_commands.md R136) -/
  | fadd (ed ea eb : EReg)
  /-- `FSUB ed, ea, eb` (41_field_commands.md R137) -/
  | fsub (ed ea eb : EReg)
  /-- `FMUL ed, ea, eb` (41_field_commands.md R138) -/
  | fmul (ed ea eb : EReg)
  /-- `FSQR ed, ea` (41_field_commands.md R139) -/
  | fsqr (ed ea : EReg)
  /-- `FINV ed, ea` (42_field_inv_sqrt.md R161) -/
  | finv (ed ea : EReg)
  /-- `FSQRT ed, ea` (42_field_inv_sqrt.md R163) -/
  | fsqrt (ed ea : EReg)
  /-- `FLDB ed, bs` (41_field_commands.md R140) -/
  | fldb (ed : EReg) (bs : BReg)
  /-- `FSTB bd, ea` (41_field_commands.md R141) -/
  | fstb (bd : BReg) (ea : EReg)
  /-- `PIDENT pd` (44_point_commands.md R190) -/
  | pident (pd : PReg)
  /-- `PGEN pd` (44_point_commands.md R191) -/
  | pgen (pd : PReg)
  /-- `PSET pd, pa` (44_point_commands.md R192) -/
  | pset (pd pa : PReg)
  /-- `PSEL pd, pa, pb` (44_point_commands.md R193) -/
  | psel (pd pa pb : PReg)
  /-- `PADD pd, pa, pb` (44_point_commands.md R194) -/
  | padd (pd pa pb : PReg)
  /-- `PSUB pd, pa, pb` (44_point_commands.md R195) -/
  | psub (pd pa pb : PReg)
  /-- `PDBL pd, pa` (44_point_commands.md R196) -/
  | pdbl (pd pa : PReg)
  /-- `PLDB pd, bs` (45_point_codec.md R200) -/
  | pldb (pd : PReg) (bs : BReg)
  /-- `PSTB bd, pa` (45_point_codec.md R201) -/
  | pstb (bd : BReg) (pa : PReg)
  /-- `PSTBX bd, pa` (45_point_codec.md R202) -/
  | pstbx (bd : BReg) (pa : PReg)
  /-- `PSTBC bd, pa` (45_point_codec.md R203) -/
  | pstbc (bd : BReg) (pa : PReg)
  /-- `PSMUL pd, pa, bs` (46_scalar_mult.md R211) -/
  | psmul (pd pa : PReg) (bs : BReg)
  /-- `PBMUL pd, bs` (46_scalar_mult.md R212) -/
  | pbmul (pd : PReg) (bs : BReg)
deriving DecidableEq, Repr

/-- `FMOV ed, ea` is another spelling of `FSET ed, ea` (30_encoding.md R79). -/
abbrev Instr.fmov (ed ea : EReg) : Instr := .fset ed ea
/-- `PMOV pd, pa` is another spelling of `PSET pd, pa` (30_encoding.md R79). -/
abbrev Instr.pmov (pd pa : PReg) : Instr := .pset pd pa
/-- `FDBL ed, ea` is another spelling of `FADD ed, ea, ea` (30_encoding.md R79). -/
abbrev Instr.fdbl (ed ea : EReg) : Instr := .fadd ed ea ea
/-- `FNEGZ ed, ez, ea` is another spelling of `FSUB ed, ez, ea` (30_encoding.md R79). -/
abbrev Instr.fnegz (ed ez ea : EReg) : Instr := .fsub ed ez ea

end Sys2Proof
end

