-- ==== Sys2Proof/WellFormed.lean ====
section
/-! DEFINITION. The fields of a command word (30_encoding.md R71), the kinds of its index fields (R72), and the
check that decides whether the fields spell a command of a given shape (R76), each failure by name. -/

namespace Sys2Proof

/-- What an index field names (30_encoding.md R72): an Element register, a Point register, a byte buffer, or nothing. -/
inductive Kind where
  | element
  | point
  | buffer
  | unused
deriving DecidableEq, Repr

/-- The five fields of format `K`, as they stand in the word (30_encoding.md R71). -/
structure Fields where
  op   : BitVec 8
  rd   : BitVec 4
  ra   : BitVec 4
  rb   : BitVec 4
  zero : BitVec 12
deriving DecidableEq, Repr

/-- The kinds of the three index fields of one opcode (30_encoding.md R72, R74). -/
structure Shape where
  rd : Kind
  ra : Kind
  rb : Kind
deriving DecidableEq, Repr

/-- Why a word spells no command (30_encoding.md R76). Every reason has the same effect, error code 15. -/
inductive Illegal where
  /-- the `op` field is none of the 28 opcodes -/
  | unassignedOpcode
  /-- the `zero` field is not 0 -/
  | nonzeroZeroField
  /-- a Point index above 7 -/
  | pointIndexOutOfRange
  /-- a buffer index above 3 -/
  | bufferIndexOutOfRange
  /-- an index field this opcode does not use is not 0 -/
  | nonzeroUnusedField
deriving DecidableEq, Repr

/-- The first reason, if any, why an index field of this kind may not hold `x` (30_encoding.md R72). -/
def Kind.check : Kind → BitVec 4 → Option Illegal
  | .element, _ => none
  | .point, x => if x.toNat < NPREG then none else some .pointIndexOutOfRange
  | .buffer, x => if x.toNat < NBUF then none else some .bufferIndexOutOfRange
  | .unused, x => if x.toNat = 0 then none else some .nonzeroUnusedField

/-- The first reason, if any, why these fields spell no command of shape `sh` (30_encoding.md R76). -/
def Fields.check (f : Fields) (sh : Shape) : Option Illegal :=
  if f.zero ≠ 0 then some .nonzeroZeroField
  else (sh.rd.check f.rd).or ((sh.ra.check f.ra).or (sh.rb.check f.rb))

/-- The fields are those of a command of shape `sh`. -/
def Fields.wellFormed (f : Fields) (sh : Shape) : Bool := (f.check sh).isNone

end Sys2Proof
end

