-- ==== Sys2Proof/Decode.lean ====
section
/-! DEFINITION. The opcode map (30_encoding.md R74), the decoder (R75), total on every word and refusing by name
(R76), and the encoder. -/

namespace Sys2Proof

/-! ### Fields of the word (R71) -/

/-- Cut a word into the five fields of format `K` (30_encoding.md R71). -/
def Fields.ofWord (w : Word) : Fields where
  op   := w.extractLsb' 24 8
  rd   := w.extractLsb' 20 4
  ra   := w.extractLsb' 16 4
  rb   := w.extractLsb' 12 4
  zero := w.extractLsb' 0 12

/-- Lay the five fields of format `K` out as a word, `op` first (30_encoding.md R71). -/
def Fields.toWord (f : Fields) : Word := f.op ++ f.rd ++ f.ra ++ f.rb ++ f.zero

/-! ### The opcode map (R74) -/

/-- The kinds of the index fields of each opcode; `none` for an unassigned opcode (30_encoding.md R74). -/
def shapeOf (op : BitVec 8) : Option Shape :=
  match op.toNat with
  | 0x01 => some ⟨.unused, .unused, .unused⟩
  | 0x10 => some ⟨.element, .unused, .unused⟩
  | 0x11 => some ⟨.element, .unused, .unused⟩
  | 0x12 => some ⟨.element, .element, .unused⟩
  | 0x13 => some ⟨.element, .element, .element⟩
  | 0x14 => some ⟨.unused, .element, .element⟩
  | 0x15 => some ⟨.unused, .element, .unused⟩
  | 0x16 => some ⟨.element, .element, .element⟩
  | 0x17 => some ⟨.element, .element, .element⟩
  | 0x18 => some ⟨.element, .element, .element⟩
  | 0x19 => some ⟨.element, .element, .unused⟩
  | 0x1A => some ⟨.element, .element, .unused⟩
  | 0x1B => some ⟨.element, .element, .unused⟩
  | 0x1C => some ⟨.element, .buffer, .unused⟩
  | 0x1D => some ⟨.buffer, .element, .unused⟩
  | 0x20 => some ⟨.point, .unused, .unused⟩
  | 0x21 => some ⟨.point, .unused, .unused⟩
  | 0x22 => some ⟨.point, .point, .unused⟩
  | 0x23 => some ⟨.point, .point, .point⟩
  | 0x24 => some ⟨.point, .point, .point⟩
  | 0x25 => some ⟨.point, .point, .point⟩
  | 0x26 => some ⟨.point, .point, .unused⟩
  | 0x28 => some ⟨.point, .buffer, .unused⟩
  | 0x29 => some ⟨.buffer, .point, .unused⟩
  | 0x2A => some ⟨.buffer, .point, .unused⟩
  | 0x2B => some ⟨.buffer, .point, .unused⟩
  | 0x2C => some ⟨.point, .point, .buffer⟩
  | 0x2D => some ⟨.point, .buffer, .unused⟩
  | _ => none

/-- The 28 assigned opcodes, in the order of the table (30_encoding.md R74). -/
def opcodes : List (BitVec 8) :=
  [0x01, 0x10, 0x11, 0x12, 0x13, 0x14, 0x15, 0x16, 0x17, 0x18, 0x19, 0x1A, 0x1B, 0x1C, 0x1D] ++
  [0x20, 0x21, 0x22, 0x23, 0x24, 0x25, 0x26, 0x28, 0x29, 0x2A, 0x2B, 0x2C, 0x2D]

/-- The mask of one index field (30_encoding.md R73). -/
def Kind.mask : Kind → BitVec 4
  | .element => 0b0000
  | .point => 0b1000
  | .buffer => 0b1100
  | .unused => 0b1111

/-- `mask` of a command: all of bits 31:24 and 11:0, and each index field's own mask (30_encoding.md R73). -/
def Shape.mask (sh : Shape) : Word :=
  Fields.toWord ⟨0xFF, sh.rd.mask, sh.ra.mask, sh.rb.mask, 0xFFF⟩

/-- `match` of a command: `op << 24` (30_encoding.md R73). -/
def opMatch (op : BitVec 8) : Word := Fields.toWord ⟨op, 0, 0, 0, 0⟩

/-! ### Decoding (R75) -/

/-- An index field of kind `e`, taken unchanged (30_encoding.md R72). -/
def eIndex (x : BitVec 4) : EReg := x.toFin
/-- An index field of kind `p` that passed its check (bit 3 is 0), taken unchanged (30_encoding.md R72). -/
def pIndex (x : BitVec 4) : PReg := (x.extractLsb' 0 3).toFin
/-- An index field of kind `b` that passed its check (bits 3:2 are 0), taken unchanged (30_encoding.md R72). -/
def bIndex (x : BitVec 4) : BReg := (x.extractLsb' 0 2).toFin

/-- The command of a word whose fields passed the check of its opcode's shape (30_encoding.md R74, R75). -/
def Fields.command (f : Fields) : Option Instr :=
  match f.op.toNat with
  | 0x01 => some .gtinit
  | 0x10 => some (.fzero (eIndex f.rd))
  | 0x11 => some (.fone (eIndex f.rd))
  | 0x12 => some (.fset (eIndex f.rd) (eIndex f.ra))
  | 0x13 => some (.fsel (eIndex f.rd) (eIndex f.ra) (eIndex f.rb))
  | 0x14 => some (.feq (eIndex f.ra) (eIndex f.rb))
  | 0x15 => some (.fisz (eIndex f.ra))
  | 0x16 => some (.fadd (eIndex f.rd) (eIndex f.ra) (eIndex f.rb))
  | 0x17 => some (.fsub (eIndex f.rd) (eIndex f.ra) (eIndex f.rb))
  | 0x18 => some (.fmul (eIndex f.rd) (eIndex f.ra) (eIndex f.rb))
  | 0x19 => some (.fsqr (eIndex f.rd) (eIndex f.ra))
  | 0x1A => some (.finv (eIndex f.rd) (eIndex f.ra))
  | 0x1B => some (.fsqrt (eIndex f.rd) (eIndex f.ra))
  | 0x1C => some (.fldb (eIndex f.rd) (bIndex f.ra))
  | 0x1D => some (.fstb (bIndex f.rd) (eIndex f.ra))
  | 0x20 => some (.pident (pIndex f.rd))
  | 0x21 => some (.pgen (pIndex f.rd))
  | 0x22 => some (.pset (pIndex f.rd) (pIndex f.ra))
  | 0x23 => some (.psel (pIndex f.rd) (pIndex f.ra) (pIndex f.rb))
  | 0x24 => some (.padd (pIndex f.rd) (pIndex f.ra) (pIndex f.rb))
  | 0x25 => some (.psub (pIndex f.rd) (pIndex f.ra) (pIndex f.rb))
  | 0x26 => some (.pdbl (pIndex f.rd) (pIndex f.ra))
  | 0x28 => some (.pldb (pIndex f.rd) (bIndex f.ra))
  | 0x29 => some (.pstb (bIndex f.rd) (pIndex f.ra))
  | 0x2A => some (.pstbx (bIndex f.rd) (pIndex f.ra))
  | 0x2B => some (.pstbc (bIndex f.rd) (pIndex f.ra))
  | 0x2C => some (.psmul (pIndex f.rd) (pIndex f.ra) (bIndex f.rb))
  | 0x2D => some (.pbmul (pIndex f.rd) (bIndex f.ra))
  | _ => none

/-- Decode the fields of a word: the opcode must be assigned and the fields well formed for its shape
(30_encoding.md R75, R76). -/
def Fields.decode (f : Fields) : Except Illegal Instr :=
  match shapeOf f.op with
  | none => .error .unassignedOpcode
  | some sh =>
    match f.check sh with
    | some why => .error why
    | none =>
      match f.command with
      | some i => .ok i
      | none => .error .unassignedOpcode

/-- The decoder, total on all `2^32` words (30_encoding.md R75). -/
def decode (w : Word) : Except Illegal Instr := (Fields.ofWord w).decode

/-! ### Encoding (R71 to R74) -/

/-- The fields that spell a command (30_encoding.md R71, R74): its opcode, its indices, 0 in every unused field. -/
def Instr.fields : Instr → Fields
  | .gtinit => ⟨0x01, 0, 0, 0, 0⟩
  | .fzero ed => ⟨0x10, .ofNat 4 ed, 0, 0, 0⟩
  | .fone ed => ⟨0x11, .ofNat 4 ed, 0, 0, 0⟩
  | .fset ed ea => ⟨0x12, .ofNat 4 ed, .ofNat 4 ea, 0, 0⟩
  | .fsel ed ea eb => ⟨0x13, .ofNat 4 ed, .ofNat 4 ea, .ofNat 4 eb, 0⟩
  | .feq ea eb => ⟨0x14, 0, .ofNat 4 ea, .ofNat 4 eb, 0⟩
  | .fisz ea => ⟨0x15, 0, .ofNat 4 ea, 0, 0⟩
  | .fadd ed ea eb => ⟨0x16, .ofNat 4 ed, .ofNat 4 ea, .ofNat 4 eb, 0⟩
  | .fsub ed ea eb => ⟨0x17, .ofNat 4 ed, .ofNat 4 ea, .ofNat 4 eb, 0⟩
  | .fmul ed ea eb => ⟨0x18, .ofNat 4 ed, .ofNat 4 ea, .ofNat 4 eb, 0⟩
  | .fsqr ed ea => ⟨0x19, .ofNat 4 ed, .ofNat 4 ea, 0, 0⟩
  | .finv ed ea => ⟨0x1A, .ofNat 4 ed, .ofNat 4 ea, 0, 0⟩
  | .fsqrt ed ea => ⟨0x1B, .ofNat 4 ed, .ofNat 4 ea, 0, 0⟩
  | .fldb ed bs => ⟨0x1C, .ofNat 4 ed, .ofNat 4 bs, 0, 0⟩
  | .fstb bd ea => ⟨0x1D, .ofNat 4 bd, .ofNat 4 ea, 0, 0⟩
  | .pident pd => ⟨0x20, .ofNat 4 pd, 0, 0, 0⟩
  | .pgen pd => ⟨0x21, .ofNat 4 pd, 0, 0, 0⟩
  | .pset pd pa => ⟨0x22, .ofNat 4 pd, .ofNat 4 pa, 0, 0⟩
  | .psel pd pa pb => ⟨0x23, .ofNat 4 pd, .ofNat 4 pa, .ofNat 4 pb, 0⟩
  | .padd pd pa pb => ⟨0x24, .ofNat 4 pd, .ofNat 4 pa, .ofNat 4 pb, 0⟩
  | .psub pd pa pb => ⟨0x25, .ofNat 4 pd, .ofNat 4 pa, .ofNat 4 pb, 0⟩
  | .pdbl pd pa => ⟨0x26, .ofNat 4 pd, .ofNat 4 pa, 0, 0⟩
  | .pldb pd bs => ⟨0x28, .ofNat 4 pd, .ofNat 4 bs, 0, 0⟩
  | .pstb bd pa => ⟨0x29, .ofNat 4 bd, .ofNat 4 pa, 0, 0⟩
  | .pstbx bd pa => ⟨0x2A, .ofNat 4 bd, .ofNat 4 pa, 0, 0⟩
  | .pstbc bd pa => ⟨0x2B, .ofNat 4 bd, .ofNat 4 pa, 0, 0⟩
  | .psmul pd pa bs => ⟨0x2C, .ofNat 4 pd, .ofNat 4 pa, .ofNat 4 bs, 0⟩
  | .pbmul pd bs => ⟨0x2D, .ofNat 4 pd, .ofNat 4 bs, 0, 0⟩

/-- The fields an instruction is spelled with pass the check of its opcode's shape (30_encoding.md R72, R76). An
`Instr` has no out-of-range index by its type, so this holds of every one (`Laws.WellSpelled.Statement`). -/
def Instr.wellFormed (i : Instr) : Bool :=
  match shapeOf i.fields.op with
  | some sh => i.fields.wellFormed sh
  | none => false

/-- The encoder: the word that spells a command (30_encoding.md R71, R74). -/
def encode (i : Instr) : Word := i.fields.toWord

/-! ### Numbering of the opcode table -/

/-- The command word of an instruction given as `nbits` bits numbered as the opcode table numbers them, bits above
`nbits` being 0. A command is one 32-bit value, never bytes in a memory, so no byte order enters (30_encoding.md R70,
20_memory.md R63). -/
def tableWord (nbits w : Nat) : Word := BitVec.ofNat 32 (w % 2 ^ nbits)

/-- What the decoder reads from an instruction whose bits are `w`, numbered as the opcode table numbers them; `none`
where it refuses. No command is longer than 32 bits (30_encoding.md R70). -/
def decodeTableWord (nbits w : Nat) : Option Instr :=
  if nbits ≤ 32 then (decode (tableWord nbits w)).toOption else none

end Sys2Proof
end

