-- ==== Sys2Proof/Machine/Element.lean ====
section
/-! DEFINITION. Element and Point values (00_scope.md R11; 10_state.md R20, R23) and the constants of the block
(10_state.md R36 to R38). -/

namespace Sys2Proof.Machine

/-- An Element value: four 64-bit limbs, `l0` the least significant (00_scope.md R11, 10_state.md R20). -/
structure Element where
  l0 : Limb
  l1 : Limb
  l2 : Limb
  l3 : Limb
deriving DecidableEq, Repr

/-- A Point value: projective coordinates, three Elements (10_state.md R23). -/
structure Point where
  X : Element
  Y : Element
  Z : Element
deriving DecidableEq, Repr

/-! ### Elements as integers (00_scope.md R11) -/

/-- `int(a)`: the limbs read as one integer (00_scope.md R11). -/
def Element.int (a : Element) : Nat :=
  a.l0.toNat + a.l1.toNat * 2 ^ 64 + a.l2.toNat * 2 ^ 128 + a.l3.toNat * 2 ^ 192

/-- `limbs(v)`: the inverse of `int` on `0 ≤ v < 2^256` (00_scope.md R11). -/
def limbs (v : Nat) : Element :=
  ⟨BitVec.ofNat 64 v, BitVec.ofNat 64 (v / 2 ^ 64), BitVec.ofNat 64 (v / 2 ^ 128), BitVec.ofNat 64 (v / 2 ^ 192)⟩

/-! ### Field constants (10_state.md R36) -/

/-- The field prime `p` (10_state.md R36). -/
def P : Nat := 0xFFFFFFFFFFFFFFFFFFFFFFFFFFFFFFFFFFFFFFFFFFFFFFFFFFFFFFFEFFFFFC2F

/-- `p` as limbs (10_state.md R36). -/
def PL : Element := ⟨0xFFFFFFFEFFFFFC2F, 0xFFFFFFFFFFFFFFFF, 0xFFFFFFFFFFFFFFFF, 0xFFFFFFFFFFFFFFFF⟩

/-- `p' = −p⁻¹ mod 2^64` (10_state.md R36). -/
def PINV : Limb := 0xD838091DD2253531

/-- The Montgomery radix (10_state.md R36). -/
def R : Nat := 2 ^ 256

/-- `R⁻¹ mod p`, the residue `val` multiplies by (00_scope.md R11); the literal is that of 95_test_vectors.md 2.3,
where `MontMul(limbs(p−1), limbs(p−1))` is said to be `R⁻¹ mod p`. -/
def RINV : Nat := 0xC9BD1905155383999C46C2C295F2B761BCB223FEDC24A059D838091D0868192A

/-- `val(a)`: the residue an Element represents (00_scope.md R11). -/
def Element.val (a : Element) : Nat := a.int * RINV % P

/-- `mont(v)`: the Element that represents `v mod p` (00_scope.md R11). -/
def mont (v : Nat) : Element := limbs (v * R % P)

/-! ### Element constants (10_state.md R37) -/

/-- The additive identity (10_state.md R37). -/
def ZERO : Element := ⟨0, 0, 0, 0⟩
/-- The field's one in Montgomery form (10_state.md R37). -/
def ONE : Element := ⟨0x00000001000003D1, 0, 0, 0⟩
/-- `R² mod p`, the factor of `ToMont` (10_state.md R37). -/
def R2 : Element := ⟨0x000007A2000E90A1, 0x0000000000000001, 0, 0⟩
/-- The curve coefficient `b = 7` (10_state.md R37). -/
def SEVEN : Element := ⟨0x0000000700001AB7, 0, 0, 0⟩
/-- `b3 = 3·b = 21` (10_state.md R37). -/
def B3 : Element := ⟨0x0000001500005025, 0, 0, 0⟩
/-- The plain integer 1, second operand of `FromMont` (10_state.md R37). -/
def PLAIN1 : Element := ⟨1, 0, 0, 0⟩

/-- The canonical encoding of `p − 1` (10_state.md R37). -/
def PM1 : Bytes :=
  [0xFF, 0xFF, 0xFF, 0xFF, 0xFF, 0xFF, 0xFF, 0xFF, 0xFF, 0xFF, 0xFF, 0xFF, 0xFF, 0xFF, 0xFF, 0xFF] ++
  [0xFF, 0xFF, 0xFF, 0xFF, 0xFF, 0xFF, 0xFF, 0xFF, 0xFF, 0xFF, 0xFF, 0xFE, 0xFF, 0xFF, 0xFC, 0x2E]

/-! ### Curve constants (10_state.md R38) -/

/-- The group order, listed for the host's benefit; no command uses it (10_state.md R38, 00_scope.md R5). -/
def groupOrder : Nat := 0xFFFFFFFFFFFFFFFFFFFFFFFFFFFFFFFEBAAEDCE6AF48A03BBFD25E8CD0364141

/-- The generator's x-coordinate (10_state.md R38). -/
def Gx : Nat := 0x79BE667EF9DCBBAC55A06295CE870B07029BFCDB2DCE28D959F2815B16F81798

/-- The generator's y-coordinate (10_state.md R38). -/
def Gy : Nat := 0x483ADA7726A3C4655DA4FBFC0E1108A8FD17B448A68554199C47D08FFB10D4B8

/-- The generator `G` with `Z = ONE` (10_state.md R38). -/
def GEN : Point where
  X := ⟨0xD7362E5A487E2097, 0x231E295329BC66DB, 0x979F48C033FD129C, 0x9981E643E9089F48⟩
  Y := ⟨0xB15EA6D2D3DBABE2, 0x8DFC5D5D1F1DC64D, 0x70B6B59AAC19C136, 0xCF3F851FD4A582D6⟩
  Z := ONE

/-- The identity `(0, 1, 0)` (10_state.md R38). -/
def IDENT : Point := ⟨ZERO, ONE, ZERO⟩

end Sys2Proof.Machine
end

