-- ==== Sys2Proof/Machine/Errors.lean ====
section
/-! DEFINITION. The error kinds of a command and their codes (60_exceptions.md R220). -/

namespace Sys2Proof.Machine

/-- An error kind (60_exceptions.md R220). -/
inductive Err where
  | invalidElementEncoding
  | invalidPointEncoding
  | notOnCurve
  | invalidCompressedPoint
  | isIdentity
  | invalidScalarLength
  | illegalCommand
deriving DecidableEq, Repr

/-- The code of a command that did not fail (60_exceptions.md R220). -/
def okCode : BitVec 4 := 0

/-- The code of an error kind (60_exceptions.md R220); 7 to 14 are never produced. -/
def Err.code : Err → BitVec 4
  | .invalidElementEncoding => 1
  | .invalidPointEncoding => 2
  | .notOnCurve => 3
  | .invalidCompressedPoint => 4
  | .isIdentity => 5
  | .invalidScalarLength => 6
  | .illegalCommand => 15

end Sys2Proof.Machine
end

