-- ==== Sys2Proof/Machine/Limb.lean ====
section
/-! DEFINITION. Limb primitives (40_field_primitives.md R100 to R102). -/

namespace Sys2Proof.Machine

/-- `AddCarry64(x, y, cin)`: `(sum, cout)` with `sum + cout·2^64 = x + y + cin` (40_field_primitives.md R100). -/
def addCarry64 (x y : Limb) (cin : Bool) : Limb × Bool :=
  let s := x.toNat + y.toNat + cin.toNat
  (BitVec.ofNat 64 s, s / 2 ^ 64 == 1)

/-- `SubBorrow64(x, y, bin)`: the difference modulo `2^64`, and whether the integer difference is negative
(40_field_primitives.md R100). -/
def subBorrow64 (x y : Limb) (bin : Bool) : Limb × Bool :=
  let d : Int := x.toNat - y.toNat - bin.toNat
  (BitVec.ofInt 64 d, decide (d < 0))

/-- `Mul64(x, y)`: `(lo, hi)` with `lo + hi·2^64 = x·y` (40_field_primitives.md R101). -/
def mul64 (x y : Limb) : Limb × Limb :=
  let v := x.toNat * y.toNat
  (BitVec.ofNat 64 v, BitVec.ofNat 64 (v / 2 ^ 64))

/-- `Cmov64(c, z, nz)`: `z` when `c = 0`, `nz` when `c = 1` (40_field_primitives.md R102). -/
def cmov64 (c : Bool) (z nz : Limb) : Limb := if c then nz else z

end Sys2Proof.Machine
end

