-- ==== Sys2Proof/Machine/Field.lean ====
section
/-! DEFINITION. The field layer's internal functions (40_field_primitives.md R104 to R117), each by the procedure the
rule gives. -/

namespace Sys2Proof.Machine

/-! ### Modular adder and subtractor -/

/-- The last five steps of R104, shared with R106: subtract `p` from the 257-bit value `s + c·2^256`, and keep the
difference unless it borrows (40_field_primitives.md R104, R106). -/
def subtractPUnlessBelow (s : Element) (c : Bool) : Element :=
  let (d0, w) := subBorrow64 s.l0 PL.l0 false
  let (d1, w) := subBorrow64 s.l1 PL.l1 w
  let (d2, w) := subBorrow64 s.l2 PL.l2 w
  let (d3, w) := subBorrow64 s.l3 PL.l3 w
  let (_, w) := subBorrow64 (BitVec.ofNat 64 c.toNat) 0 w
  ⟨cmov64 w d0 s.l0, cmov64 w d1 s.l1, cmov64 w d2 s.l2, cmov64 w d3 s.l3⟩

/-- `FAdd(a, b)`, the modular adder (40_field_primitives.md R104). -/
def fAdd (a b : Element) : Element :=
  let (s0, c) := addCarry64 a.l0 b.l0 false
  let (s1, c) := addCarry64 a.l1 b.l1 c
  let (s2, c) := addCarry64 a.l2 b.l2 c
  let (s3, c) := addCarry64 a.l3 b.l3 c
  subtractPUnlessBelow ⟨s0, s1, s2, s3⟩ c

/-- `FSub(a, b)`, the modular subtractor (40_field_primitives.md R105). -/
def fSub (a b : Element) : Element :=
  let (d0, w) := subBorrow64 a.l0 b.l0 false
  let (d1, w) := subBorrow64 a.l1 b.l1 w
  let (d2, w) := subBorrow64 a.l2 b.l2 w
  let (d3, w) := subBorrow64 a.l3 b.l3 w
  let mask := cmov64 w 0 0xFFFFFFFFFFFFFFFF
  let (r0, c) := addCarry64 d0 (PL.l0 &&& mask) false
  let (r1, c) := addCarry64 d1 (PL.l1 &&& mask) c
  let (r2, c) := addCarry64 d2 (PL.l2 &&& mask) c
  let (r3, _) := addCarry64 d3 (PL.l3 &&& mask) c
  ⟨r0, r1, r2, r3⟩

/-- `FNeg(a) = FSub(ZERO, a)` (40_field_primitives.md R117). -/
def fNeg (a : Element) : Element := fSub ZERO a

/-! ### Montgomery multiplier -/

/-- One iteration of the multiplier's loop, for the limb `ai` of the first operand (40_field_primitives.md R106). -/
def montStep (ai : Limb) (B t : Nat) : Nat :=
  let t := t + ai.toNat * B
  let m := (mul64 (BitVec.ofNat 64 t) PINV).1
  let t := t + m.toNat * P
  t / 2 ^ 64

/-- `MontMul(a, b)`: four iterations over the limbs of `a`, then the conditional subtract (40_field_primitives.md
R106). -/
def montMul (a b : Element) : Element :=
  let B := b.int
  let t := montStep a.l0 B 0
  let t := montStep a.l1 B t
  let t := montStep a.l2 B t
  let t := montStep a.l3 B t
  subtractPUnlessBelow (limbs t) (t / 2 ^ 256 == 1)

/-- `MontSqr(a) = MontMul(a, a)` (40_field_primitives.md R107). -/
def montSqr (a : Element) : Element := montMul a a

/-- `ToMont(x) = MontMul(x, R2)` (40_field_primitives.md R108). -/
def toMont (x : Element) : Element := montMul x R2

/-- `FromMont(a) = MontMul(a, PLAIN1)` (40_field_primitives.md R109). -/
def fromMont (a : Element) : Element := montMul a PLAIN1

/-! ### Byte conversion -/

/-- One limb as eight bytes, least significant first. -/
def limbBytes (x : Limb) : Bytes :=
  [x.extractLsb' 0 8, x.extractLsb' 8 8, x.extractLsb' 16 8, x.extractLsb' 24 8,
   x.extractLsb' 32 8, x.extractLsb' 40 8, x.extractLsb' 48 8, x.extractLsb' 56 8]

/-- `ToBytes(x)`: the limbs little-endian to 32 bytes, then reversed to big-endian (40_field_primitives.md R110). -/
def toBytes (x : Element) : Bytes :=
  (limbBytes x.l0 ++ limbBytes x.l1 ++ limbBytes x.l2 ++ limbBytes x.l3).reverse

/-- The integer a byte string spells, least significant byte first. -/
def leNat : Bytes → Nat
  | [] => 0
  | b :: bs => b.toNat + 256 * leNat bs

/-- The integer a byte string spells, most significant byte first (20_memory.md R51, R53). -/
def beNat (v : Bytes) : Nat := leNat v.reverse

/-- `FromBytes(v)`: reversed to little-endian, then deserialized into four limbs (40_field_primitives.md R111). -/
def fromBytes (v : Bytes) : Element :=
  let le := v.reverse
  ⟨BitVec.ofNat 64 (leNat (le.take 8)), BitVec.ofNat 64 (leNat ((le.drop 8).take 8)),
   BitVec.ofNat 64 (leNat ((le.drop 16).take 8)), BitVec.ofNat 64 (leNat ((le.drop 24).take 8))⟩

/-- `FBytes(a)`: the canonical 32-byte encoding of the residue (40_field_primitives.md R112). -/
def fBytes (a : Element) : Bytes := toBytes (fromMont a)

/-- The range check of R113: compare byte by byte, rejecting at the first byte that is greater, accepting at the
first that is less (40_field_primitives.md R113). -/
def exceeds : Bytes → Bytes → Bool
  | v :: vs, m :: ms => if m < v then true else if v < m then false else exceeds vs ms
  | _, _ => false

/-- `FSetBytes(v)`: the length is tested first, then the range (40_field_primitives.md R113). -/
def fSetBytes (v : Bytes) : Except Err Element :=
  if v.length ≠ 32 then .error .invalidElementEncoding
  else if exceeds v PM1 then .error .invalidElementEncoding
  else .ok (toMont (fromBytes v))

/-! ### Predicates and select -/

/-- The XOR-accumulate of two byte strings (40_field_primitives.md R114). -/
def xorAccumulate : Bytes → Bytes → Byte → Byte
  | u :: us, v :: vs, acc => xorAccumulate us vs (acc ||| (u ^^^ v))
  | _, _, acc => acc

/-- `FEqual(a, b)`: the XOR-accumulate of the two canonical encodings is zero (40_field_primitives.md R114). -/
def fEqual (a b : Element) : Bool := xorAccumulate (fBytes a) (fBytes b) 0 == 0

/-- `FIsZero(a)`: the canonical encoding is 32 zero bytes (40_field_primitives.md R115). -/
def fIsZero (a : Element) : Bool := xorAccumulate (fBytes a) (List.replicate 32 0) 0 == 0

/-- `FSelect(a, b, c)`: `a` when `c = 1`, `b` when `c = 0`, limb by limb (40_field_primitives.md R116). -/
def fSelect (a b : Element) (c : Bool) : Element :=
  ⟨cmov64 c b.l0 a.l0, cmov64 c b.l1 a.l1, cmov64 c b.l2 a.l2, cmov64 c b.l3 a.l3⟩

end Sys2Proof.Machine
end

