-- ==== Sys2Proof/Machine/Chain.lean ====
section
/-! DEFINITION. Inversion and square root by fixed addition chains (42_field_inv_sqrt.md R160, R162, R164). A chain is
data, so that its exponent and its operation counts can be read off it (R164, R165). -/

namespace Sys2Proof.Machine

/-- One step of a chain, `M(S^sqrs(src), times)` or `S^sqrs(src)`. A chain value is named by its position: 0 is the
input `x`, `k` the value of step `k` (42_field_inv_sqrt.md R164). -/
structure ChainStep where
  src   : Nat
  sqrs  : Nat
  times : Option Nat
deriving DecidableEq, Repr

/-- `S^k(a)`: `MontSqr` applied `k` times (42_field_inv_sqrt.md R164). -/
def sqrTimes : Nat → Element → Element
  | 0, a => a
  | k + 1, a => montSqr (sqrTimes k a)

/-- The value of one step, the earlier values being `vs` (42_field_inv_sqrt.md R164). -/
def ChainStep.value (st : ChainStep) (vs : List Element) : Element :=
  let a := sqrTimes st.sqrs (vs.getD st.src ZERO)
  match st.times with
  | none => a
  | some j => montMul a (vs.getD j ZERO)

/-- All values of a chain, in order, starting from `vs` (42_field_inv_sqrt.md R164). -/
def chainValues : List ChainStep → List Element → List Element
  | [], vs => vs
  | st :: rest, vs => chainValues rest (vs ++ [st.value vs])

/-- The last value of a chain on the input `x`. -/
def runChain (c : List ChainStep) (x : Element) : Element := (chainValues c [x]).getLastD ZERO

/-- The chain of R160: steps `c1` to `c21`, then `r` (42_field_inv_sqrt.md R160). -/
def invertChain : List ChainStep :=
  [⟨0, 1, none⟩,        -- c1  = S(x)
   ⟨1, 1, none⟩,        -- c2  = S(c1)
   ⟨0, 0, some 2⟩,      -- c3  = M(x, c2)
   ⟨1, 0, some 3⟩,      -- c4  = M(c1, c3)
   ⟨4, 1, none⟩,        -- c5  = S(c4)
   ⟨5, 2, none⟩,        -- c6  = S^2(c5)
   ⟨4, 0, some 6⟩,      -- c7  = M(c4, c6)
   ⟨7, 4, some 5⟩,      -- c8  = M(S^4(c7), c5)
   ⟨8, 2, some 4⟩,      -- c9  = M(S^2(c8), c4)
   ⟨9, 10, some 8⟩,     -- c10 = M(S^10(c9), c8)
   ⟨10, 0, some 0⟩] ++  -- c11 = M(c10, x)
  [⟨11, 1, none⟩,       -- c12 = S(c11)
   ⟨12, 2, none⟩,       -- c13 = S^2(c12)
   ⟨13, 22, some 13⟩,   -- c14 = M(S^22(c13), c13)
   ⟨14, 20, some 12⟩,   -- c15 = M(S^20(c14), c12)
   ⟨15, 46, some 14⟩,   -- c16 = M(S^46(c15), c14)
   ⟨16, 110, some 16⟩,  -- c17 = M(S^110(c16), c16)
   ⟨17, 0, some 4⟩,     -- c18 = M(c17, c4)
   ⟨18, 23, some 11⟩,   -- c19 = M(S^23(c18), c11)
   ⟨19, 7, some 3⟩,     -- c20 = M(S^7(c19), c3)
   ⟨20, 3, none⟩,       -- c21 = S^3(c20)
   ⟨3, 0, some 21⟩]     -- r   = M(c3, c21)

/-- The chain of R162: steps `q2, q3, q6, q9, q11, q22, q44, q88, q176, q220, q223, u1, u2, c`
(42_field_inv_sqrt.md R162). -/
def sqrtChain : List ChainStep :=
  [⟨0, 1, some 0⟩,      -- 1: q2   = M(S(x), x)
   ⟨1, 1, some 0⟩,      -- 2: q3   = M(S(q2), x)
   ⟨2, 3, some 2⟩,      -- 3: q6   = M(S^3(q3), q3)
   ⟨3, 3, some 2⟩,      -- 4: q9   = M(S^3(q6), q3)
   ⟨4, 2, some 1⟩,      -- 5: q11  = M(S^2(q9), q2)
   ⟨5, 11, some 5⟩,     -- 6: q22  = M(S^11(q11), q11)
   ⟨6, 22, some 6⟩] ++  -- 7: q44  = M(S^22(q22), q22)
  [⟨7, 44, some 7⟩,     -- 8: q88  = M(S^44(q44), q44)
   ⟨8, 88, some 8⟩,     -- 9: q176 = M(S^88(q88), q88)
   ⟨9, 44, some 7⟩,     -- 10: q220 = M(S^44(q176), q44)
   ⟨10, 3, some 2⟩,     -- 11: q223 = M(S^3(q220), q3)
   ⟨11, 23, some 6⟩,    -- 12: u1  = M(S^23(q223), q22)
   ⟨12, 6, some 1⟩,     -- 13: u2  = M(S^6(u1), q2)
   ⟨13, 2, none⟩]       -- 14: c   = S^2(u2)

/-- `FInvert(x)` (42_field_inv_sqrt.md R160). -/
def fInvert (x : Element) : Element := runChain invertChain x

/-- `SqrtCandidate(x)` (42_field_inv_sqrt.md R162). -/
def sqrtCandidate (x : Element) : Element := runChain sqrtChain x

/-- `FSqrt(x)`: the candidate, and whether its square is `x` (42_field_inv_sqrt.md R162). -/
def fSqrt (x : Element) : Bool × Element :=
  let c := sqrtCandidate x
  (fEqual (montSqr c) x, c)

/-! ### What a chain computes, read off its steps (42_field_inv_sqrt.md R164) -/

/-- The exponent of one step, the exponents of the earlier values being `es`: `M` adds exponents, `S^k` multiplies by
`2^k` (42_field_inv_sqrt.md R164). -/
def ChainStep.exponent (st : ChainStep) (es : List Nat) : Nat :=
  let a := es.getD st.src 0 * 2 ^ st.sqrs
  match st.times with
  | none => a
  | some j => a + es.getD j 0

/-- The exponents of all values of a chain (42_field_inv_sqrt.md R164). -/
def chainExponents : List ChainStep → List Nat → List Nat
  | [], es => es
  | st :: rest, es => chainExponents rest (es ++ [st.exponent es])

/-- The exponent of a chain's result (42_field_inv_sqrt.md R164). -/
def chainExponent (c : List ChainStep) : Nat := (chainExponents c [1]).getLastD 0

/-- How many `M` a chain applies (42_field_inv_sqrt.md R164). -/
def chainMuls (c : List ChainStep) : Nat := (c.filter (fun st => st.times.isSome)).length

/-- How many `S` a chain applies (42_field_inv_sqrt.md R164). -/
def chainSqrs (c : List ChainStep) : Nat := (c.map (fun st => st.sqrs)).sum

end Sys2Proof.Machine
end

