-- ==== Sys2Proof/Machine/State.lean ====
section
/-! DEFINITION. The state of the block (10_state.md R39), what it returns to the host, and the state after reset. -/

namespace Sys2Proof.Machine

/-- Reasons the machine stops with a fault: none. The block has no trap, abort, halt or lock-up state and no command
hangs (60_exceptions.md R223, R225; 00_scope.md R9), so the type has no constructor; an error of a command is a code
in `ERR` and the machine goes on. Log entry 13; safe. -/
inductive Fault where
deriving DecidableEq, Repr

/-- Reasons a command has no meaning in this model. -/
inductive Refusal where
  /-- Raised by an arm of `exec` whose command has no meaning yet; no arm does. Safe: nothing can be proved of a run
  that stops here. -/
  | notModelled (mnemonic : String)
deriving DecidableEq, Repr

/-- The byte-buffer space (20_memory.md R50): the bytes that exist, each with its address, the byte at offset `off` of
buffer `i` at `128·i + off`, which is the port's `buf_sel ‖ buf_addr` (R62). A buffer is as long as it has cells, and a
byte at or above its length has none (10_state.md R26). `Memory.wf` is the one canonical form. Log entry 5. -/
abbrev Memory := List Host.Cell

/-- A table of fifteen Points, entry `j` the multiple `j + 1` of its base (10_state.md R34). -/
abbrev Table := Vector Point TABLEN

/-- The generator table `GT`: 64 tables (10_state.md R34). -/
abbrev GenTable := Vector Table NTAB

/-- A byte string a host may put in a buffer: at most `BUFMAX` bytes, "a type that excludes" every other
(20_memory.md R56). -/
structure ByteString where
  bytes : Bytes
  short : bytes.length ≤ BUFMAX
deriving DecidableEq, Repr

/-- The five transactions by which the host drives the block (20_memory.md R56). -/
inductive Transaction where
  | reset
  | bufWrite (i : BReg) (v : ByteString)
  | bufRead (i : BReg)
  | statusRead
  | issue (w : Word)
deriving DecidableEq, Repr

/-- What a transaction returns to the host (20_memory.md R56). -/
inductive Reply where
  /-- `Reset` and `BufWrite` return nothing -/
  | nothing
  /-- `BufRead` returns the bytes of the buffer -/
  | bytes (v : Bytes)
  /-- `StatusRead` returns the `STATUS` word -/
  | status (w : Word)
  /-- `Issue` returns the new `ERR` and the new `FLAG` -/
  | response (err : BitVec 4) (flag : Bool)
deriving DecidableEq, Repr

/-- Everything the spec gives the block (10_state.md R39), and the host's side of the interface. -/
structure State where
  /-- Element registers `e0` to `e15` (10_state.md R20) -/
  e : Vector Element NEREG
  /-- Point registers `p0` to `p7` (10_state.md R23) -/
  pt : Vector Point NPREG
  /-- byte buffers `b0` to `b3` (10_state.md R26) -/
  buf : Memory
  /-- the condition flag (10_state.md R27) -/
  flag : Bool
  /-- the error code of the most recent command (10_state.md R28) -/
  err : BitVec 4
  /-- generator table valid (10_state.md R31) -/
  gtv : Bool
  /-- the generator table (10_state.md R34) -/
  gt : GenTable
  /-- 1 while a command is executing; 0 at every transaction boundary (10_state.md R30) -/
  busy : Bool
  /-- the model's own: the transactions the host is about to issue, oldest first (log entry 1) -/
  pending : List Transaction
  /-- the model's own: what the last transaction returned to the host (log entry 1) -/
  reply : Reply
deriving DecidableEq, Repr

/-- A Point with every limb 0. -/
def Point.allZero : Point := ⟨ZERO, ZERO, ZERO⟩

/-- The state right after reset (10_state.md R39, 70_reset_and_hazards.md R240). The contents of `gt` are unspecified
while `gtv` is 0 and nothing reads them; here every limb is 0: DESIGN CHOICE, unsafe, log entry 6. `pending` and
`reply` are the model's own: DESIGN CHOICE, unsafe, log entry 1. -/
def State.reset : State where
  e := Vector.replicate NEREG ZERO
  pt := Vector.replicate NPREG IDENT
  buf := []
  flag := false
  err := 0
  gtv := false
  gt := Vector.replicate NTAB (Vector.replicate TABLEN Point.allZero)
  busy := false
  pending := []
  reply := .nothing

end Sys2Proof.Machine
end

