-- ==== Sys2Proof/Machine/Points.lean ====
section
/-! DEFINITION. The point layer's internal functions: complete addition and doubling, subtraction, selection, tables,
affine coordinates (43_point_primitives.md R170 to R177, R179). -/

namespace Sys2Proof.Machine

/-! ### Addition, doubling, subtraction -/

/-- `PointAdd(P1, P2)`: the 33 steps of R170 in order, under their own names (43_point_primitives.md R170). -/
def pointAdd (P1 P2 : Point) : Point :=
  let X1 := P1.X; let Y1 := P1.Y; let Z1 := P1.Z
  let X2 := P2.X; let Y2 := P2.Y; let Z2 := P2.Z
  let t0 := montMul X1 X2      -- 1
  let t1 := montMul Y1 Y2      -- 2
  let t2 := montMul Z1 Z2      -- 3
  let t3 := fAdd X1 Y1         -- 4
  let t4 := fAdd X2 Y2         -- 5
  let t3 := montMul t3 t4      -- 6
  let t4 := fAdd t0 t1         -- 7
  let t3 := fSub t3 t4         -- 8
  let t4 := fAdd Y1 Z1         -- 9
  let X3 := fAdd Y2 Z2         -- 10
  let t4 := montMul t4 X3      -- 11
  let X3 := fAdd t1 t2         -- 12
  let t4 := fSub t4 X3         -- 13
  let X3 := fAdd X1 Z1         -- 14
  let Y3 := fAdd X2 Z2         -- 15
  let X3 := montMul X3 Y3      -- 16
  let Y3 := fAdd t0 t2         -- 17
  let Y3 := fSub X3 Y3         -- 18
  let X3 := fAdd t0 t0         -- 19
  let t0 := fAdd X3 t0         -- 20
  let t2 := montMul B3 t2      -- 21
  let Z3 := fAdd t1 t2         -- 22
  let t1 := fSub t1 t2         -- 23
  let Y3 := montMul B3 Y3      -- 24
  let X3 := montMul t4 Y3      -- 25
  let t2 := montMul t3 t1      -- 26
  let X3 := fSub t2 X3         -- 27
  let Y3 := montMul Y3 t0      -- 28
  let t1 := montMul t1 Z3      -- 29
  let Y3 := fAdd t1 Y3         -- 30
  let t0 := montMul t0 t3      -- 31
  let Z3 := montMul Z3 t4      -- 32
  let Z3 := fAdd Z3 t0         -- 33
  ⟨X3, Y3, Z3⟩

/-- `PointDouble(P)`: the 18 steps of R171 in order, under their own names (43_point_primitives.md R171). -/
def pointDouble (Q : Point) : Point :=
  let X := Q.X; let Y := Q.Y; let Z := Q.Z
  let t0 := montSqr Y          -- 1
  let Z3 := fAdd t0 t0         -- 2
  let Z3 := fAdd Z3 Z3         -- 3
  let Z3 := fAdd Z3 Z3         -- 4
  let t1 := montMul Y Z        -- 5
  let t2 := montSqr Z          -- 6
  let t2 := montMul B3 t2      -- 7
  let X3 := montMul t2 Z3      -- 8
  let Y3 := fAdd t0 t2         -- 9
  let Z3 := montMul t1 Z3      -- 10
  let t1 := fAdd t2 t2         -- 11
  let t2 := fAdd t1 t2         -- 12
  let t0 := fSub t0 t2         -- 13
  let Y3 := montMul t0 Y3      -- 14
  let Y3 := fAdd X3 Y3         -- 15
  let t1 := montMul X Y        -- 16
  let X3 := montMul t0 t1      -- 17
  let X3 := fAdd X3 X3         -- 18
  ⟨X3, Y3, Z3⟩

/-- `PointNeg(P)`: the group inverse, by negating `Y` (43_point_primitives.md R172). -/
def pointNeg (Q : Point) : Point := ⟨Q.X, fNeg Q.Y, Q.Z⟩

/-- `PointSub(P1, P2)`: addition with `Y2` negated (43_point_primitives.md R172). -/
def pointSub (P1 P2 : Point) : Point := pointAdd P1 (pointNeg P2)

/-! ### Select and table-select -/

/-- `PointSelect(A, B, c)`: `A` when `c = 1`, `B` when `c = 0`, component-wise (43_point_primitives.md R173). -/
def pointSelect (A B : Point) (c : Bool) : Point :=
  ⟨fSelect A.X B.X c, fSelect A.Y B.Y c, fSelect A.Z B.Z c⟩

/-- The scan of R174 over the entries that are left, `i` being the multiple the first of them is
(43_point_primitives.md R174). -/
def tableScan (n : Nibble) : Nat → List Point → Point → Point
  | _, [], r => r
  | i, T :: Ts, r => tableScan n (i + 1) Ts (pointSelect T r (i == n.toNat))

/-- `TableSelect(T, n)`: the `n`-th multiple, or the identity for `n = 0`, by scanning all entries
(43_point_primitives.md R174). -/
def tableSelect (T : Table) (n : Nibble) : Point := tableScan n 1 T.toList IDENT

/-! ### Tables -/

/-- `BuildWindowTable(Q)` (43_point_primitives.md R175). -/
def buildWindowTable (Q : Point) : Table :=
  let T0 := Q
  let T1 := pointDouble T0
  let T2 := pointAdd T1 Q
  let T3 := pointDouble T1
  let T4 := pointAdd T3 Q
  let T5 := pointDouble T2
  let T6 := pointAdd T5 Q
  let T7 := pointDouble T3
  let T8 := pointAdd T7 Q
  let T9 := pointDouble T4
  let T10 := pointAdd T9 Q
  let T11 := pointDouble T5
  let T12 := pointAdd T11 Q
  let T13 := pointDouble T6
  let T14 := pointAdd T13 Q
  #v[T0, T1, T2, T3, T4, T5, T6, T7, T8, T9, T10, T11, T12, T13, T14]

/-- `Quadruple(P)`: four doublings, ×16 (43_point_primitives.md R177). -/
def quadruple (Q : Point) : Point := pointDouble (pointDouble (pointDouble (pointDouble Q)))

/-- Entry `j` of a generator-table row: the base, then repeated `PointAdd` of the base (43_point_primitives.md R176). -/
def genEntry (base : Point) : Nat → Point
  | 0 => base
  | j + 1 => pointAdd (genEntry base j) base

/-- The base of generator-table row `k`: the generator after `k` times `Quadruple` (43_point_primitives.md R176). -/
def genBase : Nat → Point
  | 0 => GEN
  | k + 1 => quadruple (genBase k)

/-- `BuildGeneratorTable()` (43_point_primitives.md R176). -/
def buildGeneratorTable : GenTable :=
  Vector.ofFn fun k => Vector.ofFn fun j => genEntry (genBase k) j

/-! ### Affine coordinates -/

/-- `Affine(P)`: `none` for the identity (`Z = ZERO`), otherwise `(X·Z⁻¹, Y·Z⁻¹)` (43_point_primitives.md R179). -/
def affine (Q : Point) : Option (Element × Element) :=
  if fIsZero Q.Z then none
  else
    let zi := fInvert Q.Z
    some (montMul Q.X zi, montMul Q.Y zi)

end Sys2Proof.Machine
end

