-- ==== Sys2Proof/Machine/Codec.lean ====
section
/-! DEFINITION. The point encoder and decoder as functions on byte strings (45_point_codec.md R200 to R203,
20_memory.md R54). -/

namespace Sys2Proof.Machine

/-- `v[i..j]`: bytes `i` to `j − 1` (00_scope.md R10). -/
def slice (v : Bytes) (i j : Nat) : Bytes := (v.drop i).take (j - i)

/-- `lsb(v)`: bit 0 of the last byte of a byte string (00_scope.md R10). -/
def lsb (v : Bytes) : Bool := (v.getLastD 0).getLsbD 0

/-- `x³ + 7` (45_point_codec.md R200). -/
def curveRhs (x : Element) : Element := fAdd (montMul (montSqr x) x) SEVEN

/-- The uncompressed form of R200: `x`, then `y`, then the curve check. -/
def decodeUncompressed (v : Bytes) : Except Err Point :=
  (fSetBytes (slice v 1 33)).bind fun x =>
    (fSetBytes (slice v 33 65)).bind fun y =>
      if fEqual (montSqr y) (curveRhs x) then .ok ⟨x, y, ONE⟩ else .error .notOnCurve

/-- The compressed form of R200: `x`, then the square root, then the root of the prefix's parity by select. -/
def decodeCompressed (pfx : Byte) (v : Bytes) : Except Err Point :=
  (fSetBytes (slice v 1 33)).bind fun x =>
    let r := fSqrt (curveRhs x)
    if r.1 then
      let y := r.2
      let bit := lsb (fBytes y)
      .ok ⟨x, fSelect (fNeg y) y (bit ^^ (pfx &&& 1).getLsbD 0), ONE⟩
    else .error .invalidCompressedPoint

/-- The decoder: the pair (length, first byte) is matched first (45_point_codec.md R200). -/
def decodePoint (v : Bytes) : Except Err Point :=
  match v.head? with
  | none => .error .invalidPointEncoding
  | some b =>
    if v.length = 1 ∧ b = 0x00 then .ok IDENT
    else if v.length = 65 ∧ b = 0x04 then decodeUncompressed v
    else if v.length = 33 ∧ (b = 0x02 ∨ b = 0x03) then decodeCompressed b v
    else .error .invalidPointEncoding

/-- The uncompressed encoding, `00` for the identity (45_point_codec.md R201). -/
def encodeUncompressed (Q : Point) : Bytes :=
  (affine Q).elim [0x00] fun a => [0x04] ++ fBytes a.1 ++ fBytes a.2

/-- The affine x-coordinate alone; the identity has none (45_point_codec.md R202). -/
def encodeX (Q : Point) : Except Err Bytes :=
  (affine Q).elim (.error .isIdentity) fun a => .ok (fBytes a.1)

/-- The compressed encoding, `00` for the identity (45_point_codec.md R203). -/
def encodeCompressed (Q : Point) : Bytes :=
  (affine Q).elim [0x00] fun a => [0x02 + (if lsb (fBytes a.2) then 1 else 0)] ++ fBytes a.1

end Sys2Proof.Machine
end

