-- ==== Sys2Proof/Machine/Flags.lean ====
section
/-! DEFINITION. The condition flag, the generator table's valid bit, and the `STATUS` word (10_state.md R27, R28,
R30, R31). -/

namespace Sys2Proof.Machine

/-- `FLAG <- b` (10_state.md R27). Only `FEQ`, `FISZ` and `FSQRT` do so. -/
def State.setFlag (s : State) (b : Bool) : State := { s with flag := b }

/-- `STATUS.ERR <- code` (10_state.md R28). -/
def State.setErr (s : State) (code : BitVec 4) : State := { s with err := code }

/-- `GT <- table; GTV <- 1` (10_state.md R31, 46_scalar_mult.md R212, R214). -/
def State.setTable (s : State) (gt : GenTable) : State := { s with gt := gt, gtv := true }

/-- The `STATUS` word: BUSY bit 0, FLAG bit 1, GTV bit 2, bit 3 reads 0, ERR bits 7:4, bits 31:8 read 0
(10_state.md R30). -/
def State.statusWord (s : State) : Word :=
  (0 : BitVec 24) ++ s.err ++ (0 : BitVec 1) ++ BitVec.ofBool s.gtv ++ BitVec.ofBool s.flag ++ BitVec.ofBool s.busy

end Sys2Proof.Machine
end

