-- ==== Sys2Proof/Machine/Operands.lean ====
section
/-! DEFINITION. Operand access: the Element, Point and buffer an index names (00_scope.md R12, 30_encoding.md R72), and
the memory primitives (00_scope.md R13, 20_memory.md R50). Every read and write of a register goes through here. -/

namespace Sys2Proof.Machine

/-! ### Element registers -/

/-- `e[i]` (00_scope.md R12). -/
def State.readE (s : State) (i : EReg) : Element := s.e[i]

/-- `e[i] <- v` (00_scope.md R12). -/
def State.writeE (s : State) (i : EReg) (v : Element) : State := { s with e := s.e.set i v }

/-! ### Point registers -/

/-- `pt[i]` (00_scope.md R12). -/
def State.readP (s : State) (i : PReg) : Point := s.pt[i]

/-- `pt[i] <- (X, Y, Z)` (00_scope.md R12). -/
def State.writeP (s : State) (i : PReg) (v : Point) : State := { s with pt := s.pt.set i v }

/-! ### Byte buffers -/

/-- The buffer whose byte a cell is: an address is `buf_sel ‖ buf_addr`, 7 bits of offset (20_memory.md R62). -/
def Memory.owner (c : Host.Cell) : Nat := c.1 / 128

/-- The cells of a byte string held by buffer `i`, from offset 0 on (20_memory.md R50). -/
def Memory.bufferCells (i : BReg) (v : Bytes) : List Host.Cell := v.mapIdx fun off b => (128 * i.val + off, b)

/-- The whole buffer `i` of a memory (20_memory.md R50). -/
def Memory.buffer (m : Memory) (i : BReg) : Bytes := (m.filter fun c => Memory.owner c == i.val).map (·.2)

/-- `buf[i] <- v`: the buffer is replaced whole, its length included (00_scope.md R12, R13). -/
def Memory.replace (m : Memory) (i : BReg) (v : Bytes) : Memory :=
  m.filter (fun c => decide (Memory.owner c < i.val)) ++ Memory.bufferCells i v ++
    m.filter (fun c => decide (i.val < Memory.owner c))

/-- The byte at the address `(i, off)`; `none` at or above the buffer's length, where no byte exists
(20_memory.md R50, 10_state.md R26). -/
def Memory.byte? (m : Memory) (i : BReg) (off : Nat) : Option Byte := (Memory.buffer m i)[off]?

/-- `MemRead((i, off), n)`: bytes `off` to `off + n − 1`, defined only when they all exist (00_scope.md R13). -/
def Memory.memRead (m : Memory) (i : BReg) (off n : Nat) : Option Bytes :=
  if off + n ≤ (Memory.buffer m i).length then some (((Memory.buffer m i).drop off).take n) else none

/-- The canonical listing of the four buffers of a memory: addresses strictly rising, absent bytes unlisted. -/
def Memory.listing (m : Memory) : Memory :=
  Memory.bufferCells 0 (Memory.buffer m 0) ++ Memory.bufferCells 1 (Memory.buffer m 1) ++
    Memory.bufferCells 2 (Memory.buffer m 2) ++ Memory.bufferCells 3 (Memory.buffer m 3)

/-- The one form every reachable memory has: no buffer is longer than `BUFMAX` (10_state.md R26), and the cells are the
listing of the buffers, so that equal memories are equal data (log entry 5). -/
abbrev Memory.wf (m : Memory) : Prop := (∀ i : BReg, (Memory.buffer m i).length ≤ BUFMAX) ∧ m = Memory.listing m

/-- `buf[i]` (00_scope.md R12): what a command reads is the whole buffer, `MemRead((i, 0), len(buf[i]))`. -/
def State.readBuf (s : State) (i : BReg) : Bytes := Memory.buffer s.buf i

/-- `buf[i] <- v` (00_scope.md R12), that is `MemWrite((i, 0), len(v), v)` (R13). -/
def State.writeBuf (s : State) (i : BReg) (v : Bytes) : State := { s with buf := Memory.replace s.buf i v }

end Sys2Proof.Machine
end

