-- ==== Sys2Proof/Machine/Ops.lean ====
section
/-! DEFINITION. How a command ends (00_scope.md R14, 60_exceptions.md R223), and the lazy build of the generator
table. There is no return from an error to define beside it: the block is idle after the response and the next
command overwrites `ERR` (60_exceptions.md R224). -/

namespace Sys2Proof.Machine

/-- The outcome of a command. -/
abbrev Result := Host.Outcome State Fault Refusal

/-- A command that does not raise ends with `ERR` 0 (00_scope.md R14). -/
def State.finish (s : State) : Result := .next (s.setErr okCode)

/-- Error delivery, the block's whole "trap entry": `ERR` takes the code and nothing else changes
(60_exceptions.md R223, 00_scope.md R14). -/
def State.raise (s : State) (K : Err) : Result := .next (s.setErr K.code)

/-- The end of a command that may raise: the error, the state otherwise untouched, or the state its writes leave
(00_scope.md R14: every check comes before the first write). -/
def State.conclude (s : State) (r : Except Err State) : Result :=
  match r with
  | .error K => s.raise K
  | .ok t => t.finish

/-- `if GTV = 0: GT <- BuildGeneratorTable(); GTV <- 1` (46_scalar_mult.md R212, R214). -/
def State.ensureTable (s : State) : State := if s.gtv then s else s.setTable buildGeneratorTable

end Sys2Proof.Machine
end

