-- ==== Sys2Proof/Machine/CodecCommands.lean ====
section
/-! DEFINITION. The codec commands of 45_point_codec.md. -/

namespace Sys2Proof.Machine

/-- `PLDB pd, bs`: decode a point from a buffer, or raise the decoder's error (45_point_codec.md R200). -/
def execPldb (pd : PReg) (bs : BReg) (s : State) : Result :=
  s.conclude ((decodePoint (s.readBuf bs)).map fun Q => s.writeP pd Q)

/-- `PSTB bd, pa`: encode uncompressed (45_point_codec.md R201). -/
def execPstb (bd : BReg) (pa : PReg) (s : State) : Result :=
  (s.writeBuf bd (encodeUncompressed (s.readP pa))).finish

/-- `PSTBX bd, pa`: encode the affine x-coordinate, or raise `IsIdentity` (45_point_codec.md R202). -/
def execPstbx (bd : BReg) (pa : PReg) (s : State) : Result :=
  s.conclude ((encodeX (s.readP pa)).map fun v => s.writeBuf bd v)

/-- `PSTBC bd, pa`: encode compressed (45_point_codec.md R203). -/
def execPstbc (bd : BReg) (pa : PReg) (s : State) : Result :=
  (s.writeBuf bd (encodeCompressed (s.readP pa))).finish

end Sys2Proof.Machine
end

