-- ==== Sys2Proof/Machine/FieldCommands.lean ====
section
/-! DEFINITION. The field commands of 41_field_commands.md, and `FINV`, `FSQRT` of 42_field_inv_sqrt.md. Sources are
read from the state before the destination is written (41_field_commands.md R129, 70_reset_and_hazards.md R246). -/

namespace Sys2Proof.Machine

/-- `FZERO ed`: `e[rd] <- ZERO` (41_field_commands.md R130). -/
def execFzero (ed : EReg) (s : State) : Result := (s.writeE ed ZERO).finish

/-- `FONE ed`: `e[rd] <- ONE` (41_field_commands.md R131). -/
def execFone (ed : EReg) (s : State) : Result := (s.writeE ed ONE).finish

/-- `FSET ed, ea`: `e[rd] <- e[ra]` (41_field_commands.md R132). -/
def execFset (ed ea : EReg) (s : State) : Result := (s.writeE ed (s.readE ea)).finish

/-- `FSEL ed, ea, eb`: `e[rd] <- FSelect(e[ra], e[rb], FLAG)` (41_field_commands.md R133). -/
def execFsel (ed ea eb : EReg) (s : State) : Result :=
  (s.writeE ed (fSelect (s.readE ea) (s.readE eb) s.flag)).finish

/-- `FEQ ea, eb`: `FLAG <- FEqual(e[ra], e[rb])` (41_field_commands.md R134). -/
def execFeq (ea eb : EReg) (s : State) : Result := (s.setFlag (fEqual (s.readE ea) (s.readE eb))).finish

/-- `FISZ ea`: `FLAG <- FIsZero(e[ra])` (41_field_commands.md R135). -/
def execFisz (ea : EReg) (s : State) : Result := (s.setFlag (fIsZero (s.readE ea))).finish

/-- `FADD ed, ea, eb`: `e[rd] <- FAdd(e[ra], e[rb])` (41_field_commands.md R136). -/
def execFadd (ed ea eb : EReg) (s : State) : Result := (s.writeE ed (fAdd (s.readE ea) (s.readE eb))).finish

/-- `FSUB ed, ea, eb`: `e[rd] <- FSub(e[ra], e[rb])` (41_field_commands.md R137). -/
def execFsub (ed ea eb : EReg) (s : State) : Result := (s.writeE ed (fSub (s.readE ea) (s.readE eb))).finish

/-- `FMUL ed, ea, eb`: `e[rd] <- MontMul(e[ra], e[rb])` (41_field_commands.md R138). -/
def execFmul (ed ea eb : EReg) (s : State) : Result := (s.writeE ed (montMul (s.readE ea) (s.readE eb))).finish

/-- `FSQR ed, ea`: `e[rd] <- MontSqr(e[ra])` (41_field_commands.md R139). -/
def execFsqr (ed ea : EReg) (s : State) : Result := (s.writeE ed (montSqr (s.readE ea))).finish

/-- `FINV ed, ea`: `e[rd] <- FInvert(e[ra])` (42_field_inv_sqrt.md R161). -/
def execFinv (ed ea : EReg) (s : State) : Result := (s.writeE ed (fInvert (s.readE ea))).finish

/-- `FSQRT ed, ea`: `FLAG <- ok`, and `e[rd] <- FSelect(c, e[rd], ok)` (42_field_inv_sqrt.md R163). -/
def execFsqrt (ed ea : EReg) (s : State) : Result :=
  let r := fSqrt (s.readE ea)
  ((s.setFlag r.1).writeE ed (fSelect r.2 (s.readE ed) r.1)).finish

/-- `FLDB ed, bs`: `e[rd] <- FSetBytes(buf[ra])`, or its error (41_field_commands.md R140). -/
def execFldb (ed : EReg) (bs : BReg) (s : State) : Result :=
  s.conclude ((fSetBytes (s.readBuf bs)).map fun x => s.writeE ed x)

/-- `FSTB bd, ea`: `buf[rd] <- FBytes(e[ra])` (41_field_commands.md R141). -/
def execFstb (bd : BReg) (ea : EReg) (s : State) : Result := (s.writeBuf bd (fBytes (s.readE ea))).finish

end Sys2Proof.Machine
end

