-- ==== Sys2Proof/Machine/PointCommands.lean ====
section
/-! DEFINITION. The point commands of 44_point_commands.md. Sources are read from the state before the destination is
written (44_point_commands.md R189, 70_reset_and_hazards.md R246). -/

namespace Sys2Proof.Machine

/-- `PIDENT pd`: `pt[rd] <- IDENT` (44_point_commands.md R190). -/
def execPident (pd : PReg) (s : State) : Result := (s.writeP pd IDENT).finish

/-- `PGEN pd`: `pt[rd] <- GEN` (44_point_commands.md R191). -/
def execPgen (pd : PReg) (s : State) : Result := (s.writeP pd GEN).finish

/-- `PSET pd, pa`: `pt[rd] <- pt[ra]` (44_point_commands.md R192). -/
def execPset (pd pa : PReg) (s : State) : Result := (s.writeP pd (s.readP pa)).finish

/-- `PSEL pd, pa, pb`: `pt[rd] <- PointSelect(pt[ra], pt[rb], FLAG)` (44_point_commands.md R193). -/
def execPsel (pd pa pb : PReg) (s : State) : Result :=
  (s.writeP pd (pointSelect (s.readP pa) (s.readP pb) s.flag)).finish

/-- `PADD pd, pa, pb`: `pt[rd] <- PointAdd(pt[ra], pt[rb])` (44_point_commands.md R194). -/
def execPadd (pd pa pb : PReg) (s : State) : Result := (s.writeP pd (pointAdd (s.readP pa) (s.readP pb))).finish

/-- `PSUB pd, pa, pb`: `pt[rd] <- PointSub(pt[ra], pt[rb])` (44_point_commands.md R195). -/
def execPsub (pd pa pb : PReg) (s : State) : Result := (s.writeP pd (pointSub (s.readP pa) (s.readP pb))).finish

/-- `PDBL pd, pa`: `pt[rd] <- PointDouble(pt[ra])` (44_point_commands.md R196). -/
def execPdbl (pd pa : PReg) (s : State) : Result := (s.writeP pd (pointDouble (s.readP pa))).finish

end Sys2Proof.Machine
end

