-- ==== Sys2Proof/Machine/Scalar.lean ====
section
/-! DEFINITION. The two scalar multipliers as functions on values (46_scalar_mult.md R210, R213). -/

namespace Sys2Proof.Machine

/-- The high nibble of a scalar byte, `b >> 4` (20_memory.md R53). -/
def hiNibble (b : Byte) : Nibble := b.extractLsb' 4 4

/-- The low nibble of a scalar byte, `b & 0x0F` (20_memory.md R53). -/
def loNibble (b : Byte) : Nibble := b.extractLsb' 0 4

/-- One iteration of the loop of R210; `first` tells the first byte, whose leading doublings are skipped
(46_scalar_mult.md R210). -/
def scalarStep (T : Table) (first : Bool) (A : Point) (b : Byte) : Point :=
  let A := if first then A else quadruple A
  let A := pointAdd A (tableSelect T (hiNibble b))
  let A := quadruple A
  pointAdd A (tableSelect T (loNibble b))

/-- The loop of R210 over the bytes that follow the first. -/
def scalarLoop (T : Table) : Point → Bytes → Point
  | A, [] => A
  | A, b :: bs => scalarLoop T (scalarStep T false A b) bs

/-- `ScalarMult(Q, s)`, for a scalar of any length (46_scalar_mult.md R210). -/
def scalarMult (Q : Point) (s : Bytes) : Point :=
  let T := buildWindowTable Q
  match s with
  | [] => IDENT
  | b :: bs => scalarLoop T (scalarStep T true IDENT b) bs

/-- The loop of R213 from byte `i` on: the high nibble from table `63 − 2i`, the low nibble from table `62 − 2i`
(46_scalar_mult.md R213). -/
def baseLoop (gt : GenTable) : Nat → Point → Bytes → Point
  | _, A, [] => A
  | i, A, b :: bs =>
    let A := pointAdd A (tableSelect (gt[63 - 2 * i]'(by unfold NTAB; omega)) (hiNibble b))
    let A := pointAdd A (tableSelect (gt[62 - 2 * i]'(by unfold NTAB; omega)) (loNibble b))
    baseLoop gt (i + 1) A bs

/-- `ScalarBaseMult(s)`, for a scalar of 32 bytes, reading the generator table (46_scalar_mult.md R213). -/
def scalarBaseMult (gt : GenTable) (s : Bytes) : Point := baseLoop gt 0 IDENT s

end Sys2Proof.Machine
end

