-- ==== Sys2Proof/Machine/ScalarCommands.lean ====
section
/-! DEFINITION. The scalar multipliers and the generator table's eager construction (46_scalar_mult.md R211, R212,
R214). -/

namespace Sys2Proof.Machine

/-- `PSMUL pd, pa, bs`: `pt[rd] <- ScalarMult(pt[ra], buf[rb])` (46_scalar_mult.md R211). -/
def execPsmul (pd pa : PReg) (bs : BReg) (s : State) : Result :=
  (s.writeP pd (scalarMult (s.readP pa) (s.readBuf bs))).finish

/-- `PBMUL pd, bs`: the length check comes before the table is touched; then the table is built if it is not, and
`pt[rd] <- ScalarBaseMult(buf[ra])` (46_scalar_mult.md R212). -/
def execPbmul (pd : PReg) (bs : BReg) (s : State) : Result :=
  let v := s.readBuf bs
  if v.length ≠ 32 then s.raise .invalidScalarLength
  else
    let s := s.ensureTable
    (s.writeP pd (scalarBaseMult s.gt v)).finish

/-- `GTINIT`: build the generator table unless it is built (46_scalar_mult.md R214). -/
def execGtinit (s : State) : Result := s.ensureTable.finish

end Sys2Proof.Machine
end

