-- ==== Sys2Proof/Machine/Dispatch.lean ====
section
/-! DEFINITION. One arm per command, each a direct call of its meaning. -/

namespace Sys2Proof.Machine

/-- The meaning of a command (30_encoding.md R74 names the rule of each). -/
def exec (i : Instr) (s : State) : Host.Outcome State Fault Refusal :=
  match i with
  | .gtinit => Sys2Proof.Machine.execGtinit s
  | .fzero ed => Sys2Proof.Machine.execFzero ed s
  | .fone ed => Sys2Proof.Machine.execFone ed s
  | .fset ed ea => Sys2Proof.Machine.execFset ed ea s
  | .fsel ed ea eb => Sys2Proof.Machine.execFsel ed ea eb s
  | .feq ea eb => Sys2Proof.Machine.execFeq ea eb s
  | .fisz ea => Sys2Proof.Machine.execFisz ea s
  | .fadd ed ea eb => Sys2Proof.Machine.execFadd ed ea eb s
  | .fsub ed ea eb => Sys2Proof.Machine.execFsub ed ea eb s
  | .fmul ed ea eb => Sys2Proof.Machine.execFmul ed ea eb s
  | .fsqr ed ea => Sys2Proof.Machine.execFsqr ed ea s
  | .finv ed ea => Sys2Proof.Machine.execFinv ed ea s
  | .fsqrt ed ea => Sys2Proof.Machine.execFsqrt ed ea s
  | .fldb ed bs => Sys2Proof.Machine.execFldb ed bs s
  | .fstb bd ea => Sys2Proof.Machine.execFstb bd ea s
  | .pident pd => Sys2Proof.Machine.execPident pd s
  | .pgen pd => Sys2Proof.Machine.execPgen pd s
  | .pset pd pa => Sys2Proof.Machine.execPset pd pa s
  | .psel pd pa pb => Sys2Proof.Machine.execPsel pd pa pb s
  | .padd pd pa pb => Sys2Proof.Machine.execPadd pd pa pb s
  | .psub pd pa pb => Sys2Proof.Machine.execPsub pd pa pb s
  | .pdbl pd pa => Sys2Proof.Machine.execPdbl pd pa s
  | .pldb pd bs => Sys2Proof.Machine.execPldb pd bs s
  | .pstb bd pa => Sys2Proof.Machine.execPstb bd pa s
  | .pstbx bd pa => Sys2Proof.Machine.execPstbx bd pa s
  | .pstbc bd pa => Sys2Proof.Machine.execPstbc bd pa s
  | .psmul pd pa bs => Sys2Proof.Machine.execPsmul pd pa bs s
  | .pbmul pd bs => Sys2Proof.Machine.execPbmul pd bs s

end Sys2Proof.Machine
end

