-- ==== Sys2Proof/Machine/Transactions.lean ====
section
/-! DEFINITION. The five host transactions (20_memory.md R56), each one atomic step (R58). -/

namespace Sys2Proof.Machine

/-- Hand a transaction's return value to the host (20_memory.md R56). -/
def State.answer (s : State) (r : Reply) : State := { s with reply := r }

/-- The response of a command: the new `ERR` and the new `FLAG` (20_memory.md R56). -/
def State.respond (s : State) : State := s.answer (.response s.err s.flag)

/-- `Reset`: all state takes its reset value and nothing is returned (20_memory.md R56, 70_reset_and_hazards.md R240).
What the host still means to issue is the host's and stays. -/
def doReset (s : State) : Result := .next { State.reset with pending := s.pending }

/-- `BufWrite(i, v)`: `buf[i] <- v`, nothing else (20_memory.md R56). -/
def doBufWrite (i : BReg) (v : ByteString) (s : State) : Result := .next ((s.writeBuf i v.bytes).answer .nothing)

/-- `BufRead(i)`: returns the buffer, changes nothing (20_memory.md R56, R59). -/
def doBufRead (i : BReg) (s : State) : Result := .next (s.answer (.bytes (s.readBuf i)))

/-- `StatusRead`: returns `STATUS`, changes nothing (20_memory.md R56, R59). -/
def doStatusRead (s : State) : Result := .next (s.answer (.status s.statusWord))

/-- What a command word does: the command it spells, or `IllegalCommand` (30_encoding.md R75, R76). -/
def runWord (w : Word) (s : State) : Result :=
  match decode w with
  | .ok i => exec i s
  | .error _ => s.raise .illegalCommand

/-- `Issue(w)`: run the word, then return `(ERR, FLAG)` (20_memory.md R56). -/
def doIssue (w : Word) (s : State) : Result :=
  match runWord w s with
  | .next t => .next t.respond
  | .fault r => .fault r
  | .refused r => .refused r

/-- The effect of one host transaction (20_memory.md R56). -/
def perform (t : Transaction) (s : State) : Result :=
  match t with
  | .reset => doReset s
  | .bufWrite i v => doBufWrite i v s
  | .bufRead i => doBufRead i s
  | .statusRead => doStatusRead s
  | .issue w => doIssue w s

/-- The block between transactions: it is idle and holds all its state (60_exceptions.md R235; log entry 2). -/
def idle (s : State) : Result := .next s

/-- The next transaction is no longer pending. -/
def State.dropPending (s : State) (rest : List Transaction) : State := { s with pending := rest }

/-- Put a command word where the next step takes its transaction from: the host's next transaction is `Issue(w)`
(20_memory.md R63; log entry 1). -/
def State.issueNext (s : State) (w : Word) : State := { s with pending := .issue w :: s.pending }

end Sys2Proof.Machine
end

