-- ==== Sys2Proof/Machine/Step.lean ====
section
/-! DEFINITION. One step is one host transaction (00_scope.md R8): the oldest one pending. -/

namespace Sys2Proof.Machine

/-- Perform the host's next transaction; with none, stay idle (00_scope.md R8, 20_memory.md R60; log entries 1, 2). -/
def step (s : State) : Host.Outcome State Fault Refusal :=
  match s.pending with
  | [] => idle s
  | t :: rest => perform t (s.dropPending rest)

/-- `s` with an instruction, numbered as the opcode table numbers its bits, as the host's next command word. The
block fetches nothing: a command word is the argument of `Issue` (10_state.md R29, 20_memory.md R63; log entry 1). -/
def State.withFetchWord (s : State) (nbits w : Nat) : State := s.issueNext (tableWord nbits w)

end Sys2Proof.Machine
end

