-- ==== Sys2Proof/Laws/Prime.lean ====
section
/-! SUPPORT. The modulus `P` is prime (10_state.md R36), by a chain of primality certificates, and `−7` is not a cube
modulo `P` (45_point_codec.md R200, corner cases). -/

namespace Sys2Proof.Machine

/-- `a ^ e mod m` by squaring, on `k` bits of fuel. -/
def powModFuel (m : Nat) : Nat → Nat → Nat → Nat
  | 0, _, _ => 1 % m
  | k + 1, a, e =>
    let h := powModFuel m k (a * a % m) (e / 2)
    if e % 2 = 1 then a * h % m else h

theorem powModFuel_eq (m k a e : Nat) (h : e < 2 ^ k) : powModFuel m k a e = a ^ e % m := by
  induction k generalizing a e with
  | zero => simp [powModFuel, Nat.lt_one_iff.mp h]
  | succ k ih =>
    have h2 : e / 2 < 2 ^ k := by rw [pow_succ] at h; omega
    have half : (a * a % m) ^ (e / 2) % m = a ^ (2 * (e / 2)) % m := by
      rw [← Nat.pow_mod, ← sq, ← pow_mul]
    simp only [powModFuel, ih _ _ h2, half]
    split
    · conv_rhs => rw [show e = 2 * (e / 2) + 1 by omega, pow_succ]
      rw [Nat.mul_mod_mod, mul_comm]
    · conv_rhs => rw [show e = 2 * (e / 2) by omega]

/-- A criterion for primality from one large prime factor of `n - 1`. -/
theorem prime_of_large_factor {n r a k : Nat} (hr : r.Prime) (hn : 1 < n) (hk : n < 2 ^ k) (hd : n - 1 = r * ((n - 1) / r))
    (hbig : n < r * r) (h1 : powModFuel n k a (n - 1) = 1)
    (h2 : Nat.gcd (powModFuel n k a ((n - 1) / r) + n - 1) n = 1) : n.Prime := by
  have hk2 : (n - 1) / r < 2 ^ k := lt_of_le_of_lt (Nat.div_le_self _ _) (by omega)
  rw [powModFuel_eq _ _ _ _ (by omega)] at h1
  rw [powModFuel_eq _ _ _ _ hk2] at h2
  set m := (n - 1) / r
  by_contra hp
  set f := n.minFac
  have hf : f.Prime := Nat.minFac_prime (by omega)
  have hfn : f ∣ n := Nat.minFac_dvd n
  have hff : f * f ≤ n := by
    have := Nat.minFac_sq_le_self (by omega : 0 < n) hp
    simpa [sq] using this
  have : Fact f.Prime := ⟨hf⟩
  have e1 : (a : ZMod f) ^ (n - 1) = 1 := by
    have : ((a ^ (n - 1) % n : Nat) : ZMod f) = ((1 : Nat) : ZMod f) := by rw [h1]
    have e : ((a ^ (n - 1) % n : Nat) : ZMod f) = ((a ^ (n - 1) : Nat) : ZMod f) := by
      rw [ZMod.natCast_eq_natCast_iff]
      exact (Nat.mod_modEq _ _).of_dvd hfn
    rw [e] at this
    simpa using this
  have e2 : (a : ZMod f) ^ m ≠ 1 := by
    intro h
    have hdv : f ∣ a ^ m % n + n - 1 := by
      rw [← ZMod.natCast_eq_zero_iff, Nat.cast_sub (by omega), Nat.cast_add]
      have e : ((a ^ m % n : Nat) : ZMod f) = ((a ^ m : Nat) : ZMod f) := by
        rw [ZMod.natCast_eq_natCast_iff]
        exact (Nat.mod_modEq _ _).of_dvd hfn
      have z : ((n : Nat) : ZMod f) = 0 := (ZMod.natCast_eq_zero_iff _ _).mpr hfn
      rw [e, z]; push_cast; rw [h]; simp
    have := Nat.dvd_gcd hdv hfn
    rw [h2] at this
    exact hf.one_lt.ne' (Nat.dvd_one.mp this)
  have hord : orderOf (a : ZMod f) ∣ r * m := hd ▸ orderOf_dvd_of_pow_eq_one e1
  have hro : r ∣ orderOf (a : ZMod f) := by
    by_contra hc
    have hcop : Nat.Coprime (orderOf (a : ZMod f)) r := ((Nat.Prime.coprime_iff_not_dvd hr).mpr hc).symm
    exact e2 (orderOf_dvd_iff_pow_eq_one.mp (hcop.dvd_of_dvd_mul_left hord))
  have ha0 : (a : ZMod f) ≠ 0 := by
    intro h; rw [h, zero_pow (by omega)] at e1; exact zero_ne_one e1
  have hr1 : r ∣ f - 1 := hro.trans (ZMod.orderOf_dvd_card_sub_one ha0)
  have : r ≤ f - 1 := Nat.le_of_dvd (by have := hf.two_le; omega) hr1
  have : r < f := by have := hf.two_le; omega
  nlinarith

/-- A prime factor of `cofactorB - 1`. -/
def cofactorA : Nat := 255515944373312847190720520512484175977
/-- The large prime factor of `P - 1`. -/
def cofactorB : Nat := 205115282021455665897114700593932402728804164701536103180137503955397371

theorem cofactorA_prime : cofactorA.Prime := by
  have hp : ∀ q ∈ [2, 7, 11, 1627, 2657, 4423, 41201, 96557, 7240687, 107590001], Nat.Prime q := by
    simp only [List.forall_mem_cons]; norm_num
  have e : ∀ x, x < 2 ^ 128 → powModFuel cofactorA 128 3 x = 3 ^ x % cofactorA := fun x h => powModFuel_eq _ _ _ _ h
  have cast : ∀ x, ((3 : ZMod cofactorA)) ^ x = ((3 ^ x % cofactorA : Nat) : ZMod cofactorA) := by
    intro x; rw [ZMod.natCast_mod]; push_cast; rfl
  refine lucas_primality cofactorA 3 ?_ ?_
  · rw [cast, ← e _ (by decide +kernel), show powModFuel cofactorA 128 3 (cofactorA - 1) = 1 by decide +kernel]; simp
  · intro q hq hd
    have hf : cofactorA - 1 = 2 ^ 3 * (7 ^ 2 * (11 * (1627 * (2657 * (4423 * (41201 * (96557 * (7240687 * 107590001)))))))) := by decide +kernel
    rw [hf] at hd
    have hm : q ∈ [2, 7, 11, 1627, 2657, 4423, 41201, 96557, 7240687, 107590001] := by
      have step : ∀ a b : Nat, a.Prime → q ∣ a * b → q = a ∨ q ∣ b := fun a b ha h =>
        (hq.dvd_mul.mp h).imp (fun h => (Nat.prime_dvd_prime_iff_eq hq ha).mp h) id
      have hall := hp
      simp only [List.forall_mem_cons] at hall
      obtain ⟨p1, p2, p3, p4, p5, p6, p7, p8, p9, p10, -⟩ := hall
      simp only [List.mem_cons, List.not_mem_nil, or_false]
      rcases hq.dvd_mul.mp hd with h | h
      · exact .inl ((Nat.prime_dvd_prime_iff_eq hq p1).mp (hq.dvd_of_dvd_pow h))
      rcases hq.dvd_mul.mp h with h | h
      · exact .inr (.inl ((Nat.prime_dvd_prime_iff_eq hq p2).mp (hq.dvd_of_dvd_pow h)))
      rcases step _ _ p3 h with h | h
      · simp [h]
      rcases step _ _ p4 h with h | h
      · simp [h]
      rcases step _ _ p5 h with h | h
      · simp [h]
      rcases step _ _ p6 h with h | h
      · simp [h]
      rcases step _ _ p7 h with h | h
      · simp [h]
      rcases step _ _ p8 h with h | h
      · simp [h]
      rcases step _ _ p9 h with h | h
      · simp [h]
      · simp [(Nat.prime_dvd_prime_iff_eq hq p10).mp h]
    have chk : ∀ q ∈ [2, 7, 11, 1627, 2657, 4423, 41201, 96557, 7240687, 107590001],
        powModFuel cofactorA 128 3 ((cofactorA - 1) / q) ≠ 1 ∧ powModFuel cofactorA 128 3 ((cofactorA - 1) / q) < cofactorA := by
      decide +kernel
    have hlt : (cofactorA - 1) / q < 2 ^ 128 := lt_of_le_of_lt (Nat.div_le_self _ _) (by decide +kernel)
    obtain ⟨hne, hl⟩ := chk q hm
    rw [cast, ← e _ hlt]
    intro h
    apply hne
    have h' : ((powModFuel cofactorA 128 3 ((cofactorA - 1) / q) : Nat) : ZMod cofactorA) = ((1 : Nat) : ZMod cofactorA) := by
      simpa using h
    rw [ZMod.natCast_eq_natCast_iff'] at h'
    rwa [Nat.mod_eq_of_lt hl, Nat.mod_eq_of_lt (by decide +kernel)] at h'

theorem cofactorB_prime : cofactorB.Prime :=
  prime_of_large_factor (a := 2) (k := 256) cofactorA_prime (by decide +kernel) (by decide +kernel) (by decide +kernel)
    (by decide +kernel) (by decide +kernel) (by decide +kernel)

/-- `p` is prime (10_state.md R36). -/
theorem P_prime : P.Prime :=
  prime_of_large_factor (a := 2) (k := 256) cofactorB_prime (by decide +kernel) (by decide +kernel) (by decide +kernel)
    (by decide +kernel) (by decide +kernel) (by decide +kernel)
/-- `x³ + 7 = 0` has no root modulo `p`, so no curve point has `y = 0` (45_point_codec.md R200). -/
theorem cube_add_seven_ne_zero (x : ZMod P) : x ^ 3 + 7 ≠ 0 := by
  have : Fact P.Prime := ⟨P_prime⟩
  intro h
  have h7 : x ^ 3 = -7 := by linear_combination h
  have hx : x ≠ 0 := by
    rintro rfl
    have : (7 : ZMod P) = ((7 : Nat) : ZMod P) := by simp
    rw [zero_pow (by norm_num), zero_add, this, ZMod.natCast_eq_zero_iff] at h
    exact absurd h (by decide)
  have h1 : x ^ (P - 1) = 1 := ZMod.pow_card_sub_one_eq_one hx
  have h2 : (-7 : ZMod P) ^ ((P - 1) / 3) = 1 := by
    rw [← h7, ← pow_mul, show 3 * ((P - 1) / 3) = P - 1 by decide +kernel, h1]
  have h3 : ((P - 7 : Nat) : ZMod P) = -7 := by
    rw [Nat.cast_sub (by decide)]; simp
  rw [← h3] at h2
  have h4 : (((P - 7) ^ ((P - 1) / 3) % P : Nat) : ZMod P) = ((1 : Nat) : ZMod P) := by
    rw [ZMod.natCast_mod]; push_cast; simpa using h2
  rw [ZMod.natCast_eq_natCast_iff', Nat.mod_mod, ← powModFuel_eq P 256 _ _ (by decide +kernel)] at h4
  exact absurd h4 (by decide +kernel)

end Sys2Proof.Machine
end

