-- ==== Sys2Proof/Machine/Assembly.lean ====
section
/-! DEFINITION. The assembler's spelling of a command (30_encoding.md R78). -/

namespace Sys2Proof.Machine

/-- The decimal digits of an index below 16 (30_encoding.md R78). -/
def indexText (n : Nat) : String :=
  ["0", "1", "2", "3", "4", "5", "6", "7", "8", "9", "10", "11", "12", "13", "14", "15"].getD n ""

/-- `e0` to `e15` (30_encoding.md R78). -/
def eName (i : EReg) : String := "e" ++ indexText i
/-- `p0` to `p7` (30_encoding.md R78). -/
def pName (i : PReg) : String := "p" ++ indexText i
/-- `b0` to `b3` (30_encoding.md R78). -/
def bName (i : BReg) : String := "b" ++ indexText i

/-- A mnemonic and its operands, separated by commas (30_encoding.md R78). -/
def asmLine (mnemonic : String) : List String → String
  | [] => mnemonic
  | x :: xs => xs.foldl (fun line y => line ++ ", " ++ y) (mnemonic ++ " " ++ x)

/-- One line of assembly: the mnemonic in capitals, destination first, unused fields omitted (30_encoding.md R78). -/
def assemblyText : Instr → String
  | .gtinit => asmLine "GTINIT" []
  | .fzero ed => asmLine "FZERO" [eName ed]
  | .fone ed => asmLine "FONE" [eName ed]
  | .fset ed ea => asmLine "FSET" [eName ed, eName ea]
  | .fsel ed ea eb => asmLine "FSEL" [eName ed, eName ea, eName eb]
  | .feq ea eb => asmLine "FEQ" [eName ea, eName eb]
  | .fisz ea => asmLine "FISZ" [eName ea]
  | .fadd ed ea eb => asmLine "FADD" [eName ed, eName ea, eName eb]
  | .fsub ed ea eb => asmLine "FSUB" [eName ed, eName ea, eName eb]
  | .fmul ed ea eb => asmLine "FMUL" [eName ed, eName ea, eName eb]
  | .fsqr ed ea => asmLine "FSQR" [eName ed, eName ea]
  | .finv ed ea => asmLine "FINV" [eName ed, eName ea]
  | .fsqrt ed ea => asmLine "FSQRT" [eName ed, eName ea]
  | .fldb ed bs => asmLine "FLDB" [eName ed, bName bs]
  | .fstb bd ea => asmLine "FSTB" [bName bd, eName ea]
  | .pident pd => asmLine "PIDENT" [pName pd]
  | .pgen pd => asmLine "PGEN" [pName pd]
  | .pset pd pa => asmLine "PSET" [pName pd, pName pa]
  | .psel pd pa pb => asmLine "PSEL" [pName pd, pName pa, pName pb]
  | .padd pd pa pb => asmLine "PADD" [pName pd, pName pa, pName pb]
  | .psub pd pa pb => asmLine "PSUB" [pName pd, pName pa, pName pb]
  | .pdbl pd pa => asmLine "PDBL" [pName pd, pName pa]
  | .pldb pd bs => asmLine "PLDB" [pName pd, bName bs]
  | .pstb bd pa => asmLine "PSTB" [bName bd, pName pa]
  | .pstbx bd pa => asmLine "PSTBX" [bName bd, pName pa]
  | .pstbc bd pa => asmLine "PSTBC" [bName bd, pName pa]
  | .psmul pd pa bs => asmLine "PSMUL" [pName pd, pName pa, bName bs]
  | .pbmul pd bs => asmLine "PBMUL" [pName pd, bName bs]

end Sys2Proof.Machine
end

