-- ==== Sys2Proof/Machine/Timing.lean ====
section
/-! DEFINITION. What the time of a command may depend on (70_reset_and_hazards.md R248, R251), and the operation
counts (R250). No rule of the functional model depends on this file. -/

namespace Sys2Proof.Machine

/-! ### Latency -/

/-- The public inputs of a command: its word, and what R248 (b), (c), (d) add for it (70_reset_and_hazards.md R248). -/
def commandInputs (i : Instr) (w : Word) (s : State) : PublicInputs :=
  match i with
  | .psmul _ _ bs => ⟨w, some (s.readBuf bs).length, none, none⟩
  | .gtinit => ⟨w, none, some s.gtv, none⟩
  | .pbmul _ bs => ⟨w, none, some s.gtv, if (s.readBuf bs).length = 32 then none else some (s.readBuf bs)⟩
  | .fldb _ bs => ⟨w, none, none, some (s.readBuf bs)⟩
  | .pldb _ bs => ⟨w, none, none, some (s.readBuf bs)⟩
  | .fzero _ | .fone _ | .fset _ _ | .fsel _ _ _ | .feq _ _ | .fisz _ | .fadd _ _ _ | .fsub _ _ _ | .fmul _ _ _
  | .fsqr _ _ | .finv _ _ | .fsqrt _ _ | .fstb _ _ | .pident _ | .pgen _ | .pset _ _ | .psel _ _ _ | .padd _ _ _
  | .psub _ _ _ | .pdbl _ _ | .pstb _ _ | .pstbx _ _ | .pstbc _ _ => ⟨w, none, none, none⟩

/-- The public inputs of a command word; an illegal word has no operand (70_reset_and_hazards.md R248). -/
def publicInputs (w : Word) (s : State) : PublicInputs :=
  match decode w with
  | .ok i => commandInputs i w s
  | .error _ => ⟨w, none, none, none⟩

/-- `LAT(cmd)`: cycles from acceptance to response, at least 1, a function of the public inputs alone
(70_reset_and_hazards.md R248, R251; log entry 8). -/
def latency (w : Word) (s : State) : Nat := Config.latency (publicInputs w s) + 1

/-! ### Operation counts -/

/-- The operations R250 counts in: `M` of `MontMul`, `S` of `MontSqr`, `A` of `FAdd` or `FSub`, and `E` of `FEqual`, `T`
of `TableSelect`, which it counts by themselves (70_reset_and_hazards.md R250). -/
structure OpCount where
  M : Nat
  S : Nat
  A : Nat
  E : Nat := 0
  T : Nat := 0
deriving DecidableEq, Repr

/-- The sum of two counts. -/
def OpCount.plus (a b : OpCount) : OpCount := ⟨a.M + b.M, a.S + b.S, a.A + b.A, a.E + b.E, a.T + b.T⟩

/-- `k` times a count. -/
def OpCount.times (k : Nat) (a : OpCount) : OpCount := ⟨k * a.M, k * a.S, k * a.A, k * a.E, k * a.T⟩

/-- One `MontSqr`. -/
def sqrOp : OpCount := { M := 0, S := 1, A := 0 }
/-- One `FEqual`. -/
def equalOp : OpCount := { M := 0, S := 0, A := 0, E := 1 }
/-- One `TableSelect`. -/
def tableSelectOp : OpCount := { M := 0, S := 0, A := 0, T := 1 }

/-- `FInvert`, read off its chain (70_reset_and_hazards.md R250). -/
def invertCount : OpCount := { M := chainMuls invertChain, S := chainSqrs invertChain, A := 0 }
/-- `SqrtCandidate`, read off its chain (70_reset_and_hazards.md R250). -/
def sqrtCandidateCount : OpCount := { M := chainMuls sqrtChain, S := chainSqrs sqrtChain, A := 0 }
/-- `FSqrt`: the candidate, the verification squaring and one `FEqual` (70_reset_and_hazards.md R250,
42_field_inv_sqrt.md R162, R165 (h)). -/
def sqrtCount : OpCount := (sqrtCandidateCount.plus sqrOp).plus equalOp
/-- `PointAdd`: 12 `M`, 2 `M` by `B3`, 19 `A` (70_reset_and_hazards.md R250). -/
def pointAddCount : OpCount := { M := 12 + 2, S := 0, A := 19 }
/-- `PointDouble`: 6 `M`, 2 `S`, 1 `M` by `B3`, 9 `A` (70_reset_and_hazards.md R250). -/
def pointDoubleCount : OpCount := { M := 6 + 1, S := 2, A := 9 }
/-- `PointSub` (70_reset_and_hazards.md R250). -/
def pointSubCount : OpCount := pointAddCount.plus { M := 0, S := 0, A := 1 }
/-- `Affine` (70_reset_and_hazards.md R250). -/
def affineCount : OpCount := invertCount.plus { M := 2, S := 0, A := 0 }
/-- `BuildWindowTable` (70_reset_and_hazards.md R250). -/
def windowTableCount : OpCount := (pointDoubleCount.times 7).plus (pointAddCount.times 7)
/-- `ScalarMult` of a scalar of `L` bytes; of the empty scalar the table alone (46_scalar_mult.md R210,
70_reset_and_hazards.md R250). -/
def scalarMultCount (L : Nat) : OpCount :=
  ((windowTableCount.plus (pointDoubleCount.times (4 * (2 * L - 1)))).plus (pointAddCount.times (2 * L))).plus
    (tableSelectOp.times (2 * L))
/-- `ScalarBaseMult`: no doublings (70_reset_and_hazards.md R250). -/
def scalarBaseMultCount : OpCount := (pointAddCount.times 64).plus (tableSelectOp.times 64)
/-- `BuildGeneratorTable` (70_reset_and_hazards.md R250). -/
def generatorTableCount : OpCount := (pointAddCount.times 896).plus (pointDoubleCount.times 256)

/-- Limb multiplications: by the limbs of the second operand, by the limbs of `p`, and by `PINV`
(70_reset_and_hazards.md R250, 40_field_primitives.md R106). -/
structure LimbMulCount where
  operand : Nat
  modulus : Nat
  pinv    : Nat
deriving DecidableEq, Repr

/-- `k` times a count of limb multiplications. -/
def LimbMulCount.times (k : Nat) (a : LimbMulCount) : LimbMulCount := ⟨k * a.operand, k * a.modulus, k * a.pinv⟩

/-- One iteration of `MontMul`: 4 + 4 limb multiplications, and one by `PINV` (70_reset_and_hazards.md R250). -/
def montStepCount : LimbMulCount := ⟨4, 4, 1⟩
/-- `MontMul`: 4 iterations, 16 + 16 limb multiplications and 4 by `PINV` (70_reset_and_hazards.md R250). -/
def montMulCount : LimbMulCount := montStepCount.times 4

end Sys2Proof.Machine
end

