-- ==== Sys2Proof/Machine/Port.lean ====
section
/-! DEFINITION. The port-level binding of the transactions (20_memory.md R62) and reset during a command
(70_reset_and_hazards.md R241): one `cycle` is one rising edge of `clk`. It wraps the transaction-level machine, which
does not depend on it. Readings the rule leaves open: log entries 11 and 14. -/

namespace Sys2Proof.Machine

/-- The inputs sampled in one cycle (20_memory.md R62). -/
structure PortIn where
  rst      : Bool
  cmdValid : Bool
  cmd      : Word
  bufSel   : BReg
  bufAddr  : BitVec 7
  bufWe    : Bool
  bufWdata : Byte
  bufLenWe : Bool
  bufLenIn : BitVec 7
deriving DecidableEq, Repr

/-- The outputs of one cycle; `none` where the rule calls the signal not meaningful (20_memory.md R62). -/
structure PortOut where
  cmdReady : Bool
  rspValid : Bool
  rspErr   : Option (BitVec 4)
  rspFlag  : Option Bool
  status   : Word
  bufRdata : Option Byte
  bufLen   : Option (BitVec 7)
deriving DecidableEq, Repr

/-- The command that is executing, and in how many cycles it responds (20_memory.md R62 (a), (b)). -/
structure Running where
  word : Word
  left : Nat
deriving DecidableEq, Repr

/-- A byte written by `buf_we` and not committed (20_memory.md R62 (c)). -/
structure StagedByte where
  buf  : BReg
  off  : Nat
  byte : Byte
deriving DecidableEq, Repr

/-- The block behind its ports: the transaction-level state, the command that is executing, and the staging bytes,
newest first (20_memory.md R62). -/
structure PortState where
  core    : State
  running : Option Running
  staged  : List StagedByte
deriving DecidableEq, Repr

/-- The ports right after reset (70_reset_and_hazards.md R240, R241). -/
def PortState.reset : PortState := ⟨State.reset, none, []⟩

/-- The state a transaction leaves; every transaction leaves one (20_memory.md R58, 60_exceptions.md R225). -/
def afterTransaction (t : Transaction) (s : State) : State :=
  match perform t s with
  | .next u => u
  | .fault _ => s
  | .refused _ => s

/-- `BUSY` as the sequencer drives it (10_state.md R30). -/
def State.setBusy (s : State) (b : Bool) : State := { s with busy := b }

/-- The newest byte staged at `(i, off)`. -/
def stagedAt (st : List StagedByte) (i : BReg) (off : Nat) : Option Byte :=
  (st.find? fun b => b.buf == i && b.off == off).map (·.byte)

/-- The first `n` staged bytes of buffer `i`, if all of them were staged (20_memory.md R62 (c)). -/
def stagedBytes (st : List StagedByte) (i : BReg) : Nat → Option Bytes
  | 0 => some []
  | n + 1 =>
    match stagedBytes st i n, stagedAt st i n with
    | some v, some b => some (v ++ [b])
    | _, _ => none

/-- `buf_we`: stage a byte at an offset `0..64` of the selected buffer; other offsets are dropped (20_memory.md R62). -/
def PortState.stage (p : PortState) (x : PortIn) : PortState :=
  if x.bufWe && decide (x.bufAddr.toNat < BUFMAX) then
    { p with staged := ⟨x.bufSel, x.bufAddr.toNat, x.bufWdata⟩ :: p.staged }
  else p

/-- `buf_len_we`: the `BufWrite` of the staged bytes, all of which must have been staged, at a length `0..65`;
otherwise the write is dropped (20_memory.md R62 (c), 93_implementation_defined.md I11). -/
def PortState.commit (p : PortState) (x : PortIn) : PortState :=
  if x.bufLenWe then
    match stagedBytes p.staged x.bufSel x.bufLenIn.toNat with
    | none => p
    | some v =>
      if h : v.length ≤ BUFMAX then
        { p with core := afterTransaction (.bufWrite x.bufSel ⟨v, h⟩) p.core,
                 staged := p.staged.filter fun b => b.buf != x.bufSel }
      else p
  else p

/-- A command is accepted: the block is busy until it responds, `LAT(cmd)` cycles from now, and what was staged is
dropped (20_memory.md R62 (a) to (c)). -/
def PortState.accept (p : PortState) (w : Word) : PortState :=
  ⟨p.core.setBusy true, some ⟨w, latency w p.core⟩, []⟩

/-- The command that is executing completes: its `Issue` transaction, with `BUSY` fallen (20_memory.md R62). -/
def PortState.complete (p : PortState) (w : Word) : PortState :=
  ⟨afterTransaction (.issue w) (p.core.setBusy false), none, p.staged⟩

/-- The state after one cycle (20_memory.md R62, 70_reset_and_hazards.md R241). -/
def PortState.next (p : PortState) (x : PortIn) : PortState :=
  if x.rst then { PortState.reset with core := afterTransaction .reset p.core }
  else
    match p.running with
    | some r => if r.left ≤ 1 then p.complete r.word else { p with running := some ⟨r.word, r.left - 1⟩ }
    | none => if x.cmdValid then p.accept x.cmd else (p.stage x).commit x

/-- The outputs of an idle block: it accepts, and shows the selected buffer (20_memory.md R62). They are so in the
accepting cycle too, which R62 (a) counts as busy and the `cmd_ready` row as idle: that `cmd_ready` is 1, `BUSY` is 0 and
`buf_rdata` and `buf_len` are meaningful there is a DESIGN CHOICE, log entry 14. -/
def PortState.idleOut (p : PortState) (x : PortIn) : PortOut where
  cmdReady := true
  rspValid := false
  rspErr   := none
  rspFlag  := none
  status   := p.core.statusWord
  bufRdata := Memory.byte? p.core.buf x.bufSel x.bufAddr.toNat
  bufLen   := some (BitVec.ofNat 7 (p.core.readBuf x.bufSel).length)

/-- The outputs of a block that accepts nothing and shows no buffer. -/
def PortState.closedOut (p : PortState) : PortOut where
  cmdReady := false
  rspValid := false
  rspErr   := none
  rspFlag  := none
  status   := p.core.statusWord
  bufRdata := none
  bufLen   := none

/-- The outputs in the cycle in which a command responds, `q` being the state it leaves (20_memory.md R62). -/
def PortState.responseOut (q : PortState) : PortOut :=
  { q.closedOut with rspValid := true, rspErr := some q.core.err, rspFlag := some q.core.flag }

/-- The outputs of one cycle; in the accepting cycle those of an idle block (20_memory.md R62; log entry 14). -/
def PortState.out (p : PortState) (x : PortIn) : PortOut :=
  if x.rst then (p.next x).closedOut
  else
    match p.running with
    | some r => if r.left ≤ 1 then (p.complete r.word).responseOut else p.closedOut
    | none => p.idleOut x

/-- A run of cycles, the inputs of each given (20_memory.md R62). -/
def PortState.run (p : PortState) : List PortIn → PortState
  | [] => p
  | x :: xs => (p.next x).run xs

end Sys2Proof.Machine
end

