-- ==== Sys2Proof/Safety.lean ====
section
/-! DEFINITION. What holds of the block at every transaction boundary: the invariants the spec states (10_state.md
R21, R24, R26, R28, R30, R35), the laws of the field (40_field_primitives.md R118) and what a safe step is (60_exceptions.md R225). -/

namespace Sys2Proof.Machine

/-- `0 ≤ int(a) < p` (10_state.md R21). -/
abbrev Element.Canonical (a : Element) : Prop := a.int < P

/-- The residue an Element represents, in the ring of residues modulo `p`; claims about field arithmetic are written
with it (00_scope.md R11). -/
abbrev Element.res (a : Element) : ZMod P := a.val

/-- Every coordinate obeys R21 (10_state.md R24). -/
abbrev Point.Canonical (Q : Point) : Prop := Q.X.Canonical ∧ Q.Y.Canonical ∧ Q.Z.Canonical

/-- `Y²·Z = X³ + 7·Z³` on residues modulo `p` (10_state.md R24). -/
abbrev Point.OnCurve (Q : Point) : Prop :=
  Q.Y.val ^ 2 * Q.Z.val % P = (Q.X.val ^ 3 + 7 * Q.Z.val ^ 3) % P

/-- The Point invariant of R24: canonical coordinates, and the identity or on the curve (10_state.md R24). -/
abbrev Point.Valid (Q : Point) : Prop := Q.Canonical ∧ (Q.Z = ZERO ∨ Q.OnCurve)

/-- A Point as every command leaves it: canonical, and on the curve in projective form, the identity included, so that
its `X` is 0 (10_state.md R24's derived remark). It implies `Valid`. -/
abbrev Point.Regular (Q : Point) : Prop := Q.Canonical ∧ Q.OnCurve

/-- A Point as 10_state.md R24 says commands leave it: canonical, on the curve in projective form, and never
`(0, 0, 0)`: where `Z` is 0, `Y` is not (and `X` is 0, by the curve relation). It implies `Regular` and `Valid`. -/
abbrev Point.Proper (Q : Point) : Prop := Q.Canonical ∧ Q.OnCurve ∧ (Q.Z = ZERO → Q.Y ≠ ZERO)

/-! ### The laws of the field (40_field_primitives.md R118) -/

/-- What R118 says of two Elements of its domain: what the field functions compute on residues, that each result is
below `p`, and the laws that follow as equalities of limb patterns (40_field_primitives.md R118; its two laws of
`invert` rest on 42_field_inv_sqrt.md R160). -/
structure ElementLaws (a b : Element) : Prop where
  add_val        : (fAdd a b).val = (a.val + b.val) % P
  sub_val        : ((fSub a b).val : Int) = ((a.val : Int) - b.val) % P
  mul_val        : (montMul a b).val = a.val * b.val % P
  add_canonical  : (fAdd a b).Canonical
  sub_canonical  : (fSub a b).Canonical
  mul_canonical  : (montMul a b).Canonical
  add_comm       : fAdd a b = fAdd b a
  mul_comm       : montMul a b = montMul b a
  add_sub        : fAdd a (fSub b a) = b
  mul_one        : montMul a ONE = a
  mul_invert     : a ≠ ZERO → montMul a (fInvert a) = ONE
  square_eq_mul  : montSqr a = montMul a a

/-- The field R118 describes: its laws for all Elements of the domain, `invert(0) = 0`, one Element for each of the `p`
residues, `p` prime, an inverse for every residue but 0, and no zero divisors (40_field_primitives.md R118). -/
structure FieldArithmetic : Prop where
  laws            : ∀ a b : Element, a.Canonical → b.Canonical → ElementLaws a b
  invert_zero     : fInvert ZERO = ZERO
  p_elements      : ∀ v, v < P → ∃ a : Element, a.Canonical ∧ a.val = v ∧ ∀ b : Element, b.Canonical → b.val = v → b = a
  p_prime         : P.Prime
  inverses        : ∀ v, 0 < v → v < P → ∃ u, u < P ∧ v * u % P = 1
  no_zero_divisor : ∀ u v, u < P → v < P → u * v % P = 0 → u = 0 ∨ v = 0

/-! ### Invariants -/

/-- Every Element register holds a canonical Element (10_state.md R21). -/
def State.ElementsCanonical (s : State) : Prop := ∀ i : EReg, (s.readE i).Canonical

/-- Every coordinate of every Point register is canonical (10_state.md R24). -/
def State.PointsCanonical (s : State) : Prop := ∀ i : PReg, (s.readP i).Canonical

/-- Every Point register is canonical and on the curve in projective form (10_state.md R24). -/
def State.PointsRegular (s : State) : Prop := ∀ i : PReg, (s.readP i).Regular

/-- Every Point register is canonical, on the curve and not `(0, 0, 0)` (10_state.md R24). -/
def State.PointsProper (s : State) : Prop := ∀ i : PReg, (s.readP i).Proper

/-- No buffer is longer than `BUFMAX` (10_state.md R26), and the memory is in its one form (log entry 5). -/
def State.MemoryCanonical (s : State) : Prop := Memory.wf s.buf

/-- `ERR` holds a code that is produced: 0 to 6, or 15 (60_exceptions.md R220). -/
def State.ErrProduced (s : State) : Prop := s.err.toNat ≤ 6 ∨ s.err.toNat = 15

/-- `GT` equals `BuildGeneratorTable()` when `GTV = 1` (10_state.md R35). -/
def State.TableValid (s : State) : Prop := s.gtv = true → s.gt = buildGeneratorTable

/-- What every transaction boundary satisfies, but for the curve relation. -/
structure State.Inv (s : State) : Prop where
  elements : s.ElementsCanonical
  points   : s.PointsCanonical
  buffers  : s.MemoryCanonical
  err      : s.ErrProduced
  table    : s.TableValid
  idle     : s.busy = false

/-- What every transaction boundary satisfies, the curve relation included. -/
structure State.CurveInv (s : State) : Prop where
  inv     : s.Inv
  regular : s.PointsRegular

/-- What every transaction boundary satisfies, every Point register representing a point of the curve group. -/
structure State.GroupInv (s : State) : Prop where
  inv    : s.Inv
  proper : s.PointsProper

/-- A step is safe when it leaves a next state: the block never stops (60_exceptions.md R225, 00_scope.md R9). -/
def State.StepsSafely (s : State) : Prop := ∃ t, step s = .next t

end Sys2Proof.Machine
end

