-- ==== Sys2Proof/Certificates/Slice0/Obligations.lean ====
section
/-! DEFINITION. The statements for the provers, and the words they are written in. A value an operand encodes is
spelled here from the spec's own formulas (`bigEndian`, `encoding32`, the numerals of the opcode table), never by the
function of the model that is the claim's subject. -/

namespace Sys2Proof.Claims

open Sys2Proof Sys2Proof.Machine

/-! ### Frames -/

/-- What a command leaves alone: every Element register not listed in `e`, every Point register not listed in `p`,
every byte of memory outside the buffers listed in `b` (a command that stores replaces the whole of the buffer it
names: the bytes stored are those at offsets from 0 of that buffer, 20_memory.md R50), `FLAG` and the generator table
with its valid bit unless the last two arguments say otherwise, and always `BUSY` and the host's side. -/
structure Frame (s t : State) (e : List EReg := []) (p : List PReg := []) (b : List BReg := [])
    (flag : Bool := false) (table : Bool := false) : Prop where
  elements : ∀ i, i ∉ e → t.readE i = s.readE i
  points   : ∀ i, i ∉ p → t.readP i = s.readP i
  bytes    : ∀ i off, i ∉ b → Memory.byte? t.buf i off = Memory.byte? s.buf i off
  flag     : flag = false → t.flag = s.flag
  table    : table = false → t.gtv = s.gtv ∧ t.gt = s.gt
  host     : t.busy = s.busy ∧ t.pending = s.pending ∧ t.reply = s.reply

/-- The command answers error code `code` and changes nothing but `ERR` (60_exceptions.md R223). -/
def OnlyError (i : Instr) (s : State) (code : BitVec 4) : Prop :=
  ∃ t, exec i s = .next t ∧ t = { s with err := code } ∧ Frame s t

/-! ### Words and byte strings, from the spec's formulas -/

/-- The word with these four fields and a `zero` field of 0 (30_encoding.md R71). -/
def kWord (op rd ra rb : Nat) : Word := BitVec.ofNat 32 (op * 2 ^ 24 + rd * 2 ^ 20 + ra * 2 ^ 16 + rb * 2 ^ 12)

/-- `Σ v[k]·256^(len − 1 − k)`: the integer a byte string spells, high byte first (20_memory.md R51, R53). -/
def bigEndian (v : Bytes) : Nat := v.foldl (fun n b => 256 * n + b.toNat) 0

/-- The 32-byte encoding of an integer: byte `k` is `(n div 2^(8·(31 − k))) mod 256` (20_memory.md R51). -/
def encoding32 (n : Nat) : Bytes := (List.range 32).map fun k => BitVec.ofNat 8 (n / 2 ^ (8 * (31 - k)) % 256)

/-- The nibbles of a scalar, high byte first and high nibble first (20_memory.md R53). -/
def nibbles (v : Bytes) : List Nat := v.flatMap fun b => [b.toNat / 16, b.toNat % 16]

/-- Entry `j` of a table of fifteen Points, `T[j]` (10_state.md R34); the default is never met for `j < 15`. -/
def entry (T : Table) (j : Nat) : Point := T.toList.getD j IDENT

/-- `GT[k][j]` (10_state.md R34); the defaults are never met for `k < 64`, `j < 15`. -/
def genTableEntry (gt : GenTable) (k j : Nat) : Point := entry (gt.toList.getD k (Vector.replicate TABLEN IDENT)) j

/-- The `n`-th multiple a table holds, `entries j` being the multiple `j + 1`: the identity for `n = 0` (10_state.md R34,
43_point_primitives.md R174). -/
def multiple (entries : Nat → Point) (n : Nat) : Point := if n = 0 then IDENT else entries (n - 1)

/-! ### The opcode table, transcribed -/

/-- Mnemonic, `match` and `mask` of each row (30_encoding.md R74). -/
def opcodeRows : List (String × Word × Word) :=
  [("GTINIT", 0x01000000, 0xFFFFFFFF), ("FZERO", 0x10000000, 0xFF0FFFFF), ("FONE", 0x11000000, 0xFF0FFFFF),
   ("FSET", 0x12000000, 0xFF00FFFF), ("FSEL", 0x13000000, 0xFF000FFF), ("FEQ", 0x14000000, 0xFFF00FFF),
   ("FISZ", 0x15000000, 0xFFF0FFFF), ("FADD", 0x16000000, 0xFF000FFF), ("FSUB", 0x17000000, 0xFF000FFF)] ++
  [("FMUL", 0x18000000, 0xFF000FFF), ("FSQR", 0x19000000, 0xFF00FFFF), ("FINV", 0x1A000000, 0xFF00FFFF),
   ("FSQRT", 0x1B000000, 0xFF00FFFF), ("FLDB", 0x1C000000, 0xFF0CFFFF), ("FSTB", 0x1D000000, 0xFFC0FFFF),
   ("PIDENT", 0x20000000, 0xFF8FFFFF), ("PGEN", 0x21000000, 0xFF8FFFFF), ("PSET", 0x22000000, 0xFF88FFFF)] ++
  [("PSEL", 0x23000000, 0xFF888FFF), ("PADD", 0x24000000, 0xFF888FFF), ("PSUB", 0x25000000, 0xFF888FFF),
   ("PDBL", 0x26000000, 0xFF88FFFF), ("PLDB", 0x28000000, 0xFF8CFFFF), ("PSTB", 0x29000000, 0xFFC8FFFF),
   ("PSTBX", 0x2A000000, 0xFFC8FFFF), ("PSTBC", 0x2B000000, 0xFFC8FFFF), ("PSMUL", 0x2C000000, 0xFF88CFFF),
   ("PBMUL", 0x2D000000, 0xFF8CFFFF)]

/-- The mnemonic of a command (30_encoding.md R74). -/
def mnemonic : Instr → String
  | .gtinit => "GTINIT" | .fzero _ => "FZERO" | .fone _ => "FONE" | .fset _ _ => "FSET" | .fsel _ _ _ => "FSEL"
  | .feq _ _ => "FEQ" | .fisz _ => "FISZ" | .fadd _ _ _ => "FADD" | .fsub _ _ _ => "FSUB" | .fmul _ _ _ => "FMUL"
  | .fsqr _ _ => "FSQR" | .finv _ _ => "FINV" | .fsqrt _ _ => "FSQRT" | .fldb _ _ => "FLDB" | .fstb _ _ => "FSTB"
  | .pident _ => "PIDENT" | .pgen _ => "PGEN" | .pset _ _ => "PSET" | .psel _ _ _ => "PSEL" | .padd _ _ _ => "PADD"
  | .psub _ _ _ => "PSUB" | .pdbl _ _ => "PDBL" | .pldb _ _ => "PLDB" | .pstb _ _ => "PSTB" | .pstbx _ _ => "PSTBX"
  | .pstbc _ _ => "PSTBC" | .psmul _ _ _ => "PSMUL" | .pbmul _ _ => "PBMUL"

/-- The operand indices of a command that stand in `rd`, `ra`, `rb`; `none` for a field it does not use
(30_encoding.md R74, R78). -/
def operands : Instr → Option Nat × Option Nat × Option Nat
  | .gtinit => (none, none, none)
  | .fzero d => (some d, none, none)
  | .fone d => (some d, none, none)
  | .fset d a => (some d, some a, none)
  | .fsel d a b => (some d, some a, some b)
  | .feq a b => (none, some a, some b)
  | .fisz a => (none, some a, none)
  | .fadd d a b => (some d, some a, some b)
  | .fsub d a b => (some d, some a, some b)
  | .fmul d a b => (some d, some a, some b)
  | .fsqr d a => (some d, some a, none)
  | .finv d a => (some d, some a, none)
  | .fsqrt d a => (some d, some a, none)
  | .fldb d b => (some d, some b, none)
  | .fstb d a => (some d, some a, none)
  | .pident d => (some d, none, none)
  | .pgen d => (some d, none, none)
  | .pset d a => (some d, some a, none)
  | .psel d a b => (some d, some a, some b)
  | .padd d a b => (some d, some a, some b)
  | .psub d a b => (some d, some a, some b)
  | .pdbl d a => (some d, some a, none)
  | .pldb d b => (some d, some b, none)
  | .pstb d a => (some d, some a, none)
  | .pstbx d a => (some d, some a, none)
  | .pstbc d a => (some d, some a, none)
  | .psmul d a b => (some d, some a, some b)
  | .pbmul d b => (some d, some b, none)

/-- The destination is none of the sources; a command whose destination is a register of another kind than its sources,
or no register, always is (20_memory.md R59). -/
def DestinationIsNoSource : Instr → Prop
  | .fset d a | .fsqr d a | .finv d a | .fsqrt d a => d ≠ a
  | .fsel d a b | .fadd d a b | .fsub d a b | .fmul d a b => d ≠ a ∧ d ≠ b
  | .pset d a | .pdbl d a | .psmul d a _ => d ≠ a
  | .psel d a b | .padd d a b | .psub d a b => d ≠ a ∧ d ≠ b
  | .gtinit | .fzero _ | .fone _ | .feq _ _ | .fisz _ | .fldb _ _ | .fstb _ _ | .pident _ | .pgen _ | .pldb _ _
  | .pstb _ _ | .pstbx _ _ | .pstbc _ _ | .pbmul _ _ => True

/-! ### The curve group, from Mathlib -/

/-- The curve `y² = x³ + 7` over the residues modulo `p` (00_scope.md R1, 10_state.md R38). -/
def curve : WeierstrassCurve.Affine (ZMod P) := ⟨0, 0, 0, 0, 7⟩

/-- `k = g + h` in the chord-and-tangent group of the curve (43_point_primitives.md R178). -/
def IsSum (g h k : curve.Point) : Prop :=
  have : Fact P.Prime := ⟨P_prime⟩
  k = g + h

/-- `k = g − h` in the group of the curve. -/
def IsDifference (g h k : curve.Point) : Prop :=
  have : Fact P.Prime := ⟨P_prime⟩
  k = g - h

/-- `k = n·g` in the group of the curve. -/
def IsMultiple (n : Nat) (g k : curve.Point) : Prop :=
  have : Fact P.Prime := ⟨P_prime⟩
  k = n • g

/-- `[Q] = g`: the Point represents this element of the group, the identity when `Z = 0` and otherwise the pair
`(X/Z, Y/Z)` (43_point_primitives.md R178, R179). -/
def Represents (Q : Point) : curve.Point → Prop
  | .zero => Q.Z = ZERO
  | .some x y _ => Q.Z ≠ ZERO ∧ Q.X.res = x * Q.Z.res ∧ Q.Y.res = y * Q.Z.res

/-- Two Points are the same point, `≈` (43_point_primitives.md R179). -/
def SamePoint (A B : Point) : Prop :=
  (A.Z = ZERO ∧ B.Z = ZERO) ∨
  (A.Z ≠ ZERO ∧ B.Z ≠ ZERO ∧ A.X.res * B.Z.res = B.X.res * A.Z.res ∧ A.Y.res * B.Z.res = B.Y.res * A.Z.res)

/-! ### Runs -/

/-- The host's transactions performed one after another, each on the state the one before left (20_memory.md R60). -/
def performAll : List Transaction → State → Result
  | [], s => .next s
  | t :: ts, s =>
    match perform t s with
    | .next u => performAll ts u
    | .fault r => .fault r
    | .refused r => .refused r

/-- A cycle in which nothing is asked of the block. -/
def quiet : PortIn where
  rst := false
  cmdValid := false
  cmd := 0
  bufSel := 0
  bufAddr := 0
  bufWe := false
  bufWdata := 0
  bufLenWe := false
  bufLenIn := 0

/-- The cycles that stage a byte string in buffer `i`, one byte a cycle from offset `off` on (20_memory.md R62 (c)). -/
def stagingCycles (i : BReg) : Nat → Bytes → List PortIn
  | _, [] => []
  | off, b :: v =>
    { quiet with bufSel := i, bufAddr := BitVec.ofNat 7 off, bufWe := true, bufWdata := b } :: stagingCycles i (off + 1) v

/-- The cycle that commits a length (20_memory.md R62 (c)). -/
def commitCycle (i : BReg) (n : Nat) : PortIn := { quiet with bufSel := i, bufLenWe := true, bufLenIn := BitVec.ofNat 7 n }

end Sys2Proof.Claims

open Sys2Proof Sys2Proof.Machine Sys2Proof.Claims

/-! ## Encoding and decoding -/

/-- Words the spec writes out decode to the commands it says they are (30_encoding.md R78; 41_field_commands.md R130,
R133, R134, R140; 42_field_inv_sqrt.md R161; 44_point_commands.md R193; 45_point_codec.md R203; 46_scalar_mult.md R212,
R214). -/
def Obligations.SpecWordsDecode : Prop :=
  decode 0x18201000 = .ok (.fmul 2 0 1) ∧ decode 0x2C102000 = .ok (.psmul 1 0 2) ∧ decode 0x1D3F0000 = .ok (.fstb 3 15) ∧
  decode 0x10300000 = .ok (.fzero 3) ∧ decode 0x13201000 = .ok (.fsel 2 0 1) ∧ decode 0x14001000 = .ok (.feq 0 1) ∧
  decode 0x1C400000 = .ok (.fldb 4 0) ∧ decode 0x1A100000 = .ok (.finv 1 0) ∧ decode 0x23201000 = .ok (.psel 2 0 1) ∧
  decode 0x2B200000 = .ok (.pstbc 2 0) ∧ decode 0x2D200000 = .ok (.pbmul 2 0) ∧ decode 0x01000000 = .ok .gtinit

/-- Decoding the word that spells a command gives the command back, every operand included, for all 28 commands and
every operand value; and the fields of every command pass the check of its opcode's shape. -/
def Obligations.DecodeEncode : Prop := ∀ i : Instr, decode (encode i) = .ok i ∧ i.wellFormed = true

/-- Each command has one word: a word that decodes to a command is the word the encoder gives. -/
def Obligations.EncodeDecode : Prop := ∀ (w : Word) (i : Instr), decode w = .ok i → encode i = w

/-- A word spells the command of a row exactly when `(w & mask) = match`; then its operands are the fields `rd`, `ra`,
`rb` of the word, taken unchanged; a word that matches no row is illegal; no word matches two rows
(30_encoding.md R73, R75, over the table of R74). -/
def Obligations.OpcodeTable : Prop :=
  ∀ w : Word,
    (∀ m mtch mask, (m, mtch, mask) ∈ opcodeRows → (w &&& mask = mtch ↔ ∃ i, decode w = .ok i ∧ mnemonic i = m)) ∧
    (∀ i, decode w = .ok i →
      (∀ x ∈ (operands i).1, x = (w.extractLsb' 20 4).toNat) ∧ (∀ x ∈ (operands i).2.1, x = (w.extractLsb' 16 4).toNat) ∧
      (∀ x ∈ (operands i).2.2, x = (w.extractLsb' 12 4).toNat)) ∧
    ((∀ row ∈ opcodeRows, w &&& row.2.2 ≠ row.2.1) ↔ ∃ why, decode w = .error why) ∧
    (∀ r ∈ opcodeRows, ∀ r' ∈ opcodeRows, w &&& r.2.2 = r.2.1 → w &&& r'.2.2 = r'.2.1 → r = r')

/-- `Issue(w)` of an illegal word: `ERR` 15, nothing else changes, the response is `(15, FLAG)`; a word is illegal when
its opcode is not one of the 28, or its `zero` field is not 0, or an index field is out of range for its opcode; the
all-zero and the all-one word are illegal; and the block goes on: whatever the host issues next is performed
(30_encoding.md R76). -/
def Obligations.IllegalWord : Prop :=
  (∀ (w : Word) (why : Illegal) (s : State), decode w = .error why →
    perform (.issue w) s = .next { s with err := 15, reply := .response 15 s.flag } ∧
    ∀ t, ∃ u, perform t { s with err := 15, reply := .response 15 s.flag } = .next u) ∧
  (∀ w : Word, (∃ why, decode w = .error why) ↔
    ((w.extractLsb' 24 8).toNat ∉
      [0x01, 0x10, 0x11, 0x12, 0x13, 0x14, 0x15, 0x16, 0x17, 0x18, 0x19, 0x1A, 0x1B, 0x1C, 0x1D, 0x20, 0x21, 0x22, 0x23, 0x24,
       0x25, 0x26, 0x28, 0x29, 0x2A, 0x2B, 0x2C, 0x2D] ∨
     w.extractLsb' 0 12 ≠ 0 ∨
     ∃ sh, shapeOf (w.extractLsb' 24 8) = some sh ∧
      ∃ k x, (k, x) ∈ [(sh.rd, w.extractLsb' 20 4), (sh.ra, w.extractLsb' 16 4), (sh.rb, w.extractLsb' 12 4)] ∧
        ((k = .point ∧ 7 < x.toNat) ∨ (k = .buffer ∧ 3 < x.toNat) ∨ (k = .unused ∧ x.toNat ≠ 0)))) ∧
  (∃ why, decode 0x00000000 = .error why) ∧ (∃ why, decode 0xFFFFFFFF = .error why)

/-! ## Steps and transactions -/

/-- A step whose next transaction is `Issue(w)` runs the command `w` decodes to, on the state with that transaction no
longer pending, and then returns the response `(ERR, FLAG)`; `withFetchWord` puts exactly such a word there. The list of
pending transactions and `withFetchWord` are the model's (log entry 1), and that `withFetchWord` and `decodeTableWord`
take the table's number as the command word is deduced (log entry 3). -/
def Obligations.StepRunsDecoded : Prop :=
  (∀ (s t : State) (w : Word) (rest : List Transaction) (i : Instr), s.pending = .issue w :: rest → decode w = .ok i →
    exec i { s with pending := rest } = .next t → step s = .next { t with reply := .response t.err t.flag }) ∧
  (∀ (s t : State) (w : Word) (i : Instr), decode w = .ok i → exec i s = .next t →
    step (s.withFetchWord 32 w.toNat) = .next { t with reply := .response t.err t.flag } ∧
    decodeTableWord 32 w.toNat = some i)

/-- The five host transactions (20_memory.md R56): `Reset` gives all state its reset value, the contents of `GT`, which
have none, being left open here (10_state.md R39); `BufWrite` replaces one buffer, content and length, and nothing else;
`BufRead` and `StatusRead` change nothing and return the buffer and the `STATUS` word; `Issue` returns the new `ERR` and
the new `FLAG` of the command, or of the illegal word. The host's own side (what it still means to issue, which `Reset`
keeps, and what was last returned) is the model's, log entry 1. -/
def Obligations.HostTransactions : Prop :=
  ∀ s : State,
    (∃ g, perform .reset s = .next { State.reset with pending := s.pending, gt := g }) ∧
    (∀ i v, ∃ t, perform (.bufWrite i v) s = .next t ∧ t.readBuf i = v.bytes ∧ t.reply = .nothing ∧ t.e = s.e ∧ t.pt = s.pt ∧
      t.flag = s.flag ∧ t.err = s.err ∧ t.gtv = s.gtv ∧ t.gt = s.gt ∧ t.busy = s.busy ∧ t.pending = s.pending ∧
      ∀ j off, j ≠ i → Memory.byte? t.buf j off = Memory.byte? s.buf j off) ∧
    (∀ i, perform (.bufRead i) s = .next { s with reply := .bytes (s.readBuf i) }) ∧
    perform .statusRead s = .next { s with reply := .status s.statusWord } ∧
    (∀ w i t, decode w = .ok i → exec i s = .next t →
      perform (.issue w) s = .next { t with reply := .response t.err t.flag }) ∧
    (∀ w why, decode w = .error why →
      perform (.issue w) s = .next { s with err := 15, reply := .response 15 s.flag })

/-- Transactions happen in the order the host issued them, each on the state all those before it left: running as many
steps as there are transactions pending performs them one after another, and those behind them stay pending
(20_memory.md R60). -/
def Obligations.IssueOrder : Prop :=
  ∀ (ts rest : List Transaction) (s : State), s.pending = ts ++ rest →
    core.run ts.length s = performAll ts { s with pending := rest }

/-- Every step leaves a next state: no command and no transaction hangs, faults or is refused (00_scope.md R9,
60_exceptions.md R225); with nothing pending the block holds its state, the model's reading of an idle block (log
entry 2). -/
def Obligations.EveryStepLeavesAState : Prop :=
  (∀ s : State, s.StepsSafely) ∧ (∀ s : State, s.pending = [] → step s = .next s)

/-! ## Reset and invariants -/

/-- The state after reset is the reset value of every piece of state the spec gives one (`GT` is unspecified and not
spoken of), and it satisfies the invariants (10_state.md R39, R21, R24). -/
def Obligations.ResetState : Prop :=
  (∀ i, State.reset.readE i = ⟨0, 0, 0, 0⟩) ∧ (∀ i, State.reset.readP i = ⟨ZERO, ONE, ZERO⟩) ∧
  (∀ i, State.reset.readBuf i = []) ∧ State.reset.flag = false ∧ State.reset.err = 0 ∧ State.reset.gtv = false ∧
  State.reset.busy = false ∧ State.reset.GroupInv

/-- Every step keeps the invariant: Elements and coordinates of Points below `p`, buffers at most 65 bytes and the memory
in its canonical form, `ERR` a
code that is produced, `GT` the constant table whenever `GTV` is 1, the block idle; and reset satisfies it. Its first
part is 10_state.md R21. -/
def Obligations.StepKeepsInv : Prop :=
  State.reset.Inv ∧ ∀ s t : State, s.Inv → step s = .next t → t.Inv

/-- Every step keeps the curve relation `Y²·Z = X³ + 7·Z³` of every Point register. -/
def Obligations.StepKeepsCurve : Prop := ∀ s t : State, s.CurveInv → step s = .next t → t.CurveInv

/-- The Point invariant (10_state.md R24): every step keeps every Point register canonical, on the curve and not
`(0, 0, 0)`; so each has `Z = 0` or is on the curve, and one with `Z = 0` has `X = 0` and `Y ≠ 0`. -/
def Obligations.StepKeepsPoints : Prop :=
  (∀ s t : State, s.GroupInv → step s = .next t → t.GroupInv) ∧
  (∀ s : State, s.GroupInv → ∀ i, (s.readP i).Valid ∧ ((s.readP i).Z = ZERO → (s.readP i).X = ZERO ∧ (s.readP i).Y ≠ ZERO))

/-! ## Field commands -/

/-- `FZERO`, `FONE`, `FSET`, `FSEL`: encoding, result, frame, no error, for every state and every operand
(41_field_commands.md R130 to R133). -/
def Obligations.ElementConstantsAndCopies : Prop :=
  ∀ (s : State) (d a b : EReg),
    (decode (kWord 0x10 d 0 0) = .ok (.fzero d) ∧
      ∃ t, exec (.fzero d) s = .next t ∧ t.readE d = ⟨0, 0, 0, 0⟩ ∧ t.err = 0 ∧ Frame s t (e := [d])) ∧
    (decode (kWord 0x11 d 0 0) = .ok (.fone d) ∧
      ∃ t, exec (.fone d) s = .next t ∧ t.readE d = ⟨0x00000001000003D1, 0, 0, 0⟩ ∧ t.readE d = mont 1 ∧ t.err = 0 ∧
        Frame s t (e := [d])) ∧
    (decode (kWord 0x12 d a 0) = .ok (.fset d a) ∧
      ∃ t, exec (.fset d a) s = .next t ∧ t.readE d = s.readE a ∧ t.err = 0 ∧ Frame s t (e := [d])) ∧
    (decode (kWord 0x13 d a b) = .ok (.fsel d a b) ∧
      ∃ t, exec (.fsel d a b) s = .next t ∧ t.readE d = (if s.flag = true then s.readE a else s.readE b) ∧ t.err = 0 ∧
        Frame s t (e := [d]))

/-- `FEQ` sets `FLAG` to 1 exactly when the two registers represent the same residue, equivalently have equal limbs;
`FISZ` exactly when the register is `ZERO`; neither writes a register (41_field_commands.md R134, R135). -/
def Obligations.ElementPredicates : Prop :=
  ∀ (s : State) (a b : EReg), (s.readE a).Canonical → (s.readE b).Canonical →
    (decode (kWord 0x14 0 a b) = .ok (.feq a b) ∧
      ∃ t, exec (.feq a b) s = .next t ∧ (t.flag = true ↔ (s.readE a).val = (s.readE b).val) ∧
        (t.flag = true ↔ s.readE a = s.readE b) ∧ t.err = 0 ∧ Frame s t (flag := true)) ∧
    (decode (kWord 0x15 0 a 0) = .ok (.fisz a) ∧
      ∃ t, exec (.fisz a) s = .next t ∧ (t.flag = true ↔ s.readE a = ZERO) ∧ t.err = 0 ∧ Frame s t (flag := true))

/-- `FADD`: `int(e[rd]) = (A + B) mod p`, hence `val(e[rd]) = val(e[ra]) + val(e[rb]) mod p`; `rd`, `ra`, `rb` may
coincide (41_field_commands.md R136, 40_field_primitives.md R104). -/
def Obligations.FaddResult : Prop :=
  ∀ (s : State) (d a b : EReg), (s.readE a).Canonical → (s.readE b).Canonical →
    decode (kWord 0x16 d a b) = .ok (.fadd d a b) ∧
    ∃ t, exec (.fadd d a b) s = .next t ∧ (t.readE d).int = ((s.readE a).int + (s.readE b).int) % P ∧
      (t.readE d).val = ((s.readE a).val + (s.readE b).val) % P ∧ t.err = 0 ∧ Frame s t (e := [d])

/-- `FSUB`: `int(e[rd])` is `A − B` if `A ≥ B`, else `A − B + p`, hence `val(e[rd]) = val(e[ra]) − val(e[rb]) mod p`; a
minuend of `ZERO` gives the negation, the pseudo-command `FNEGZ` (41_field_commands.md R137, 40_field_primitives.md
R105). -/
def Obligations.FsubResult : Prop :=
  ∀ (s : State) (d a b : EReg), (s.readE a).Canonical → (s.readE b).Canonical →
    decode (kWord 0x17 d a b) = .ok (.fsub d a b) ∧
    ∃ t, exec (.fsub d a b) s = .next t ∧
      ((t.readE d).int : Int) =
        (if (s.readE b).int ≤ (s.readE a).int then ((s.readE a).int : Int) - (s.readE b).int
         else ((s.readE a).int : Int) - (s.readE b).int + P) ∧
      ((t.readE d).val : Int) = (((s.readE a).val : Int) - (s.readE b).val) % P ∧
      (s.readE a = ZERO → (t.readE d).int = (if s.readE b = ZERO then 0 else P - (s.readE b).int)) ∧
      t.err = 0 ∧ Frame s t (e := [d])

/-- `FMUL`: `int(e[rd]) = A·B·R⁻¹ mod p` with `R⁻¹` the inverse of `2^256` modulo `p`, hence
`val(e[rd]) = val(e[ra])·val(e[rb]) mod p` (41_field_commands.md R138, 40_field_primitives.md R106). -/
def Obligations.FmulResult : Prop :=
  2 ^ 256 * RINV % P = 1 ∧
  ∀ (s : State) (d a b : EReg), (s.readE a).Canonical → (s.readE b).Canonical →
    decode (kWord 0x18 d a b) = .ok (.fmul d a b) ∧
    ∃ t, exec (.fmul d a b) s = .next t ∧ (t.readE d).int = (s.readE a).int * (s.readE b).int * RINV % P ∧
      (t.readE d).val = (s.readE a).val * (s.readE b).val % P ∧ t.err = 0 ∧ Frame s t (e := [d])

/-- `FSQR ed, ea` and `FMUL ed, ea, ea` leave identical state, and the result represents the square
(41_field_commands.md R139). -/
def Obligations.FsqrResult : Prop :=
  ∀ (s : State) (d a : EReg), (s.readE a).Canonical →
    decode (kWord 0x19 d a 0) = .ok (.fsqr d a) ∧ exec (.fsqr d a) s = exec (.fmul d a a) s ∧
    ∃ t, exec (.fsqr d a) s = .next t ∧ (t.readE d).Canonical ∧ (t.readE d).val = (s.readE a).val ^ 2 % P ∧ t.err = 0 ∧
      Frame s t (e := [d])

/-- The arithmetic of the field layer as functions on Elements: what addition, subtraction and multiplication compute on
residues, results below `p`, the laws as equalities of limb patterns, and that the residues are a field of `p` elements
(40_field_primitives.md R118). -/
def Obligations.FieldArithmeticLaws : Prop := FieldArithmetic

/-- The field laws as equal states after commands: addition and multiplication commute; `FSUB` of `b` and `a`, then
`FADD` of `a`, leaves what `FSET` of `b` leaves; `FMUL` by `ONE` leaves what `FSET` of the other operand leaves; `FSUB` of
a register from itself leaves what `FZERO` leaves; the pseudo-command `FDBL` leaves what `FMUL` by the Element of 2
leaves, and `FNEGZ` of `ZERO`, twice, what `FSET` leaves (40_field_primitives.md R118, 30_encoding.md R79). -/
def Obligations.FieldLaws : Prop :=
  ∀ (s : State) (d a b : EReg), (s.readE a).Canonical → (s.readE b).Canonical →
    exec (.fadd d a b) s = exec (.fadd d b a) s ∧ exec (.fmul d a b) s = exec (.fmul d b a) s ∧
    (d ≠ a → ∃ t, exec (.fsub d b a) s = .next t ∧ exec (.fadd d a d) t = exec (.fset d b) s) ∧
    (s.readE b = ONE → exec (.fmul d a b) s = exec (.fset d a) s) ∧
    exec (.fsub d a a) s = exec (.fzero d) s ∧
    ((s.readE b).val = 2 → exec (Instr.fdbl d a) s = exec (.fmul d a b) s) ∧
    (s.readE b = ZERO → d ≠ b →
      ∃ t, exec (Instr.fnegz d b a) s = .next t ∧ exec (Instr.fnegz d b d) t = exec (.fset d a) s)

/-- `FINV`: the result represents `val(e[ra])^(p − 2) mod p`, and is `ZERO` for `ZERO`; `FLAG` is untouched and no error
is reported (42_field_inv_sqrt.md R160, R161). -/
def Obligations.FinvResult : Prop :=
  ∀ (s : State) (d a : EReg), (s.readE a).Canonical →
    decode (kWord 0x1A d a 0) = .ok (.finv d a) ∧
    ∃ t, exec (.finv d a) s = .next t ∧ (t.readE d).Canonical ∧ (t.readE d).val = (s.readE a).val ^ (P - 2) % P ∧
      (s.readE a = ZERO → t.readE d = ZERO) ∧ t.err = 0 ∧ Frame s t (e := [d])

/-- `FMUL` of an input of `FINV` other than `ZERO` and its output is `ONE`; `FINV` twice gives the input back, `ZERO`
included (42_field_inv_sqrt.md R165 (b), (c)). -/
def Obligations.FinvInverts : Prop :=
  ∀ (s : State) (d a c : EReg), (s.readE a).Canonical → d ≠ a →
    (s.readE a ≠ ZERO →
      ∃ t u, exec (.finv d a) s = .next t ∧ exec (.fmul c a d) t = .next u ∧ u.readE c = ONE) ∧
    (∃ t u, exec (.finv d a) s = .next t ∧ exec (.finv c d) t = .next u ∧ u.readE c = s.readE a)

/-- `FSQRT`: with `c` the Element that represents `val(e[ra])^((p + 1)/4) mod p`, `FLAG` becomes 1 exactly when the
square of `c` is `e[ra]`; then `e[rd]` is `c`, otherwise it keeps its value; never an error
(42_field_inv_sqrt.md R162, R163). -/
def Obligations.FsqrtResult : Prop :=
  ∀ (s : State) (d a : EReg), (s.readE a).Canonical →
    decode (kWord 0x1B d a 0) = .ok (.fsqrt d a) ∧
    ∃ t, exec (.fsqrt d a) s = .next t ∧
      (t.flag = true ↔ ((s.readE a).val ^ ((P + 1) / 4)) ^ 2 % P = (s.readE a).val) ∧
      (t.flag = true → (t.readE d).Canonical ∧ (t.readE d).val = (s.readE a).val ^ ((P + 1) / 4) % P) ∧
      (t.flag = false → t.readE d = s.readE d) ∧ t.err = 0 ∧ Frame s t (e := [d]) (flag := true)

/-- `FSQRT` sets `FLAG` exactly when the operand is a square modulo `p` (0 included), and then writes a square root;
of a square of `y` the root written is `y` or `p − y` (42_field_inv_sqrt.md R162, R165 (d), (e)). -/
def Obligations.FsqrtDecidesSquares : Prop :=
  ∀ (s : State) (d a : EReg), (s.readE a).Canonical →
    ∃ t, exec (.fsqrt d a) s = .next t ∧ (t.flag = true ↔ ∃ y, y < P ∧ y ^ 2 % P = (s.readE a).val) ∧
      (t.flag = true → (t.readE d).val ^ 2 % P = (s.readE a).val) ∧
      (∀ y, y < P → y ^ 2 % P = (s.readE a).val → (t.readE d).val = y ∨ (t.readE d).val = (P - y) % P)

/-- `FLDB`: 32 bytes that spell an integer `V < p`, high byte first, load `mont(V)`; any other length, or `V ≥ p`, is
error 1 with nothing else changed (41_field_commands.md R140, 40_field_primitives.md R113). -/
def Obligations.FldbResult : Prop :=
  ∀ (s : State) (d : EReg) (b : BReg),
    decode (kWord 0x1C d b 0) = .ok (.fldb d b) ∧
    ((s.readBuf b).length = 32 → bigEndian (s.readBuf b) < P →
      ∃ t, exec (.fldb d b) s = .next t ∧ t.readE d = mont (bigEndian (s.readBuf b)) ∧
        (t.readE d).val = bigEndian (s.readBuf b) ∧ t.err = 0 ∧ Frame s t (e := [d])) ∧
    ((s.readBuf b).length ≠ 32 ∨ P ≤ bigEndian (s.readBuf b) → OnlyError (.fldb d b) s 1)

/-- `FSTB`: the buffer is replaced by the 32-byte big-endian encoding of `val(e[ra])`, and every byte of every other
buffer is unchanged (41_field_commands.md R141, 40_field_primitives.md R112). -/
def Obligations.FstbResult : Prop :=
  ∀ (s : State) (d : BReg) (a : EReg),
    decode (kWord 0x1D d a 0) = .ok (.fstb d a) ∧
    ∃ t, exec (.fstb d a) s = .next t ∧ t.readBuf d = encoding32 (s.readE a).val ∧ t.err = 0 ∧ Frame s t (b := [d])

/-- `FSTB` then `FLDB` gives the Element back, limb for limb; `FLDB` that succeeds then `FSTB` gives the same 32 bytes
back (41_field_commands.md R141). -/
def Obligations.ElementRoundTrips : Prop :=
  (∀ (s : State) (c : BReg) (a d : EReg), (s.readE a).Canonical →
    ∃ t u, exec (.fstb c a) s = .next t ∧ exec (.fldb d c) t = .next u ∧ u.err = 0 ∧ u.readE d = s.readE a) ∧
  (∀ (s t : State) (d : EReg) (b c : BReg), exec (.fldb d b) s = .next t → t.err = 0 →
    ∃ u, exec (.fstb c d) t = .next u ∧ u.readBuf c = s.readBuf b)

/-! ## Point commands -/

/-- `PIDENT`, `PGEN`, `PSET`, `PSEL`: encoding, result, frame, no error, for every state and every operand; `PGEN` leaves
what `PLDB` of the 65 bytes `04 ‖ Gx ‖ Gy` leaves (44_point_commands.md R190 to R193, 10_state.md R38). -/
def Obligations.PointConstantsAndCopies : Prop :=
  ∀ (s : State) (d a b : PReg),
    (decode (kWord 0x20 d 0 0) = .ok (.pident d) ∧
      ∃ t, exec (.pident d) s = .next t ∧ t.readP d = ⟨ZERO, ONE, ZERO⟩ ∧ t.err = 0 ∧ Frame s t (p := [d])) ∧
    (decode (kWord 0x21 d 0 0) = .ok (.pgen d) ∧
      (∃ t, exec (.pgen d) s = .next t ∧ t.readP d = ⟨mont Gx, mont Gy, ONE⟩ ∧ t.err = 0 ∧ Frame s t (p := [d])) ∧
      ∀ c, s.readBuf c = [0x04] ++ encoding32 Gx ++ encoding32 Gy → exec (.pldb d c) s = exec (.pgen d) s) ∧
    (decode (kWord 0x22 d a 0) = .ok (.pset d a) ∧
      ∃ t, exec (.pset d a) s = .next t ∧ t.readP d = s.readP a ∧ t.err = 0 ∧ Frame s t (p := [d])) ∧
    (decode (kWord 0x23 d a b) = .ok (.psel d a b) ∧
      ∃ t, exec (.psel d a b) s = .next t ∧ t.readP d = (if s.flag = true then s.readP a else s.readP b) ∧ t.err = 0 ∧
        Frame s t (p := [d]))

/-- `PADD`: for every pair of Points with canonical coordinates the result has canonical coordinates and the residues
of the closed form, `b3` being 21; `rd` may be `ra`, `rb` or both (43_point_primitives.md R170). -/
def Obligations.PaddClosedForm : Prop :=
  ∀ (s : State) (d a b : PReg), (s.readP a).Canonical → (s.readP b).Canonical →
    decode (kWord 0x24 d a b) = .ok (.padd d a b) ∧
    ∃ t, exec (.padd d a b) s = .next t ∧ (t.readP d).Canonical ∧ t.err = 0 ∧ Frame s t (p := [d]) ∧
      ∀ X1 Y1 Z1 X2 Y2 Z2 : ZMod P, X1 = (s.readP a).X.res → Y1 = (s.readP a).Y.res → Z1 = (s.readP a).Z.res →
        X2 = (s.readP b).X.res → Y2 = (s.readP b).Y.res → Z2 = (s.readP b).Z.res →
        (t.readP d).X.res = (X1 * Y2 + X2 * Y1) * (Y1 * Y2 - 21 * Z1 * Z2) - 21 * (Y1 * Z2 + Y2 * Z1) * (X1 * Z2 + X2 * Z1) ∧
        (t.readP d).Y.res = (Y1 * Y2 + 21 * Z1 * Z2) * (Y1 * Y2 - 21 * Z1 * Z2) + 3 * 21 * X1 * X2 * (X1 * Z2 + X2 * Z1) ∧
        (t.readP d).Z.res = (Y1 * Z2 + Y2 * Z1) * (Y1 * Y2 + 21 * Z1 * Z2) + 3 * X1 * X2 * (X1 * Y2 + X2 * Y1)

/-- `PDBL`: the residues of the closed form of the doubling, `b3` being 21 (43_point_primitives.md R171). -/
def Obligations.PdblClosedForm : Prop :=
  ∀ (s : State) (d a : PReg), (s.readP a).Canonical →
    decode (kWord 0x26 d a 0) = .ok (.pdbl d a) ∧
    ∃ t, exec (.pdbl d a) s = .next t ∧ (t.readP d).Canonical ∧ t.err = 0 ∧ Frame s t (p := [d]) ∧
      ∀ X Y Z : ZMod P, X = (s.readP a).X.res → Y = (s.readP a).Y.res → Z = (s.readP a).Z.res →
        (t.readP d).X.res = 2 * X * Y * (Y ^ 2 - 3 * 21 * Z ^ 2) ∧
        (t.readP d).Y.res = (Y ^ 2 - 3 * 21 * Z ^ 2) * (Y ^ 2 + 21 * Z ^ 2) + 8 * 21 * Y ^ 2 * Z ^ 2 ∧
        (t.readP d).Z.res = 8 * Y ^ 3 * Z

/-- `PSUB` is `PADD` with the second operand's `Y` negated modulo `p` (0 stays 0), the second operand's own register
not being changed unless it is the destination (43_point_primitives.md R172, 44_point_commands.md R195). -/
def Obligations.PsubIsPaddOfNegation : Prop :=
  ∀ (s : State) (d a b : PReg), (s.readP a).Canonical → (s.readP b).Canonical →
    decode (kWord 0x25 d a b) = .ok (.psub d a b) ∧
    ∃ t N, exec (.psub d a b) s = .next t ∧ t.err = 0 ∧ Frame s t (p := [d]) ∧
      N.X = (s.readP b).X ∧ N.Z = (s.readP b).Z ∧
      N.Y.int = (if (s.readP b).Y = ZERO then 0 else P - (s.readP b).Y.int) ∧
      ∀ c, c ≠ a → ∃ u, exec (.padd d a c) (s.writeP c N) = .next u ∧ t.readP d = u.readP d

/-- Addition commutes limb for limb, not only as points. -/
def Obligations.PaddCommutes : Prop :=
  ∀ (s : State) (d a b : PReg), (s.readP a).Canonical → (s.readP b).Canonical →
    exec (.padd d a b) s = exec (.padd d b a) s

/-- Identities on representatives: adding `IDENT` on either side multiplies every coordinate by `Y`
(46_scalar_mult.md R212 writes it for the generator), which is the same point when `Y ≠ 0`; doubling `IDENT` gives
`IDENT` exactly; a point minus itself has `X = Z = 0` (43_point_primitives.md R178). -/
def Obligations.PointIdentities : Prop :=
  ∀ (s : State) (d a b : PReg), (s.readP a).Canonical →
    (s.readP b = IDENT → ∃ t, exec (.padd d a b) s = .next t ∧ exec (.padd d b a) s = .next t ∧
      (t.readP d).X.res = (s.readP a).X.res * (s.readP a).Y.res ∧ (t.readP d).Y.res = (s.readP a).Y.res ^ 2 ∧
      (t.readP d).Z.res = (s.readP a).Z.res * (s.readP a).Y.res ∧
      ((s.readP a).Y ≠ ZERO → SamePoint (t.readP d) (s.readP a))) ∧
    (s.readP a = IDENT → ∃ t, exec (.pdbl d a) s = .next t ∧ t.readP d = IDENT) ∧
    (∃ t, exec (.psub d a a) s = .next t ∧ (t.readP d).X = ZERO ∧ (t.readP d).Z = ZERO)

/-- The group law of `PADD`: for every two Points that satisfy the Point invariant, equal, inverse and identity
included, the result represents the sum of what they represent (43_point_primitives.md R178 (a), 44_point_commands.md
R194). -/
def Obligations.PaddIsGroupSum : Prop :=
  ∀ (s : State) (d a b : PReg) (g h k : curve.Point), (s.readP a).Proper → (s.readP b).Proper →
    Represents (s.readP a) g → Represents (s.readP b) h → IsSum g h k →
    ∃ t, exec (.padd d a b) s = .next t ∧ (t.readP d).Proper ∧ Represents (t.readP d) k

/-- The group law of `PDBL`: the result represents twice the point, and is the same point as `PADD` of the point with
itself gives (43_point_primitives.md R178 (b), 44_point_commands.md R196). -/
def Obligations.PdblIsGroupDouble : Prop :=
  ∀ (s : State) (d a : PReg) (g k : curve.Point), (s.readP a).Proper → Represents (s.readP a) g → IsSum g g k →
    ∃ t u, exec (.pdbl d a) s = .next t ∧ exec (.padd d a a) s = .next u ∧ (t.readP d).Proper ∧
      Represents (t.readP d) k ∧ SamePoint (t.readP d) (u.readP d)

/-- The group law of `PSUB`: the result represents the difference (43_point_primitives.md R178 (c)). -/
def Obligations.PsubIsGroupDifference : Prop :=
  ∀ (s : State) (d a b : PReg) (g h k : curve.Point), (s.readP a).Proper → (s.readP b).Proper →
    Represents (s.readP a) g → Represents (s.readP b) h → IsDifference g h k →
    ∃ t, exec (.psub d a b) s = .next t ∧ (t.readP d).Proper ∧ Represents (t.readP d) k

/-! ## Codec -/

/-- `PLDB`, the pair (length, first byte): (1, `00`) decodes to `IDENT`; any pair other than (1, `00`), (65, `04`),
(33, `02`), (33, `03`), the empty buffer included, is error 2 and changes nothing else (45_point_codec.md R200). -/
def Obligations.PldbShapes : Prop :=
  ∀ (s : State) (d : PReg) (b : BReg),
    decode (kWord 0x28 d b 0) = .ok (.pldb d b) ∧
    (s.readBuf b = [0x00] → ∃ t, exec (.pldb d b) s = .next t ∧ t.readP d = IDENT ∧ t.err = 0 ∧ Frame s t (p := [d])) ∧
    (¬ (∃ x rest, s.readBuf b = x :: rest ∧
        ((rest.length = 0 ∧ x = 0x00) ∨ (rest.length = 64 ∧ x = 0x04) ∨ (rest.length = 32 ∧ (x = 0x02 ∨ x = 0x03)))) →
      OnlyError (.pldb d b) s 2)

/-- `PLDB`, uncompressed: with `x`, `y` the integers of bytes 1 to 32 and 33 to 64: error 1 if one of them is `≥ p`;
then error 3 if `y² ≠ x³ + 7` modulo `p`; otherwise the Point `(mont(x), mont(y), ONE)` (45_point_codec.md R200). -/
def Obligations.PldbUncompressed : Prop :=
  ∀ (s : State) (d : PReg) (b : BReg) (xs ys : Bytes), s.readBuf b = [0x04] ++ xs ++ ys → xs.length = 32 → ys.length = 32 →
    (P ≤ bigEndian xs ∨ P ≤ bigEndian ys → OnlyError (.pldb d b) s 1) ∧
    (bigEndian xs < P → bigEndian ys < P → bigEndian ys ^ 2 % P ≠ (bigEndian xs ^ 3 + 7) % P →
      OnlyError (.pldb d b) s 3) ∧
    (bigEndian xs < P → bigEndian ys < P → bigEndian ys ^ 2 % P = (bigEndian xs ^ 3 + 7) % P →
      ∃ t, exec (.pldb d b) s = .next t ∧ t.readP d = ⟨mont (bigEndian xs), mont (bigEndian ys), ONE⟩ ∧ t.err = 0 ∧
        Frame s t (p := [d]))

/-- `PLDB`, compressed: with `x` the integer of bytes 1 to 32: error 1 if `x ≥ p`; then error 4 if `x³ + 7` has no
square root modulo `p`; otherwise the Point `(mont(x), mont(y), ONE)` for the root `y` whose parity is the prefix's low
bit (45_point_codec.md R200, 20_memory.md R54). -/
def Obligations.PldbCompressed : Prop :=
  ∀ (s : State) (d : PReg) (b : BReg) (pfx : Byte) (xs : Bytes), s.readBuf b = [pfx] ++ xs → pfx = 0x02 ∨ pfx = 0x03 →
    xs.length = 32 →
    (P ≤ bigEndian xs → OnlyError (.pldb d b) s 1) ∧
    (bigEndian xs < P → (¬ ∃ y, y < P ∧ y ^ 2 % P = (bigEndian xs ^ 3 + 7) % P) → OnlyError (.pldb d b) s 4) ∧
    (bigEndian xs < P → ∀ y, y < P → y ^ 2 % P = (bigEndian xs ^ 3 + 7) % P → y % 2 = pfx.toNat % 2 →
      ∃ t, exec (.pldb d b) s = .next t ∧ t.readP d = ⟨mont (bigEndian xs), mont y, ONE⟩ ∧ t.err = 0 ∧
        Frame s t (p := [d]))

/-- `PSTB`: one byte `00` for the identity; otherwise `04 ‖ x ‖ y` for the residues `x = X/Z`, `y = Y/Z`, 65 bytes; the
point is not changed and every byte of every other buffer is unchanged (45_point_codec.md R201). -/
def Obligations.PstbResult : Prop :=
  ∀ (s : State) (d : BReg) (a : PReg), (s.readP a).Canonical →
    decode (kWord 0x29 d a 0) = .ok (.pstb d a) ∧
    ∃ t, exec (.pstb d a) s = .next t ∧ t.err = 0 ∧ Frame s t (b := [d]) ∧
      ((s.readP a).Z = ZERO → t.readBuf d = [0x00]) ∧
      ((s.readP a).Z ≠ ZERO → ∃ x y, x < P ∧ y < P ∧ x * (s.readP a).Z.val % P = (s.readP a).X.val ∧
        y * (s.readP a).Z.val % P = (s.readP a).Y.val ∧ t.readBuf d = [0x04] ++ encoding32 x ++ encoding32 y)

/-- `PSTBX`: the 32 bytes of `x = X/Z`; for the identity error 5, the buffer keeping its bytes and its length
(45_point_codec.md R202). -/
def Obligations.PstbxResult : Prop :=
  ∀ (s : State) (d : BReg) (a : PReg), (s.readP a).Canonical →
    decode (kWord 0x2A d a 0) = .ok (.pstbx d a) ∧
    ((s.readP a).Z = ZERO → OnlyError (.pstbx d a) s 5) ∧
    ((s.readP a).Z ≠ ZERO → ∃ t x, exec (.pstbx d a) s = .next t ∧ t.err = 0 ∧ Frame s t (b := [d]) ∧
      x < P ∧ x * (s.readP a).Z.val % P = (s.readP a).X.val ∧ t.readBuf d = encoding32 x)

/-- `PSTBC`: one byte `00` for the identity; otherwise the prefix `02` when `y = Y/Z` is even and `03` when it is odd,
then the 32 bytes of `x = X/Z` (45_point_codec.md R203). -/
def Obligations.PstbcResult : Prop :=
  ∀ (s : State) (d : BReg) (a : PReg), (s.readP a).Canonical →
    decode (kWord 0x2B d a 0) = .ok (.pstbc d a) ∧
    ∃ t, exec (.pstbc d a) s = .next t ∧ t.err = 0 ∧ Frame s t (b := [d]) ∧
      ((s.readP a).Z = ZERO → t.readBuf d = [0x00]) ∧
      ((s.readP a).Z ≠ ZERO → ∃ x y, x < P ∧ y < P ∧ x * (s.readP a).Z.val % P = (s.readP a).X.val ∧
        y * (s.readP a).Z.val % P = (s.readP a).Y.val ∧
        t.readBuf d = (if y % 2 = 0 then [0x02] else [0x03]) ++ encoding32 x)

/-- What `PLDB` accepts comes back: of an uncompressed encoding or `00` by `PSTB`, of a compressed encoding or `00` by
`PSTBC` (45_point_codec.md R204 (c)). -/
def Obligations.PointBytesRoundTrip : Prop :=
  ∀ (s t : State) (p : PReg) (b c : BReg), exec (.pldb p b) s = .next t → t.err = 0 →
    ((s.readBuf b).length = 65 ∨ (s.readBuf b).length = 1 →
      ∃ u, exec (.pstb c p) t = .next u ∧ u.readBuf c = s.readBuf b) ∧
    ((s.readBuf b).length = 33 ∨ (s.readBuf b).length = 1 →
      ∃ u, exec (.pstbc c p) t = .next u ∧ u.readBuf c = s.readBuf b)

/-- A Point that satisfies the Point invariant comes back from its encoding, uncompressed or compressed, as the
normalised representative `(x, y, ONE)` of the same point, or as `IDENT` (45_point_codec.md R204 (a), (b)). -/
def Obligations.PointRoundTrips : Prop :=
  ∀ (s : State) (b : BReg) (p q : PReg), (s.readP p).Proper →
    (∃ t u, exec (.pstb b p) s = .next t ∧ exec (.pldb q b) t = .next u ∧ u.err = 0 ∧
      SamePoint (u.readP q) (s.readP p) ∧ (u.readP q = IDENT ∨ (u.readP q).Z = ONE)) ∧
    (∃ t u, exec (.pstbc b p) s = .next t ∧ exec (.pldb q b) t = .next u ∧ u.err = 0 ∧
      SamePoint (u.readP q) (s.readP p) ∧ (u.readP q = IDENT ∨ (u.readP q).Z = ONE))

/-! ## Scalar multiplication -/

/-- `PSMUL`: starting from `IDENT`, for each nibble of the scalar, high byte and high nibble first: `Quadruple`, then
`PointAdd` of the accumulator and the nibble's multiple out of the window table of the point. (Skipping the doublings of
the first byte's high nibble is the same, `Quadruple(IDENT)` being `IDENT`.) A scalar of every length is accepted, the
empty one and one of zero bytes giving `IDENT` exactly; no error (46_scalar_mult.md R210, R211). -/
def Obligations.PsmulLoop : Prop :=
  ∀ (s : State) (d a : PReg) (b : BReg),
    decode (kWord 0x2C d a b) = .ok (.psmul d a b) ∧
    ∃ t, exec (.psmul d a b) s = .next t ∧ t.err = 0 ∧ Frame s t (p := [d]) ∧
      t.readP d = (nibbles (s.readBuf b)).foldl
        (fun A n => pointAdd (quadruple A) (multiple (entry (buildWindowTable (s.readP a))) n)) IDENT ∧
      ((∀ x ∈ s.readBuf b, x = 0) → t.readP d = IDENT)

/-- `PSMUL` multiplies in the group: the result represents `v(s)` times the point, `v(s)` the integer the scalar
spells, for a scalar of any length (46_scalar_mult.md R210, R215 (a)). -/
def Obligations.PsmulIsGroupMultiple : Prop :=
  ∀ (s : State) (d a : PReg) (b : BReg) (g k : curve.Point), (s.readP a).Proper → Represents (s.readP a) g →
    IsMultiple (bigEndian (s.readBuf b)) g k →
    ∃ t, exec (.psmul d a b) s = .next t ∧ (t.readP d).Proper ∧ Represents (t.readP d) k

/-- `PBMUL`: a scalar of other than 32 bytes is error 6 and changes nothing else, the table and `GTV` included. For 32
bytes: afterwards `GTV` is 1 and `GT` is the constant table, whether or not it was built before; the result is `IDENT`
with, for the 64 nibbles in order, the nibble's multiple out of tables 63 down to 0 added to the accumulator
(46_scalar_mult.md R212, R213). -/
def Obligations.PbmulResult : Prop :=
  ∀ (s : State) (d : PReg) (b : BReg),
    decode (kWord 0x2D d b 0) = .ok (.pbmul d b) ∧
    ((s.readBuf b).length ≠ 32 → OnlyError (.pbmul d b) s 6) ∧
    ((s.readBuf b).length = 32 → s.TableValid →
      ∃ t, exec (.pbmul d b) s = .next t ∧ t.err = 0 ∧ t.gtv = true ∧ t.gt = buildGeneratorTable ∧
        Frame s t (p := [d]) (table := true) ∧
        t.readP d = (nibbles (s.readBuf b)).zipIdx.foldl
          (fun A nk => pointAdd A (multiple (genTableEntry buildGeneratorTable (63 - nk.2)) nk.1))
          IDENT)

/-- `PBMUL` multiplies the generator in the group: the result represents `v(s)·G`; hence it is the same point as
`PSMUL` of the generator by the same scalar gives (46_scalar_mult.md R213, R215 (c)). -/
def Obligations.PbmulIsGroupMultiple : Prop :=
  ∀ (s : State) (d : PReg) (b : BReg) (g k : curve.Point), (s.readBuf b).length = 32 → s.TableValid → Represents GEN g →
    IsMultiple (bigEndian (s.readBuf b)) g k →
    ∃ t u, exec (.pbmul d b) s = .next t ∧ (t.readP d).Proper ∧ Represents (t.readP d) k ∧
      exec (.psmul d d b) (s.writeP d GEN) = .next u ∧ SamePoint (t.readP d) (u.readP d)

/-- `GTINIT`: builds the table unless it is built; no register, buffer or flag changes, no error
(46_scalar_mult.md R214). -/
def Obligations.GtinitResult : Prop :=
  decode 0x01000000 = .ok .gtinit ∧
  ∀ s : State, ∃ t, exec .gtinit s = .next t ∧ t.err = 0 ∧ Frame s t (table := true) ∧ t.gtv = true ∧
    (s.gtv = true → t.gt = s.gt) ∧ (s.gtv = false → t.gt = buildGeneratorTable)

/-- The tables: entry 0 of the window table is the point, entry `2k + 1` the double of entry `k`, entry `2k + 2` entry
`2k + 1` plus the point (43_point_primitives.md R175); table 0 of the generator table starts from the generator, each
table from `Quadruple` of the base before, and within a table each entry is the one before plus the base (R176);
`Quadruple` is four doublings (R177). -/
def Obligations.Tables : Prop :=
  (∀ Q : Point, entry (buildWindowTable Q) 0 = Q ∧
    ∀ k, k < 7 → entry (buildWindowTable Q) (2 * k + 1) = pointDouble (entry (buildWindowTable Q) k) ∧
      entry (buildWindowTable Q) (2 * k + 2) = pointAdd (entry (buildWindowTable Q) (2 * k + 1)) Q) ∧
  (genTableEntry buildGeneratorTable 0 0 = GEN ∧
    (∀ k, k < 63 → genTableEntry buildGeneratorTable (k + 1) 0 =
      pointDouble (pointDouble (pointDouble (pointDouble (genTableEntry buildGeneratorTable k 0))))) ∧
    ∀ k j, k < 64 → j < 14 → genTableEntry buildGeneratorTable k (j + 1) =
      pointAdd (genTableEntry buildGeneratorTable k j) (genTableEntry buildGeneratorTable k 0))

/-! ## Whole-machine rules -/

/-- A command that raises changes nothing but `ERR`, and its response is `(ERR, FLAG)` (60_exceptions.md R223). -/
def Obligations.ErrorChangesNothingElse : Prop :=
  (∀ (i : Instr) (s t : State), exec i s = .next t → t.err ≠ 0 → t = { s with err := t.err }) ∧
  (∀ (w : Word) (s t : State), perform (.issue w) s = .next t → t.err ≠ 0 →
    t = { s with err := t.err, reply := .response t.err s.flag })

/-- Which command may report which error code; every command not named cannot fail and reports 0
(60_exceptions.md R220, R221). -/
def Obligations.ErrorCodes : Prop :=
  ∀ (i : Instr) (s t : State), exec i s = .next t →
    t.err = 0 ∨ (mnemonic i = "FLDB" ∧ t.err = 1) ∨ (mnemonic i = "PLDB" ∧ (t.err = 1 ∨ t.err = 2 ∨ t.err = 3 ∨ t.err = 4)) ∨
    (mnemonic i = "PSTBX" ∧ t.err = 5) ∨ (mnemonic i = "PBMUL" ∧ t.err = 6)

/-- Who may write what: `FLAG` by `FEQ`, `FISZ`, `FSQRT` alone (10_state.md R27); `GTV` and `GT` by `GTINIT` and `PBMUL`
alone, only while `GTV` is 0, and then `GTV` becomes 1 (R31); a Point register only as destination of the ten commands
R25 names; an Element register only as destination of a field command; a buffer only as destination of `FSTB`, `PSTB`,
`PSTBX`, `PSTBC` (R26); `BUSY` by none. -/
def Obligations.Writers : Prop :=
  ∀ (i : Instr) (s t : State), exec i s = .next t →
    (t.flag ≠ s.flag → mnemonic i ∈ ["FEQ", "FISZ", "FSQRT"]) ∧
    (t.gtv ≠ s.gtv ∨ t.gt ≠ s.gt → mnemonic i ∈ ["GTINIT", "PBMUL"] ∧ s.gtv = false ∧ t.gtv = true) ∧
    (∀ k : PReg, t.readP k ≠ s.readP k →
      mnemonic i ∈ ["PIDENT", "PGEN", "PSET", "PSEL", "PADD", "PSUB", "PDBL", "PLDB", "PSMUL", "PBMUL"] ∧
      (operands i).1 = some k.val) ∧
    (∀ k : EReg, t.readE k ≠ s.readE k →
      mnemonic i ∈ ["FZERO", "FONE", "FSET", "FSEL", "FADD", "FSUB", "FMUL", "FSQR", "FINV", "FSQRT", "FLDB"] ∧
      (operands i).1 = some k.val) ∧
    (∀ k : BReg, t.readBuf k ≠ s.readBuf k →
      mnemonic i ∈ ["FSTB", "PSTB", "PSTBX", "PSTBC"] ∧ (operands i).1 = some k.val) ∧
    t.busy = s.busy ∧ t.pending = s.pending ∧ t.reply = s.reply

/-- Issuing a command twice: if its destination is not also a source, the second issue changes nothing
(20_memory.md R59). -/
def Obligations.SecondIssueChangesNothing : Prop :=
  ∀ (i : Instr) (s t : State), DestinationIsNoSource i → exec i s = .next t → exec i t = .next t

/-- The `STATUS` word: `BUSY` bit 0, `FLAG` bit 1, `GTV` bit 2, bit 3 reads 0, `ERR` bits 7:4, bits 31:8 read 0; after
reset it is 0 (10_state.md R30). -/
def Obligations.StatusLayout : Prop :=
  State.reset.statusWord = 0 ∧
  ∀ s : State, s.statusWord.getLsbD 0 = s.busy ∧ s.statusWord.getLsbD 1 = s.flag ∧ s.statusWord.getLsbD 2 = s.gtv ∧
    s.statusWord.getLsbD 3 = false ∧ s.statusWord.extractLsb' 4 4 = s.err ∧ s.statusWord.extractLsb' 8 24 = 0

/-! ## Timing and ports -/

/-- The latency of a command is at least 1 and never depends on the value of an Element or Point register, on `FLAG`, on
`ERR` or on the contents of `GT`; for `PSMUL` it depends on the scalar's length alone; for a `PBMUL` that passes its
length check and for `GTINIT` on `GTV` alone; for `FLDB` and `PLDB` on the source buffer alone, no other buffer and not
`GTV`; for a failing `PBMUL` on the source buffer and `GTV` alone; for every other command, and for an illegal word, on
the word alone (70_reset_and_hazards.md R248, R251). -/
def Obligations.LatencyIsPublic : Prop :=
  ∀ (w : Word) (s s' : State),
    1 ≤ latency w s ∧ (s.buf = s'.buf → s.gtv = s'.gtv → latency w s = latency w s') ∧
    (∀ d a b, decode w = .ok (.psmul d a b) → (s.readBuf b).length = (s'.readBuf b).length → latency w s = latency w s') ∧
    (∀ d b, decode w = .ok (.pbmul d b) → (s.readBuf b).length = 32 → (s'.readBuf b).length = 32 → s.gtv = s'.gtv →
      latency w s = latency w s') ∧
    (∀ d b, decode w = .ok (.fldb d b) → s.readBuf b = s'.readBuf b → latency w s = latency w s') ∧
    (∀ d b, decode w = .ok (.pldb d b) → s.readBuf b = s'.readBuf b → latency w s = latency w s') ∧
    (∀ d b, decode w = .ok (.pbmul d b) → s.readBuf b = s'.readBuf b → s.gtv = s'.gtv → latency w s = latency w s') ∧
    (decode w = .ok .gtinit → s.gtv = s'.gtv → latency w s = latency w s') ∧
    (∀ i, decode w = .ok i → mnemonic i ∉ ["GTINIT", "FLDB", "PLDB", "PSMUL", "PBMUL"] → latency w s = latency w s') ∧
    (∀ why, decode w = .error why → latency w s = latency w s')

/-- A command issued at the ports of an idle block: in the accepting cycle the block is ready; for the `LAT(cmd)`
cycles that follow, whatever the host drives on the other inputs short of `rst`, the block is busy, accepts nothing and
drops every buffer write, registers and buffers standing still; in the last of them `rsp_valid` rises with the new
`ERR` and `FLAG`, `BUSY` falls, and the state is what the transaction `Issue(w)` leaves (20_memory.md R62 (a), (b)).
The model's readings: that the block is ready in the accepting cycle, that the `LAT(cmd)` cycles are counted from the next
one to that of `rsp_valid`, and that `status` in that last cycle already shows the new state (log entry 14); that bytes
staged before are dropped (log entry 11). -/
def Obligations.PortCommandIsIssue : Prop :=
  ∀ (c u : State) (staged : List StagedByte) (x : PortIn) (xs : List PortIn), c.busy = false →
    x.rst = false → x.cmdValid = true → (∀ y ∈ xs, y.rst = false) → xs.length = latency x.cmd c →
    perform (.issue x.cmd) c = .next u →
    (PortState.out ⟨c, none, staged⟩ x).cmdReady = true ∧
    PortState.run ⟨c, none, staged⟩ (x :: xs) = ⟨u, none, []⟩ ∧
    (∀ k (h : k < xs.length),
      (PortState.run ⟨c, none, staged⟩ (x :: xs.take k)).core = { c with busy := true } ∧
      ((PortState.run ⟨c, none, staged⟩ (x :: xs.take k)).out xs[k]).cmdReady = false ∧
      (k + 1 < xs.length → ((PortState.run ⟨c, none, staged⟩ (x :: xs.take k)).out xs[k]).rspValid = false) ∧
      (k + 1 = xs.length →
        ((PortState.run ⟨c, none, staged⟩ (x :: xs.take k)).out xs[k]).rspValid = true ∧
        ((PortState.run ⟨c, none, staged⟩ (x :: xs.take k)).out xs[k]).rspErr = some u.err ∧
        ((PortState.run ⟨c, none, staged⟩ (x :: xs.take k)).out xs[k]).rspFlag = some u.flag ∧
        ((PortState.run ⟨c, none, staged⟩ (x :: xs.take k)).out xs[k]).status = u.statusWord))

/-- `rst` in any cycle, a command executing or not: the command is abandoned with no response, and the state is the
reset state, the contents of `GT`, which have no reset value, being left open here (70_reset_and_hazards.md R240, R241).
The model's choices: what the host still means to issue is the host's and stays (log entry 1), nothing is left staged (log
entry 11), and `cmd_ready` is 0 in a cycle of `rst` (log entry 14). -/
def Obligations.PortReset : Prop :=
  ∀ (p : PortState) (x : PortIn), x.rst = true →
    (∃ g, p.next x = ⟨{ State.reset with pending := p.core.pending, gt := g }, none, []⟩) ∧ (p.out x).rspValid = false ∧
    (p.out x).cmdReady = false ∧ (p.next x).core.gtv = false

/-- A `BufWrite` at the ports of an idle block: writing every byte of `v` with `buf_we`, then committing `len(v)` with
`buf_len_we`, leaves what the transaction `BufWrite(i, v)` leaves; until the commit no state changes
(20_memory.md R62 (c)). -/
def Obligations.PortBufWrite : Prop :=
  ∀ (c u : State) (i : BReg) (v : ByteString), perform (.bufWrite i v) c = .next u →
    PortState.run ⟨c, none, []⟩ (stagingCycles i 0 v.bytes ++ [commitCycle i v.bytes.length]) = ⟨u, none, []⟩ ∧
    (PortState.run ⟨c, none, []⟩ (stagingCycles i 0 v.bytes)).core = c
end

