-- ==== Sys2Proof/Laws/Field.lean ====
section
/-! SUPPORT. What each function of the field layer leaves, said once: as an integer, as a residue, and below `p`
(40_field_primitives.md R100 to R118). Claims about commands cite these and never unfold the functions. -/

namespace Sys2Proof.Machine

/-! ### Limbs -/

theorem addCarry64_spec (x y : Limb) (c : Bool) :
    (addCarry64 x y c).1.toNat + 2 ^ 64 * (addCarry64 x y c).2.toNat = x.toNat + y.toNat + c.toNat := by
  have hx := x.isLt; have hy := y.isLt; have hc := c.toNat_le
  simp only [addCarry64, BitVec.toNat_ofNat]
  by_cases h : (x.toNat + y.toNat + c.toNat) / 2 ^ 64 = 1
  · simp only [h, beq_self_eq_true, Bool.toNat_true]; omega
  · simp only [beq_eq_false_iff_ne.mpr h, Bool.toNat_false]; omega

theorem subBorrow64_spec (x y : Limb) (b : Bool) :
    (subBorrow64 x y b).1.toNat + y.toNat + b.toNat = x.toNat + 2 ^ 64 * (subBorrow64 x y b).2.toNat := by
  have hx := x.isLt; have hy := y.isLt; have hb := b.toNat_le
  simp only [subBorrow64, BitVec.toNat_ofInt]
  by_cases h : (x.toNat : Int) - y.toNat - b.toNat < 0
  · simp only [h, decide_true, Bool.toNat_true]; omega
  · simp only [h, decide_false, Bool.toNat_false]; omega

theorem int_lt (a : Element) : a.int < 2 ^ 256 := by
  have h0 := a.l0.isLt; have h1 := a.l1.isLt; have h2 := a.l2.isLt; have h3 := a.l3.isLt
  simp only [Element.int]; omega

theorem int_limbs (v : Nat) : (limbs v).int = v % 2 ^ 256 := by
  simp only [Element.int, limbs, BitVec.toNat_ofNat]; omega

theorem int_limbs_of_lt {v : Nat} (h : v < 2 ^ 256) : (limbs v).int = v := by
  rw [int_limbs, Nat.mod_eq_of_lt h]

theorem int_inj {a b : Element} (h : a.int = b.int) : a = b := by
  have h0 := a.l0.isLt; have h1 := a.l1.isLt; have h2 := a.l2.isLt; have h3 := a.l3.isLt
  have k0 := b.l0.isLt; have k1 := b.l1.isLt; have k2 := b.l2.isLt; have k3 := b.l3.isLt
  obtain ⟨a0, a1, a2, a3⟩ := a
  obtain ⟨b0, b1, b2, b3⟩ := b
  simp only [Element.int] at *
  simp only [Element.mk.injEq, BitVec.toNat_eq]
  omega

theorem int_PL : PL.int = P := by decide +kernel

/-- What the shared tail of the adder and of the multiplier leaves: `V mod p` for a value `V` below `2p`. -/
theorem subtractPUnlessBelow_int (s : Element) (c : Bool) (h : s.int + 2 ^ 256 * c.toNat < 2 * P) :
    (subtractPUnlessBelow s c).int = (s.int + 2 ^ 256 * c.toNat) % P := by
  have e0 := subBorrow64_spec s.l0 PL.l0 false
  have e1 := subBorrow64_spec s.l1 PL.l1 (subBorrow64 s.l0 PL.l0 false).2
  have e2 := subBorrow64_spec s.l2 PL.l2 (subBorrow64 s.l1 PL.l1 (subBorrow64 s.l0 PL.l0 false).2).2
  have e3 := subBorrow64_spec s.l3 PL.l3
    (subBorrow64 s.l2 PL.l2 (subBorrow64 s.l1 PL.l1 (subBorrow64 s.l0 PL.l0 false).2).2).2
  have e4 := subBorrow64_spec (BitVec.ofNat 64 c.toNat) 0 (subBorrow64 s.l3 PL.l3
    (subBorrow64 s.l2 PL.l2 (subBorrow64 s.l1 PL.l1 (subBorrow64 s.l0 PL.l0 false).2).2).2).2
  have hcn : (BitVec.ofNat 64 c.toNat).toNat = c.toNat := by have := c.toNat_le; rw [BitVec.toNat_ofNat]; omega
  rw [hcn, show (0 : Limb).toNat = 0 from rfl] at e4
  unfold subtractPUnlessBelow
  dsimp only at *
  generalize subBorrow64 s.l0 PL.l0 false = r0 at *
  generalize subBorrow64 s.l1 PL.l1 r0.2 = r1 at *
  generalize subBorrow64 s.l2 PL.l2 r1.2 = r2 at *
  generalize subBorrow64 s.l3 PL.l3 r2.2 = r3 at *
  generalize subBorrow64 (BitVec.ofNat 64 c.toNat) 0 r3.2 = r4 at *
  have key : Element.int ⟨r0.1, r1.1, r2.1, r3.1⟩ + P = s.int + 2 ^ 256 * r3.2.toNat := by
    rw [← int_PL]
    simp only [Bool.toNat_false] at e0
    simp only [Element.int]
    linear_combination e0 + 2 ^ 64 * e1 + 2 ^ 128 * e2 + 2 ^ 192 * e3
  have hD := int_lt ⟨r0.1, r1.1, r2.1, r3.1⟩
  have hS := int_lt s
  have h4 := r4.1.isLt
  clear e0 e1 e2 e3
  rcases hw : r4.2 with _ | _
  · simp only [cmov64, Bool.false_eq_true, if_false]
    rw [hw] at e4
    generalize Element.int ⟨r0.1, r1.1, r2.1, r3.1⟩ = D at *
    rcases r3.2 with _ | _ <;> rcases c with _ | _ <;>
      simp only [Bool.toNat_false, Bool.toNat_true, BitVec.toNat_ofNat, P] at * <;> omega
  · simp only [cmov64, if_true]
    rw [hw] at e4
    show s.int = _
    generalize Element.int ⟨r0.1, r1.1, r2.1, r3.1⟩ = D at *
    rcases r3.2 with _ | _ <;> rcases c with _ | _ <;>
      simp only [Bool.toNat_false, Bool.toNat_true, BitVec.toNat_ofNat, P] at * <;> omega

theorem fAdd_int {a b : Element} (h : a.int + b.int < 2 * P) : (fAdd a b).int = (a.int + b.int) % P := by
  have e0 := addCarry64_spec a.l0 b.l0 false
  have e1 := addCarry64_spec a.l1 b.l1 (addCarry64 a.l0 b.l0 false).2
  have e2 := addCarry64_spec a.l2 b.l2 (addCarry64 a.l1 b.l1 (addCarry64 a.l0 b.l0 false).2).2
  have e3 := addCarry64_spec a.l3 b.l3 (addCarry64 a.l2 b.l2 (addCarry64 a.l1 b.l1 (addCarry64 a.l0 b.l0 false).2).2).2
  unfold fAdd
  dsimp only at *
  generalize addCarry64 a.l0 b.l0 false = r0 at *
  generalize addCarry64 a.l1 b.l1 r0.2 = r1 at *
  generalize addCarry64 a.l2 b.l2 r1.2 = r2 at *
  generalize addCarry64 a.l3 b.l3 r2.2 = r3 at *
  have key : Element.int ⟨r0.1, r1.1, r2.1, r3.1⟩ + 2 ^ 256 * r3.2.toNat = a.int + b.int := by
    simp only [Bool.toNat_false] at e0
    simp only [Element.int]
    linear_combination e0 + 2 ^ 64 * e1 + 2 ^ 128 * e2 + 2 ^ 192 * e3
  rw [subtractPUnlessBelow_int _ _ (by rw [key]; exact h), key]

/-- Four chained limb additions, the last carry being worth `2^256`. -/
theorem addChain_int (d q : Element) : ∃ k : Nat,
    Element.int ⟨(addCarry64 d.l0 q.l0 false).1, (addCarry64 d.l1 q.l1 (addCarry64 d.l0 q.l0 false).2).1,
      (addCarry64 d.l2 q.l2 (addCarry64 d.l1 q.l1 (addCarry64 d.l0 q.l0 false).2).2).1,
      (addCarry64 d.l3 q.l3 (addCarry64 d.l2 q.l2 (addCarry64 d.l1 q.l1 (addCarry64 d.l0 q.l0 false).2).2).2).1⟩ +
      2 ^ 256 * k = d.int + q.int := by
  have f0 := addCarry64_spec d.l0 q.l0 false
  have f1 := addCarry64_spec d.l1 q.l1 (addCarry64 d.l0 q.l0 false).2
  have f2 := addCarry64_spec d.l2 q.l2 (addCarry64 d.l1 q.l1 (addCarry64 d.l0 q.l0 false).2).2
  have f3 := addCarry64_spec d.l3 q.l3
    (addCarry64 d.l2 q.l2 (addCarry64 d.l1 q.l1 (addCarry64 d.l0 q.l0 false).2).2).2
  generalize addCarry64 d.l0 q.l0 false = u0 at *
  generalize addCarry64 d.l1 q.l1 u0.2 = u1 at *
  generalize addCarry64 d.l2 q.l2 u1.2 = u2 at *
  generalize addCarry64 d.l3 q.l3 u2.2 = u3 at *
  refine ⟨u3.2.toNat, ?_⟩
  simp only [Bool.toNat_false] at f0
  simp only [Element.int]
  linear_combination f0 + 2 ^ 64 * f1 + 2 ^ 128 * f2 + 2 ^ 192 * f3

theorem fSub_int {a b : Element} (ha : a.int < P) (hb : b.int < P) : (fSub a b).int = (a.int + P - b.int) % P := by
  have e0 := subBorrow64_spec a.l0 b.l0 false
  have e1 := subBorrow64_spec a.l1 b.l1 (subBorrow64 a.l0 b.l0 false).2
  have e2 := subBorrow64_spec a.l2 b.l2 (subBorrow64 a.l1 b.l1 (subBorrow64 a.l0 b.l0 false).2).2
  have e3 := subBorrow64_spec a.l3 b.l3
    (subBorrow64 a.l2 b.l2 (subBorrow64 a.l1 b.l1 (subBorrow64 a.l0 b.l0 false).2).2).2
  unfold fSub
  dsimp only at *
  generalize subBorrow64 a.l0 b.l0 false = r0 at *
  generalize subBorrow64 a.l1 b.l1 r0.2 = r1 at *
  generalize subBorrow64 a.l2 b.l2 r1.2 = r2 at *
  generalize subBorrow64 a.l3 b.l3 r2.2 = r3 at *
  have key : Element.int ⟨r0.1, r1.1, r2.1, r3.1⟩ + b.int = a.int + 2 ^ 256 * r3.2.toNat := by
    simp only [Bool.toNat_false] at e0
    simp only [Element.int]
    linear_combination e0 + 2 ^ 64 * e1 + 2 ^ 128 * e2 + 2 ^ 192 * e3
  have hD := int_lt ⟨r0.1, r1.1, r2.1, r3.1⟩
  clear e0 e1 e2 e3
  rcases hw : r3.2 with _ | _
  · have g : ∀ x : Limb, x &&& (0xFFFFFFFFFFFFFFFF : Limb) = x := fun x => BitVec.and_allOnes
    simp only [cmov64, Bool.false_eq_true, if_false]
    have m0 : ∀ x : Limb, x &&& (0 : Limb) = 0 := fun x => BitVec.and_zero
    simp only [m0]
    obtain ⟨k, hk⟩ := addChain_int ⟨r0.1, r1.1, r2.1, r3.1⟩ ZERO
    simp only [show ZERO.l0 = 0 from rfl, show ZERO.l1 = 0 from rfl, show ZERO.l2 = 0 from rfl,
      show ZERO.l3 = 0 from rfl, show ZERO.int = 0 from rfl] at hk
    rw [hw, Bool.toNat_false] at key
    generalize Element.int ⟨r0.1, r1.1, r2.1, r3.1⟩ = D at *
    have hR := int_lt ⟨(addCarry64 r0.1 0 false).1, (addCarry64 r1.1 0 (addCarry64 r0.1 0 false).2).1,
      (addCarry64 r2.1 0 (addCarry64 r1.1 0 (addCarry64 r0.1 0 false).2).2).1,
      (addCarry64 r3.1 0 (addCarry64 r2.1 0 (addCarry64 r1.1 0 (addCarry64 r0.1 0 false).2).2).2).1⟩
    generalize Element.int _ = Q at *
    simp only [P] at *
    omega
  · have g : ∀ x : Limb, x &&& (0xFFFFFFFFFFFFFFFF : Limb) = x := fun x => BitVec.and_allOnes
    simp only [cmov64, if_true, g]
    obtain ⟨k, hk⟩ := addChain_int ⟨r0.1, r1.1, r2.1, r3.1⟩ PL
    rw [int_PL] at hk
    rw [hw, Bool.toNat_true] at key
    generalize Element.int ⟨r0.1, r1.1, r2.1, r3.1⟩ = D at *
    have hR := int_lt ⟨(addCarry64 r0.1 PL.l0 false).1, (addCarry64 r1.1 PL.l1 (addCarry64 r0.1 PL.l0 false).2).1,
      (addCarry64 r2.1 PL.l2 (addCarry64 r1.1 PL.l1 (addCarry64 r0.1 PL.l0 false).2).2).1,
      (addCarry64 r3.1 PL.l3 (addCarry64 r2.1 PL.l2 (addCarry64 r1.1 PL.l1 (addCarry64 r0.1 PL.l0 false).2).2).2).1⟩
    generalize Element.int _ = Q at *
    simp only [P] at *
    omega

theorem mul64_lo (x y : Limb) : (mul64 x y).1.toNat = x.toNat * y.toNat % 2 ^ 64 := by
  simp [mul64, BitVec.toNat_ofNat]

/-- One iteration of the multiplier: exact division, `2^64 · t' = t + a[i]·B + m·p` for some limb `m`. -/
theorem montStep_spec (ai : Limb) (B t : Nat) :
    ∃ m, m < 2 ^ 64 ∧ 2 ^ 64 * montStep ai B t = t + ai.toNat * B + m * P := by
  set u := t + ai.toNat * B with hu
  refine ⟨(mul64 (BitVec.ofNat 64 u) PINV).1.toNat, (mul64 (BitVec.ofNat 64 u) PINV).1.isLt, ?_⟩
  have hm : (mul64 (BitVec.ofNat 64 u) PINV).1.toNat = u % 2 ^ 64 * PINV.toNat % 2 ^ 64 := by
    rw [mul64_lo, BitVec.toNat_ofNat]
  have hdiv : 2 ^ 64 ∣ u + (mul64 (BitVec.ofNat 64 u) PINV).1.toNat * P := by
    rw [hm, Nat.dvd_iff_mod_eq_zero, Nat.add_mod, Nat.mod_mul_mod, mul_assoc, Nat.mod_mul_mod, ← Nat.add_mod,
      show u + u * (PINV.toNat * P) = u * (1 + PINV.toNat * P) by ring]
    rw [Nat.mul_mod, show (1 + PINV.toNat * P) % 2 ^ 64 = 0 by decide +kernel]; simp
  show 2 ^ 64 * ((u + (mul64 (BitVec.ofNat 64 u) PINV).1.toNat * P) / 2 ^ 64) = _
  exact Nat.mul_div_cancel' hdiv

theorem montMul_spec (a b : Element) (hb : b.int < P) :
    (montMul a b).int < P ∧ (montMul a b).int * 2 ^ 256 ≡ a.int * b.int [MOD P] := by
  obtain ⟨m0, hm0, e0⟩ := montStep_spec a.l0 b.int 0
  obtain ⟨m1, hm1, e1⟩ := montStep_spec a.l1 b.int (montStep a.l0 b.int 0)
  obtain ⟨m2, hm2, e2⟩ := montStep_spec a.l2 b.int (montStep a.l1 b.int (montStep a.l0 b.int 0))
  obtain ⟨m3, hm3, e3⟩ := montStep_spec a.l3 b.int (montStep a.l2 b.int (montStep a.l1 b.int (montStep a.l0 b.int 0)))
  unfold montMul
  dsimp only at *
  generalize montStep a.l0 b.int 0 = t0 at *
  generalize montStep a.l1 b.int t0 = t1 at *
  generalize montStep a.l2 b.int t1 = t2 at *
  generalize montStep a.l3 b.int t2 = t3 at *
  have bound : ∀ (x : Limb) (m t t' : Nat), m < 2 ^ 64 → t < 2 * P → 2 ^ 64 * t' = t + x.toNat * b.int + m * P → t' < 2 * P := by
    intro x m t t' hm ht he
    have hx := x.isLt
    have h1 : x.toNat * b.int ≤ (2 ^ 64 - 1) * P := Nat.mul_le_mul (by omega) (le_of_lt hb)
    have h2 : m * P ≤ (2 ^ 64 - 1) * P := Nat.mul_le_mul_right _ (by omega)
    simp only [P] at *
    omega
  have b0 := bound _ _ _ _ hm0 (by decide) e0
  have b1 := bound _ _ _ _ hm1 b0 e1
  have b2 := bound _ _ _ _ hm2 b1 e2
  have b3 := bound _ _ _ _ hm3 b2 e3
  have hint : (limbs t3).int + 2 ^ 256 * (t3 / 2 ^ 256 == 1).toNat = t3 := by
    rw [int_limbs]
    by_cases h : t3 / 2 ^ 256 = 1
    · simp only [h, beq_self_eq_true, Bool.toNat_true]; omega
    · simp only [beq_eq_false_iff_ne.mpr h, Bool.toNat_false]; simp only [P] at b3; omega
  rw [subtractPUnlessBelow_int _ _ (by rw [hint]; exact b3), hint]
  refine ⟨Nat.mod_lt _ (by decide), ?_⟩
  have hsum : t3 * 2 ^ 256 = a.int * b.int + (m0 + m1 * 2 ^ 64 + m2 * 2 ^ 128 + m3 * 2 ^ 192) * P := by
    rw [show a.int = a.l0.toNat + a.l1.toNat * 2 ^ 64 + a.l2.toNat * 2 ^ 128 + a.l3.toNat * 2 ^ 192 from rfl]
    linear_combination 2 ^ 192 * e3 + 2 ^ 128 * e2 + 2 ^ 64 * e1 + e0
  have : t3 % P * 2 ^ 256 ≡ t3 * 2 ^ 256 [MOD P] := (Nat.mod_modEq _ _).mul_right _
  refine this.trans ?_
  rw [hsum]
  show (a.int * b.int + _ * P) % P = _
  rw [Nat.add_mul_mod_self_right]

theorem montMul_int {a b : Element} (hb : b.int < P) : (montMul a b).int = a.int * b.int * RINV % P := by
  obtain ⟨hlt, hmod⟩ := montMul_spec a b hb
  have h1 : (montMul a b).int * (2 ^ 256 * RINV) ≡ a.int * b.int * RINV [MOD P] := by
    rw [← mul_assoc]; exact hmod.mul_right _
  have h2 : 2 ^ 256 * RINV ≡ 1 [MOD P] := by decide +kernel
  have h3 : (montMul a b).int ≡ a.int * b.int * RINV [MOD P] := by
    have := (h2.mul_left (montMul a b).int).symm.trans h1
    rwa [mul_one] at this
  rw [← Nat.mod_eq_of_lt hlt]; exact h3

/-! ### Integers and residues -/

theorem P_pos : 0 < P := by decide

theorem R_RINV : ((R * RINV : Nat) : ZMod P) = 1 := by
  rw [show (1 : ZMod P) = ((1 : Nat) : ZMod P) by simp, ZMod.natCast_eq_natCast_iff]
  decide +kernel

theorem val_lt (a : Element) : a.val < P := Nat.mod_lt _ P_pos

/-- The residue of an Element is its integer times `R⁻¹`. -/
theorem res_eq (a : Element) : a.res = a.int * RINV := by
  simp [Element.res, Element.val]

/-- The integer of an Element is its residue times `R`. -/
theorem int_cast (a : Element) : (a.int : ZMod P) = a.res * R := by
  have h := R_RINV
  push_cast at h
  rw [res_eq, mul_assoc, mul_comm (RINV : ZMod P), h, mul_one]

theorem val_cast (a : Element) : (a.val : ZMod P) = a.res := rfl

theorem val_eq_of_res {a : Element} {n : Nat} (h : a.res = (n : ZMod P)) : a.val = n % P := by
  have : ((a.val : Nat) : ZMod P) = (n : ZMod P) := h
  rw [ZMod.natCast_eq_natCast_iff'] at this
  rwa [Nat.mod_eq_of_lt (val_lt a)] at this

theorem val_inj_res {a b : Element} (h : a.res = b.res) : a.val = b.val := by
  rw [val_eq_of_res (n := b.val) h, Nat.mod_eq_of_lt (val_lt b)]

/-- A canonical Element is determined by its residue (10_state.md R22). -/
theorem eq_of_res {a b : Element} (ha : a.Canonical) (hb : b.Canonical) (h : a.res = b.res) : a = b := by
  apply int_inj
  have : (a.int : ZMod P) = (b.int : ZMod P) := by rw [int_cast, int_cast, h]
  rw [ZMod.natCast_eq_natCast_iff'] at this
  rwa [Nat.mod_eq_of_lt ha, Nat.mod_eq_of_lt hb] at this

theorem eq_of_val {a b : Element} (ha : a.Canonical) (hb : b.Canonical) (h : a.val = b.val) : a = b :=
  eq_of_res ha hb (by simp only [Element.res, h])

theorem int_mont (v : Nat) : (mont v).int = v * R % P :=
  int_limbs_of_lt (lt_trans (Nat.mod_lt _ P_pos) (by decide))

theorem mont_canonical (v : Nat) : (mont v).Canonical := by
  show (mont v).int < P
  rw [int_mont]; exact Nat.mod_lt _ P_pos

theorem res_mont (v : Nat) : (mont v).res = v := by
  have h := R_RINV
  push_cast at h
  rw [res_eq, int_mont]
  rw [ZMod.natCast_mod]
  push_cast
  rw [mul_assoc, h, mul_one]

theorem val_mont (v : Nat) : (mont v).val = v % P := val_eq_of_res (res_mont v)

theorem mont_val {a : Element} (ha : a.Canonical) : mont a.val = a :=
  eq_of_res (mont_canonical _) ha (by rw [res_mont])

/-! ### The arithmetic functions, each with everything it leaves -/

theorem fAdd_canonical {a b : Element} (ha : a.Canonical) (hb : b.Canonical) : (fAdd a b).Canonical := by
  show (fAdd a b).int < P
  rw [fAdd_int (by simp only [Element.Canonical] at ha hb; omega)]; exact Nat.mod_lt _ P_pos

theorem fSub_canonical {a b : Element} (ha : a.Canonical) (hb : b.Canonical) : (fSub a b).Canonical := by
  show (fSub a b).int < P
  rw [fSub_int ha hb]; exact Nat.mod_lt _ P_pos

theorem montMul_canonical (a : Element) {b : Element} (hb : b.Canonical) : (montMul a b).Canonical :=
  (montMul_spec a b hb).1

theorem fAdd_res {a b : Element} (ha : a.Canonical) (hb : b.Canonical) : (fAdd a b).res = a.res + b.res := by
  rw [res_eq, fAdd_int (by simp only [Element.Canonical] at ha hb; omega), ZMod.natCast_mod, res_eq, res_eq]
  push_cast; ring

theorem fSub_res {a b : Element} (ha : a.Canonical) (hb : b.Canonical) : (fSub a b).res = a.res - b.res := by
  rw [res_eq, fSub_int ha hb, ZMod.natCast_mod, Nat.cast_sub (by simp only [Element.Canonical] at hb; omega), res_eq, res_eq]
  push_cast; simp [sub_mul]

theorem montMul_res (a : Element) {b : Element} (hb : b.Canonical) : (montMul a b).res = a.res * b.res := by
  rw [res_eq, montMul_int hb, ZMod.natCast_mod, res_eq, res_eq]
  push_cast; ring

theorem montSqr_canonical {a : Element} (ha : a.Canonical) : (montSqr a).Canonical := montMul_canonical a ha

theorem montSqr_res {a : Element} (ha : a.Canonical) : (montSqr a).res = a.res ^ 2 := by
  rw [sq]; exact montMul_res a ha

theorem ZERO_canonical : ZERO.Canonical := by decide
theorem ONE_canonical : ONE.Canonical := by decide
theorem SEVEN_canonical : SEVEN.Canonical := by decide
theorem B3_canonical : B3.Canonical := by decide
theorem R2_canonical : R2.Canonical := by decide
theorem PLAIN1_canonical : PLAIN1.Canonical := by decide

theorem ZERO_res : ZERO.res = 0 := by rw [res_eq, show ZERO.int = 0 from rfl]; simp
theorem ONE_res : ONE.res = 1 := by
  rw [show ONE = mont 1 by decide +kernel, res_mont]; simp
theorem SEVEN_res : SEVEN.res = 7 := by
  rw [show SEVEN = mont 7 by decide +kernel, res_mont]; simp
theorem B3_res : B3.res = 21 := by
  rw [show B3 = mont 21 by decide +kernel, res_mont]; simp
theorem R2_res : R2.res = R := by
  rw [show R2 = mont R by decide +kernel, res_mont]

theorem res_eq_zero_iff {a : Element} (ha : a.Canonical) : a.res = 0 ↔ a = ZERO :=
  ⟨fun h => eq_of_res ha ZERO_canonical (by rw [h, ZERO_res]), fun h => by rw [h, ZERO_res]⟩

theorem fNeg_canonical {a : Element} (ha : a.Canonical) : (fNeg a).Canonical := fSub_canonical ZERO_canonical ha

theorem fNeg_res {a : Element} (ha : a.Canonical) : (fNeg a).res = -a.res := by
  rw [fNeg, fSub_res ZERO_canonical ha, ZERO_res, zero_sub]

/-- `ToMont(x)` represents `int(x)`, for limbs of any value (40_field_primitives.md R108). -/
theorem toMont_eq (x : Element) : toMont x = mont x.int := by
  apply eq_of_res (montMul_canonical x R2_canonical) (mont_canonical _)
  show (montMul x R2).res = _
  rw [montMul_res x R2_canonical, res_mont, int_cast, R2_res]

/-- `FromMont(a)` holds `val(a)` as a plain integer (40_field_primitives.md R109). -/
theorem fromMont_int (a : Element) : (fromMont a).int = a.val := by
  rw [fromMont, montMul_int PLAIN1_canonical, show PLAIN1.int = 1 from rfl, mul_one]; rfl

/-! ### Select -/

theorem fSelect_eq (a b : Element) (c : Bool) : fSelect a b c = if c then a else b := by
  cases c <;> rfl

/-! ### Byte strings as integers -/

theorem leNat_append (u v : Bytes) : leNat (u ++ v) = leNat u + 256 ^ u.length * leNat v := by
  induction u with
  | nil => simp [leNat]
  | cons b u ih => simp [leNat, ih, pow_succ]; ring

theorem leNat_lt (v : Bytes) : leNat v < 256 ^ v.length := by
  induction v with
  | nil => simp [leNat]
  | cons b v ih => have := b.isLt; simp only [leNat, List.length_cons, pow_succ]; omega

theorem beNat_cons (b : Byte) (v : Bytes) : beNat (b :: v) = b.toNat * 256 ^ v.length + beNat v := by
  simp [beNat, leNat_append, leNat]; ring

theorem beNat_append (u v : Bytes) : beNat (u ++ v) = beNat u * 256 ^ v.length + beNat v := by
  simp [beNat, leNat_append]; ring

theorem beNat_lt (v : Bytes) : beNat v < 256 ^ v.length := by
  simpa [beNat] using leNat_lt v.reverse

theorem leNat_inj {u v : Bytes} (hl : u.length = v.length) (h : leNat u = leNat v) : u = v := by
  induction u generalizing v with
  | nil => cases v <;> simp_all
  | cons a u ih =>
    cases v with
    | nil => simp at hl
    | cons b v =>
      have ha := a.isLt; have hb := b.isLt
      simp only [leNat] at h
      rw [show a = b from BitVec.eq_of_toNat_eq (by omega), ih (by simpa using hl) (by omega)]

/-- Byte strings of one length are determined by the integer they spell. -/
theorem beNat_inj {u v : Bytes} (hl : u.length = v.length) (h : beNat u = beNat v) : u = v :=
  List.reverse_injective (leNat_inj (by simpa using hl) h)

theorem limbBytes_length (x : Limb) : (limbBytes x).length = 8 := rfl

theorem leNat_limbBytes (x : Limb) : leNat (limbBytes x) = x.toNat := by
  have hx := x.isLt
  simp only [limbBytes, leNat, BitVec.extractLsb'_toNat, Nat.shiftRight_eq_div_pow]
  omega

theorem toBytes_length (x : Element) : (toBytes x).length = 32 := by simp [toBytes, limbBytes_length]

/-- `ToBytes(x)` is the big-endian encoding of `int(x)` (40_field_primitives.md R110). -/
theorem beNat_toBytes (x : Element) : beNat (toBytes x) = x.int := by
  simp only [beNat, toBytes, List.reverse_reverse, leNat_append, leNat_limbBytes, limbBytes_length, List.length_append,
    Element.int]
  ring

theorem fBytes_length (a : Element) : (fBytes a).length = 32 := by rw [fBytes]; exact toBytes_length _

/-- `FBytes(a)` is the 32-byte big-endian encoding of `val(a)` (40_field_primitives.md R112). -/
theorem beNat_fBytes (a : Element) : beNat (fBytes a) = a.val := by
  rw [fBytes, beNat_toBytes, fromMont_int]

/-- `FromBytes(v)` is the integer a 32-byte string spells (40_field_primitives.md R111). -/
theorem fromBytes_int {v : Bytes} (h : v.length = 32) : (fromBytes v).int = beNat v := by
  have hl : v.reverse.length = 32 := by simpa using h
  simp only [fromBytes, beNat, Element.int, BitVec.toNat_ofNat]
  generalize v.reverse = w at hl
  have lt8 : ∀ u : Bytes, u.length ≤ 8 → leNat u < 2 ^ 64 := fun u hu =>
    lt_of_lt_of_le (leNat_lt u) (le_trans (Nat.pow_le_pow_right (by norm_num) hu) (by norm_num))
  rw [Nat.mod_eq_of_lt (lt8 _ (by simp)), Nat.mod_eq_of_lt (lt8 _ (by simp)), Nat.mod_eq_of_lt (lt8 _ (by simp)),
    Nat.mod_eq_of_lt (lt8 _ (by simp))]
  have s0 : w = w.take 8 ++ ((w.drop 8).take 8 ++ ((w.drop 16).take 8 ++ (w.drop 24).take 8)) := by
    have e3 : (w.drop 24).take 8 = w.drop 24 := List.take_of_length_le (by simp [hl])
    have e2 : (w.drop 16).take 8 ++ w.drop 24 = w.drop 16 := by
      have := List.take_append_drop 8 (w.drop 16); rwa [List.drop_drop] at this
    have e1 : (w.drop 8).take 8 ++ w.drop 16 = w.drop 8 := by
      have := List.take_append_drop 8 (w.drop 8); rwa [List.drop_drop] at this
    rw [e3, e2, e1, List.take_append_drop]
  conv_rhs => rw [s0]
  simp only [leNat_append, List.length_take, List.length_drop, hl]
  norm_num
  ring

/-! ### The range check and the loader -/

theorem exceeds_iff {u v : Bytes} (h : u.length = v.length) : exceeds u v = true ↔ beNat v < beNat u := by
  induction u generalizing v with
  | nil => cases v <;> simp_all [exceeds, beNat, leNat]
  | cons a u ih =>
    cases v with
    | nil => simp at h
    | cons b v =>
      have hl : u.length = v.length := by simpa using h
      have hu := beNat_lt u; have hv := beNat_lt v
      rw [hl] at hu
      rw [beNat_cons, beNat_cons, hl]
      simp only [exceeds]
      split
      · next hlt =>
        have : b.toNat < a.toNat := hlt
        have : (b.toNat + 1) * 256 ^ v.length ≤ a.toNat * 256 ^ v.length := Nat.mul_le_mul_right _ this
        simp only [true_iff]
        rw [add_mul] at this; omega
      · next hlt =>
        split
        · next hgt =>
          have : a.toNat < b.toNat := hgt
          have : (a.toNat + 1) * 256 ^ v.length ≤ b.toNat * 256 ^ v.length := Nat.mul_le_mul_right _ this
          rw [add_mul] at this
          simp only [Bool.false_eq_true, false_iff]; omega
        · next hgt =>
          have h1 : ¬ b.toNat < a.toNat := hlt
          have h2 : ¬ a.toNat < b.toNat := hgt
          rw [ih hl, show a.toNat = b.toNat by omega]; omega

theorem beNat_PM1 : beNat PM1 = P - 1 := by decide +kernel

/-- `FSetBytes(v)` is `mont` of the encoded integer exactly when `v` has 32 bytes and the integer is below `p`
(40_field_primitives.md R113). -/
theorem fSetBytes_eq (v : Bytes) :
    fSetBytes v = if v.length = 32 ∧ beNat v < P then .ok (mont (beNat v)) else .error .invalidElementEncoding := by
  unfold fSetBytes
  by_cases hl : v.length = 32
  · have he : exceeds v PM1 = true ↔ P ≤ beNat v := by
      rw [exceeds_iff (by rw [hl]; rfl), beNat_PM1]
      have := P_pos; omega
    rw [toMont_eq, fromBytes_int hl]
    by_cases hp : P ≤ beNat v
    · simp [hl, he.mpr hp, not_lt.mpr hp]
    · have : exceeds v PM1 = false := by rw [Bool.eq_false_iff]; exact fun h => hp (he.mp h)
      simp [hl, this, not_le.mp hp]
  · simp [hl]

/-! ### Predicates -/

theorem xorAccumulate_eq_zero {u v : Bytes} (h : u.length = v.length) (acc : Byte) :
    xorAccumulate u v acc = 0 ↔ acc = 0 ∧ u = v := by
  induction u generalizing v acc with
  | nil => cases v <;> simp_all [xorAccumulate]
  | cons a u ih =>
    cases v with
    | nil => simp at h
    | cons b v =>
      rw [xorAccumulate, ih (by simpa using h)]
      have : acc ||| (a ^^^ b) = 0 ↔ acc = 0 ∧ a = b := by
        rw [show (0 : Byte) = 0#8 from rfl, BitVec.or_eq_zero_iff, BitVec.xor_eq_zero_iff]
      rw [this]
      simp [and_assoc]

/-- `FEqual(a, b)` is 1 exactly when the residues are equal (40_field_primitives.md R114). -/
theorem fEqual_iff_val (a b : Element) : fEqual a b = true ↔ a.val = b.val := by
  rw [fEqual, beq_iff_eq, xorAccumulate_eq_zero (u := fBytes a) (v := fBytes b) ((fBytes_length a).trans (fBytes_length b).symm)]
  constructor
  · rintro ⟨-, h⟩; rw [← beNat_fBytes, h, beNat_fBytes]
  · intro h; exact ⟨Eq.refl (0 : Byte), beNat_inj ((fBytes_length a).trans (fBytes_length b).symm) (by rw [beNat_fBytes, beNat_fBytes, h])⟩

theorem fEqual_iff_res (a b : Element) : fEqual a b = true ↔ a.res = b.res :=
  (fEqual_iff_val a b).trans ⟨fun h => by simp only [Element.res, h], val_inj_res⟩

/-- On canonical Elements, exactly when the limbs are equal (10_state.md R22). -/
theorem fEqual_iff {a b : Element} (ha : a.Canonical) (hb : b.Canonical) : fEqual a b = true ↔ a = b :=
  (fEqual_iff_val a b).trans ⟨eq_of_val ha hb, fun h => by rw [h]⟩

/-- `FIsZero(a)` is 1 exactly when the residue is 0 (40_field_primitives.md R115). -/
theorem fIsZero_iff_val (a : Element) : fIsZero a = true ↔ a.val = 0 := by
  rw [fIsZero, beq_iff_eq, xorAccumulate_eq_zero (u := fBytes a) (v := List.replicate 32 0)
    ((fBytes_length a).trans (List.length_replicate ..).symm)]
  have hz : beNat (List.replicate 32 (0 : Byte)) = 0 := by decide
  constructor
  · rintro ⟨-, h⟩; rw [← beNat_fBytes, h, hz]
  · intro h; exact ⟨Eq.refl (0 : Byte), beNat_inj ((fBytes_length a).trans (List.length_replicate ..).symm) (by rw [beNat_fBytes, h, hz])⟩

theorem fIsZero_iff {a : Element} (ha : a.Canonical) : fIsZero a = true ↔ a = ZERO := by
  rw [fIsZero_iff_val, show (0 : Nat) = ZERO.val by decide +kernel]
  exact ⟨eq_of_val ha ZERO_canonical, fun h => by rw [h]⟩

end Sys2Proof.Machine
end

