-- ==== Sys2Proof/Laws/Chain.lean ====
section
/-! SUPPORT. What a chain computes: the input's residue to the chain's exponent (42_field_inv_sqrt.md R164, R165). -/

namespace Sys2Proof.Machine

theorem sqrTimes_canonical (k : Nat) {a : Element} (ha : a.Canonical) : (sqrTimes k a).Canonical := by
  induction k with
  | zero => exact ha
  | succ k ih => exact montSqr_canonical ih

theorem sqrTimes_res (k : Nat) {a : Element} (ha : a.Canonical) : (sqrTimes k a).res = a.res ^ 2 ^ k := by
  induction k with
  | zero => simp [sqrTimes]
  | succ k ih => rw [sqrTimes, montSqr_res (sqrTimes_canonical k ha), ih, ← pow_mul, pow_succ]

/-- Every step of a chain names values that are there: the input or an earlier step, `n` values standing before the
first step. -/
def WellNamed : Nat → List ChainStep → Prop
  | _, [] => True
  | n, st :: rest => st.src < n ∧ (∀ j ∈ st.times, j < n) ∧ WellNamed (n + 1) rest

/-- The values of a chain and their exponents, step by step: each value is canonical and represents the input's
residue to its exponent (42_field_inv_sqrt.md R164). -/
theorem chainValues_res {x : Element} (c : List ChainStep) (vs : List Element) (es : List Nat) (hn : WellNamed vs.length c)
    (hl : vs.length = es.length)
    (h : ∀ k (hv : k < vs.length) (he : k < es.length), vs[k].Canonical ∧ vs[k].res = x.res ^ es[k]) :
    (chainValues c vs).length = (chainExponents c es).length ∧
    ∀ k (hv : k < (chainValues c vs).length) (he : k < (chainExponents c es).length),
      (chainValues c vs)[k].Canonical ∧ (chainValues c vs)[k].res = x.res ^ (chainExponents c es)[k] := by
  induction c generalizing vs es with
  | nil => exact ⟨hl, h⟩
  | cons st rest ih =>
    obtain ⟨hs, ht, hr⟩ := hn
    simp only [chainValues, chainExponents]
    apply ih
    · simpa using hr
    · simp [hl]
    · have hg : vs.getD st.src ZERO = vs[st.src] := by simp [List.getD, hs]
      have heg : es.getD st.src 0 = es[st.src]'(hl ▸ hs) := by simp [List.getD, hl ▸ hs]
      obtain ⟨c1, r1⟩ := h st.src hs (hl ▸ hs)
      have new : (st.value vs).Canonical ∧ (st.value vs).res = x.res ^ st.exponent es := by
        unfold ChainStep.value ChainStep.exponent
        cases hj : st.times with
        | none =>
          simp only [hg, heg]
          exact ⟨sqrTimes_canonical _ c1, by rw [sqrTimes_res _ c1, r1, ← pow_mul]⟩
        | some j =>
          have hjn : j < vs.length := ht j hj
          obtain ⟨c2, r2⟩ := h j hjn (hl ▸ hjn)
          have hg2 : vs.getD j ZERO = vs[j] := by simp [List.getD, hjn]
          have heg2 : es.getD j 0 = es[j]'(hl ▸ hjn) := by simp [List.getD, hl ▸ hjn]
          simp only [hg, heg, hg2, heg2]
          exact ⟨montMul_canonical _ c2, by rw [montMul_res _ c2, sqrTimes_res _ c1, r1, r2, ← pow_mul, ← pow_add]⟩
      intro k hv he
      rw [List.getElem_append, List.getElem_append]
      split
      · next hk =>
        rw [dif_pos (hl ▸ hk)]
        exact h k hk (hl ▸ hk)
      · next hk =>
        rw [dif_neg (hl ▸ hk)]
        simpa using new

theorem runChain_res {x : Element} (hx : x.Canonical) (c : List ChainStep) (hn : WellNamed 1 c) :
    (runChain c x).Canonical ∧ (runChain c x).res = x.res ^ chainExponent c := by
  obtain ⟨hl, h⟩ := chainValues_res (x := x) c [x] [1] hn rfl (by
    intro k hv he
    have : k = 0 := by simpa using hv
    subst this
    simpa using hx)
  have hpos : 0 < (chainValues c [x]).length := by
    have : ∀ (c : List ChainStep) (vs : List Element), 0 < vs.length → 0 < (chainValues c vs).length := by
      intro c
      induction c with
      | nil => intro vs h; exact h
      | cons st rest ih => intro vs h; exact ih _ (by simp)
    exact this c [x] (by simp)
  have e1 : runChain c x = (chainValues c [x])[(chainValues c [x]).length - 1]'(by omega) := by
    rw [runChain, List.getLastD_eq_getLast?, List.getLast?_eq_getElem?, List.getElem?_eq_getElem (by omega)]; rfl
  have e2 : chainExponent c = (chainExponents c [1])[(chainValues c [x]).length - 1]'(by omega) := by
    rw [chainExponent, List.getLastD_eq_getLast?, List.getLast?_eq_getElem?, List.getElem?_eq_getElem (by omega)]
    simp only [Option.getD_some, hl]
  rw [e1, e2]
  exact h _ _ _

/-- `FInvert(x)` represents `val(x)^(p−2)` (42_field_inv_sqrt.md R160). -/
theorem fInvert_res {x : Element} (hx : x.Canonical) : (fInvert x).Canonical ∧ (fInvert x).res = x.res ^ (P - 2) := by
  have := runChain_res hx invertChain (by simp [invertChain, WellNamed])
  rwa [show chainExponent invertChain = P - 2 by decide +kernel] at this

/-- `SqrtCandidate(x)` represents `val(x)^((p+1)/4)` (42_field_inv_sqrt.md R162). -/
theorem sqrtCandidate_res {x : Element} (hx : x.Canonical) :
    (sqrtCandidate x).Canonical ∧ (sqrtCandidate x).res = x.res ^ ((P + 1) / 4) := by
  have := runChain_res hx sqrtChain (by simp [sqrtChain, WellNamed])
  rwa [show chainExponent sqrtChain = (P + 1) / 4 by decide +kernel] at this

end Sys2Proof.Machine
end

