-- ==== Sys2Proof/Laws/Decode.lean ====
section
/-! SUPPORT. The five fields and the word they spell, and the index fields and the operands they name
(30_encoding.md R71, R72). -/

namespace Sys2Proof

/-- The word a list of fields spells, as a number (30_encoding.md R71). -/
theorem toWord_toNat (f : Fields) :
    f.toWord.toNat =
      f.op.toNat * 2 ^ 24 + f.rd.toNat * 2 ^ 20 + f.ra.toNat * 2 ^ 16 + f.rb.toNat * 2 ^ 12 + f.zero.toNat := by
  have h2 := f.rd.isLt
  have h3 := f.ra.isLt
  have h4 := f.rb.isLt
  have h5 := f.zero.isLt
  rw [Fields.toWord, BitVec.toNat_append, ← Nat.shiftLeft_add_eq_or_of_lt h5, BitVec.toNat_append,
    ← Nat.shiftLeft_add_eq_or_of_lt h4, BitVec.toNat_append, ← Nat.shiftLeft_add_eq_or_of_lt h3, BitVec.toNat_append,
    ← Nat.shiftLeft_add_eq_or_of_lt h2]
  simp only [Nat.shiftLeft_eq]
  omega

/-- Cutting the word gives the fields back. -/
theorem ofWord_toWord (f : Fields) : Fields.ofWord f.toWord = f := by
  have h := toWord_toNat f
  have h1 := f.op.isLt
  have h2 := f.rd.isLt
  have h3 := f.ra.isLt
  have h4 := f.rb.isLt
  have h5 := f.zero.isLt
  cases f with
  | mk op rd ra rb z =>
    simp only [Fields.ofWord, Fields.mk.injEq]
    dsimp only at *
    refine ⟨?_, ?_, ?_, ?_, ?_⟩ <;> apply BitVec.eq_of_toNat_eq <;>
      rw [BitVec.extractLsb'_toNat, h, Nat.shiftRight_eq_div_pow] <;> omega

/-- Laying out the fields of a word gives the word back. -/
theorem toWord_ofWord (w : Word) : (Fields.ofWord w).toWord = w := by
  apply BitVec.eq_of_toNat_eq
  rw [toWord_toNat]
  have := w.isLt
  simp only [Fields.ofWord, BitVec.extractLsb'_toNat, Nat.shiftRight_eq_div_pow]
  omega

/-- Decoding a word laid out from fields is decoding the fields. -/
theorem decode_toWord (f : Fields) : decode f.toWord = f.decode := by rw [decode, ofWord_toWord]

/-! ### Index fields -/

@[simp] theorem eIndex_ofNat (i : EReg) : eIndex (.ofNat 4 i) = i := by revert i; decide
@[simp] theorem pIndex_ofNat (i : PReg) : pIndex (.ofNat 4 i) = i := by revert i; decide
@[simp] theorem bIndex_ofNat (i : BReg) : bIndex (.ofNat 4 i) = i := by revert i; decide

theorem ofNat_eIndex (x : BitVec 4) : .ofNat 4 (eIndex x) = x := by revert x; decide
theorem ofNat_pIndex {x : BitVec 4} (h : x.toNat < NPREG) : .ofNat 4 (pIndex x) = x := by revert x; decide
theorem ofNat_bIndex {x : BitVec 4} (h : x.toNat < NBUF) : .ofNat 4 (bIndex x) = x := by revert x; decide

/-! ### The opcode-table numbering -/

/-- A 32-bit word is itself in the numbering of the opcode table. -/
theorem tableWord_toNat (w : Word) : tableWord 32 w.toNat = w := by
  apply BitVec.eq_of_toNat_eq
  have := w.isLt
  simp only [tableWord, BitVec.toNat_ofNat]
  omega

end Sys2Proof
end

