-- ==== Sys2Proof/Laws/State.lean ====
section
/-! SUPPORT. Each field of the state after each update of the state: one lemma per field per update. -/

namespace Sys2Proof.Machine

/-! ### writeE -/

@[simp] theorem writeE_e (s : State) (i : EReg) (v : Element) : (s.writeE i v).e = s.e.set i v := rfl
@[simp] theorem writeE_pt (s : State) (i : EReg) (v : Element) : (s.writeE i v).pt = s.pt := rfl
@[simp] theorem writeE_buf (s : State) (i : EReg) (v : Element) : (s.writeE i v).buf = s.buf := rfl
@[simp] theorem writeE_flag (s : State) (i : EReg) (v : Element) : (s.writeE i v).flag = s.flag := rfl
@[simp] theorem writeE_err (s : State) (i : EReg) (v : Element) : (s.writeE i v).err = s.err := rfl
@[simp] theorem writeE_gtv (s : State) (i : EReg) (v : Element) : (s.writeE i v).gtv = s.gtv := rfl
@[simp] theorem writeE_gt (s : State) (i : EReg) (v : Element) : (s.writeE i v).gt = s.gt := rfl
@[simp] theorem writeE_busy (s : State) (i : EReg) (v : Element) : (s.writeE i v).busy = s.busy := rfl
@[simp] theorem writeE_pending (s : State) (i : EReg) (v : Element) : (s.writeE i v).pending = s.pending := rfl
@[simp] theorem writeE_reply (s : State) (i : EReg) (v : Element) : (s.writeE i v).reply = s.reply := rfl

/-! ### writeP -/

@[simp] theorem writeP_e (s : State) (i : PReg) (v : Point) : (s.writeP i v).e = s.e := rfl
@[simp] theorem writeP_pt (s : State) (i : PReg) (v : Point) : (s.writeP i v).pt = s.pt.set i v := rfl
@[simp] theorem writeP_buf (s : State) (i : PReg) (v : Point) : (s.writeP i v).buf = s.buf := rfl
@[simp] theorem writeP_flag (s : State) (i : PReg) (v : Point) : (s.writeP i v).flag = s.flag := rfl
@[simp] theorem writeP_err (s : State) (i : PReg) (v : Point) : (s.writeP i v).err = s.err := rfl
@[simp] theorem writeP_gtv (s : State) (i : PReg) (v : Point) : (s.writeP i v).gtv = s.gtv := rfl
@[simp] theorem writeP_gt (s : State) (i : PReg) (v : Point) : (s.writeP i v).gt = s.gt := rfl
@[simp] theorem writeP_busy (s : State) (i : PReg) (v : Point) : (s.writeP i v).busy = s.busy := rfl
@[simp] theorem writeP_pending (s : State) (i : PReg) (v : Point) : (s.writeP i v).pending = s.pending := rfl
@[simp] theorem writeP_reply (s : State) (i : PReg) (v : Point) : (s.writeP i v).reply = s.reply := rfl

/-! ### writeBuf -/

@[simp] theorem writeBuf_e (s : State) (i : BReg) (v : Bytes) : (s.writeBuf i v).e = s.e := rfl
@[simp] theorem writeBuf_pt (s : State) (i : BReg) (v : Bytes) : (s.writeBuf i v).pt = s.pt := rfl
@[simp] theorem writeBuf_buf (s : State) (i : BReg) (v : Bytes) : (s.writeBuf i v).buf = Memory.replace s.buf i v := rfl
@[simp] theorem writeBuf_flag (s : State) (i : BReg) (v : Bytes) : (s.writeBuf i v).flag = s.flag := rfl
@[simp] theorem writeBuf_err (s : State) (i : BReg) (v : Bytes) : (s.writeBuf i v).err = s.err := rfl
@[simp] theorem writeBuf_gtv (s : State) (i : BReg) (v : Bytes) : (s.writeBuf i v).gtv = s.gtv := rfl
@[simp] theorem writeBuf_gt (s : State) (i : BReg) (v : Bytes) : (s.writeBuf i v).gt = s.gt := rfl
@[simp] theorem writeBuf_busy (s : State) (i : BReg) (v : Bytes) : (s.writeBuf i v).busy = s.busy := rfl
@[simp] theorem writeBuf_pending (s : State) (i : BReg) (v : Bytes) : (s.writeBuf i v).pending = s.pending := rfl
@[simp] theorem writeBuf_reply (s : State) (i : BReg) (v : Bytes) : (s.writeBuf i v).reply = s.reply := rfl

/-! ### setFlag -/

@[simp] theorem setFlag_e (s : State) (b : Bool) : (s.setFlag b).e = s.e := rfl
@[simp] theorem setFlag_pt (s : State) (b : Bool) : (s.setFlag b).pt = s.pt := rfl
@[simp] theorem setFlag_buf (s : State) (b : Bool) : (s.setFlag b).buf = s.buf := rfl
@[simp] theorem setFlag_flag (s : State) (b : Bool) : (s.setFlag b).flag = b := rfl
@[simp] theorem setFlag_err (s : State) (b : Bool) : (s.setFlag b).err = s.err := rfl
@[simp] theorem setFlag_gtv (s : State) (b : Bool) : (s.setFlag b).gtv = s.gtv := rfl
@[simp] theorem setFlag_gt (s : State) (b : Bool) : (s.setFlag b).gt = s.gt := rfl
@[simp] theorem setFlag_busy (s : State) (b : Bool) : (s.setFlag b).busy = s.busy := rfl
@[simp] theorem setFlag_pending (s : State) (b : Bool) : (s.setFlag b).pending = s.pending := rfl
@[simp] theorem setFlag_reply (s : State) (b : Bool) : (s.setFlag b).reply = s.reply := rfl

/-! ### setErr -/

@[simp] theorem setErr_e (s : State) (c : BitVec 4) : (s.setErr c).e = s.e := rfl
@[simp] theorem setErr_pt (s : State) (c : BitVec 4) : (s.setErr c).pt = s.pt := rfl
@[simp] theorem setErr_buf (s : State) (c : BitVec 4) : (s.setErr c).buf = s.buf := rfl
@[simp] theorem setErr_flag (s : State) (c : BitVec 4) : (s.setErr c).flag = s.flag := rfl
@[simp] theorem setErr_err (s : State) (c : BitVec 4) : (s.setErr c).err = c := rfl
@[simp] theorem setErr_gtv (s : State) (c : BitVec 4) : (s.setErr c).gtv = s.gtv := rfl
@[simp] theorem setErr_gt (s : State) (c : BitVec 4) : (s.setErr c).gt = s.gt := rfl
@[simp] theorem setErr_busy (s : State) (c : BitVec 4) : (s.setErr c).busy = s.busy := rfl
@[simp] theorem setErr_pending (s : State) (c : BitVec 4) : (s.setErr c).pending = s.pending := rfl
@[simp] theorem setErr_reply (s : State) (c : BitVec 4) : (s.setErr c).reply = s.reply := rfl

/-! ### setTable -/

@[simp] theorem setTable_e (s : State) (g : GenTable) : (s.setTable g).e = s.e := rfl
@[simp] theorem setTable_pt (s : State) (g : GenTable) : (s.setTable g).pt = s.pt := rfl
@[simp] theorem setTable_buf (s : State) (g : GenTable) : (s.setTable g).buf = s.buf := rfl
@[simp] theorem setTable_flag (s : State) (g : GenTable) : (s.setTable g).flag = s.flag := rfl
@[simp] theorem setTable_err (s : State) (g : GenTable) : (s.setTable g).err = s.err := rfl
@[simp] theorem setTable_gtv (s : State) (g : GenTable) : (s.setTable g).gtv = true := rfl
@[simp] theorem setTable_gt (s : State) (g : GenTable) : (s.setTable g).gt = g := rfl
@[simp] theorem setTable_busy (s : State) (g : GenTable) : (s.setTable g).busy = s.busy := rfl
@[simp] theorem setTable_pending (s : State) (g : GenTable) : (s.setTable g).pending = s.pending := rfl
@[simp] theorem setTable_reply (s : State) (g : GenTable) : (s.setTable g).reply = s.reply := rfl

/-! ### answer -/

@[simp] theorem answer_e (s : State) (r : Reply) : (s.answer r).e = s.e := rfl
@[simp] theorem answer_pt (s : State) (r : Reply) : (s.answer r).pt = s.pt := rfl
@[simp] theorem answer_buf (s : State) (r : Reply) : (s.answer r).buf = s.buf := rfl
@[simp] theorem answer_flag (s : State) (r : Reply) : (s.answer r).flag = s.flag := rfl
@[simp] theorem answer_err (s : State) (r : Reply) : (s.answer r).err = s.err := rfl
@[simp] theorem answer_gtv (s : State) (r : Reply) : (s.answer r).gtv = s.gtv := rfl
@[simp] theorem answer_gt (s : State) (r : Reply) : (s.answer r).gt = s.gt := rfl
@[simp] theorem answer_busy (s : State) (r : Reply) : (s.answer r).busy = s.busy := rfl
@[simp] theorem answer_pending (s : State) (r : Reply) : (s.answer r).pending = s.pending := rfl
@[simp] theorem answer_reply (s : State) (r : Reply) : (s.answer r).reply = r := rfl

/-! ### respond -/

@[simp] theorem respond_e (s : State) : (s.respond).e = s.e := rfl
@[simp] theorem respond_pt (s : State) : (s.respond).pt = s.pt := rfl
@[simp] theorem respond_buf (s : State) : (s.respond).buf = s.buf := rfl
@[simp] theorem respond_flag (s : State) : (s.respond).flag = s.flag := rfl
@[simp] theorem respond_err (s : State) : (s.respond).err = s.err := rfl
@[simp] theorem respond_gtv (s : State) : (s.respond).gtv = s.gtv := rfl
@[simp] theorem respond_gt (s : State) : (s.respond).gt = s.gt := rfl
@[simp] theorem respond_busy (s : State) : (s.respond).busy = s.busy := rfl
@[simp] theorem respond_pending (s : State) : (s.respond).pending = s.pending := rfl
@[simp] theorem respond_reply (s : State) : (s.respond).reply = .response s.err s.flag := rfl

/-! ### dropPending -/

@[simp] theorem dropPending_e (s : State) (rest : List Transaction) : (s.dropPending rest).e = s.e := rfl
@[simp] theorem dropPending_pt (s : State) (rest : List Transaction) : (s.dropPending rest).pt = s.pt := rfl
@[simp] theorem dropPending_buf (s : State) (rest : List Transaction) : (s.dropPending rest).buf = s.buf := rfl
@[simp] theorem dropPending_flag (s : State) (rest : List Transaction) : (s.dropPending rest).flag = s.flag := rfl
@[simp] theorem dropPending_err (s : State) (rest : List Transaction) : (s.dropPending rest).err = s.err := rfl
@[simp] theorem dropPending_gtv (s : State) (rest : List Transaction) : (s.dropPending rest).gtv = s.gtv := rfl
@[simp] theorem dropPending_gt (s : State) (rest : List Transaction) : (s.dropPending rest).gt = s.gt := rfl
@[simp] theorem dropPending_busy (s : State) (rest : List Transaction) : (s.dropPending rest).busy = s.busy := rfl
@[simp] theorem dropPending_pending (s : State) (rest : List Transaction) : (s.dropPending rest).pending = rest := rfl
@[simp] theorem dropPending_reply (s : State) (rest : List Transaction) : (s.dropPending rest).reply = s.reply := rfl

/-! ### issueNext -/

@[simp] theorem issueNext_e (s : State) (w : Word) : (s.issueNext w).e = s.e := rfl
@[simp] theorem issueNext_pt (s : State) (w : Word) : (s.issueNext w).pt = s.pt := rfl
@[simp] theorem issueNext_buf (s : State) (w : Word) : (s.issueNext w).buf = s.buf := rfl
@[simp] theorem issueNext_flag (s : State) (w : Word) : (s.issueNext w).flag = s.flag := rfl
@[simp] theorem issueNext_err (s : State) (w : Word) : (s.issueNext w).err = s.err := rfl
@[simp] theorem issueNext_gtv (s : State) (w : Word) : (s.issueNext w).gtv = s.gtv := rfl
@[simp] theorem issueNext_gt (s : State) (w : Word) : (s.issueNext w).gt = s.gt := rfl
@[simp] theorem issueNext_busy (s : State) (w : Word) : (s.issueNext w).busy = s.busy := rfl
@[simp] theorem issueNext_pending (s : State) (w : Word) : (s.issueNext w).pending = .issue w :: s.pending := rfl
@[simp] theorem issueNext_reply (s : State) (w : Word) : (s.issueNext w).reply = s.reply := rfl

/-! ### setBusy -/

@[simp] theorem setBusy_e (s : State) (b : Bool) : (s.setBusy b).e = s.e := rfl
@[simp] theorem setBusy_pt (s : State) (b : Bool) : (s.setBusy b).pt = s.pt := rfl
@[simp] theorem setBusy_buf (s : State) (b : Bool) : (s.setBusy b).buf = s.buf := rfl
@[simp] theorem setBusy_flag (s : State) (b : Bool) : (s.setBusy b).flag = s.flag := rfl
@[simp] theorem setBusy_err (s : State) (b : Bool) : (s.setBusy b).err = s.err := rfl
@[simp] theorem setBusy_gtv (s : State) (b : Bool) : (s.setBusy b).gtv = s.gtv := rfl
@[simp] theorem setBusy_gt (s : State) (b : Bool) : (s.setBusy b).gt = s.gt := rfl
@[simp] theorem setBusy_busy (s : State) (b : Bool) : (s.setBusy b).busy = b := rfl
@[simp] theorem setBusy_pending (s : State) (b : Bool) : (s.setBusy b).pending = s.pending := rfl
@[simp] theorem setBusy_reply (s : State) (b : Bool) : (s.setBusy b).reply = s.reply := rfl

end Sys2Proof.Machine
end

