-- ==== Sys2Proof/Laws/Memory.lean ====
section
/-! SUPPORT. The registers and the memory: a read after a write to the same place gives the value written, a write
leaves every other place alone, and every memory operation keeps `Memory.wf`. -/

namespace Sys2Proof.Machine

/-! ### Registers -/

@[simp] theorem readE_writeE_self (s : State) (i : EReg) (v : Element) : (s.writeE i v).readE i = v := by
  simp [State.readE, State.writeE]

theorem readE_writeE_of_ne (s : State) {i j : EReg} (v : Element) (h : j ≠ i) : (s.writeE i v).readE j = s.readE j := by
  simp [State.readE, State.writeE, Vector.getElem_set_ne, Fin.val_ne_of_ne h.symm]

@[simp] theorem readP_writeP_self (s : State) (i : PReg) (v : Point) : (s.writeP i v).readP i = v := by
  simp [State.readP, State.writeP]

theorem readP_writeP_of_ne (s : State) {i j : PReg} (v : Point) (h : j ≠ i) : (s.writeP i v).readP j = s.readP j := by
  simp [State.readP, State.writeP, Vector.getElem_set_ne, Fin.val_ne_of_ne h.symm]

/-! ### Memory -/

theorem owner_bufferCells {i : BReg} {v : Bytes} (hv : v.length ≤ BUFMAX) {c : Host.Cell}
    (h : c ∈ Memory.bufferCells i v) : Memory.owner c = i.val := by
  obtain ⟨k, hk, rfl⟩ := List.mem_mapIdx.mp h
  simp only [BUFMAX] at hv
  simp only [Memory.owner]; omega

theorem bufferCells_bytes (i : BReg) (v : Bytes) : (Memory.bufferCells i v).map (·.2) = v := by
  apply List.ext_getElem <;> simp [Memory.bufferCells]

theorem bufferCells_filter {i : BReg} {v : Bytes} (hv : v.length ≤ BUFMAX) (f : Nat → Bool) :
    (Memory.bufferCells i v).filter (fun c => f (Memory.owner c)) = if f i.val then Memory.bufferCells i v else [] := by
  split
  · rename_i h
    exact List.filter_eq_self.mpr fun c hc => by rw [owner_bufferCells hv hc]; exact h
  · rename_i h
    exact List.filter_eq_nil_iff.mpr fun c hc => by rw [owner_bufferCells hv hc]; exact h

theorem buffer_replace_self (m : Memory) (i : BReg) {v : Bytes} (hv : v.length ≤ BUFMAX) :
    Memory.buffer (Memory.replace m i v) i = v := by
  have h := bufferCells_filter (i := i) hv (· == i.val)
  have lo : (m.filter fun c => decide (Memory.owner c < i.val)).filter (fun c => Memory.owner c == i.val) = [] := by
    simp; omega
  have hi : (m.filter fun c => decide (i.val < Memory.owner c)).filter (fun c => Memory.owner c == i.val) = [] := by
    simp; omega
  simp only [beq_self_eq_true, ↓reduceIte] at h
  simp only [Memory.buffer, Memory.replace, List.filter_append, lo, hi, h, List.nil_append, List.append_nil,
    bufferCells_bytes]

theorem buffer_replace_of_ne (m : Memory) {i j : BReg} {v : Bytes} (hv : v.length ≤ BUFMAX) (h : j ≠ i) :
    Memory.buffer (Memory.replace m i v) j = Memory.buffer m j := by
  have hn : i.val ≠ j.val := Fin.val_ne_of_ne h.symm
  have e := bufferCells_filter (i := i) hv (· == j.val)
  rw [if_neg (by simpa using hn)] at e
  simp only [Memory.buffer, Memory.replace, List.filter_append, e, List.append_nil, List.filter_filter]
  congr 1
  rcases Nat.lt_or_gt_of_ne hn with hl | hl
  · rw [List.filter_eq_nil_iff.mpr (by simp; omega), List.nil_append]
    apply List.filter_congr; intro c _; simp; omega
  · rw [List.filter_eq_nil_iff (l := m) (p := fun c => _ && decide (i.val < Memory.owner c)) |>.mpr (by simp; omega),
      List.append_nil]
    apply List.filter_congr; intro c _; simp; omega

/-- Replacing a buffer twice is replacing it once. -/
theorem replace_replace (m : Memory) (i : BReg) {v : Bytes} (hv : v.length ≤ BUFMAX) (w : Bytes) :
    Memory.replace (Memory.replace m i v) i w = Memory.replace m i w := by
  have e1 := bufferCells_filter (i := i) hv (fun n => decide (n < i.val))
  have e2 := bufferCells_filter (i := i) hv (fun n => decide (i.val < n))
  simp only [Nat.lt_irrefl, decide_false, Bool.false_eq_true, ↓reduceIte] at e1 e2
  simp only [Memory.replace, List.filter_append, e1, e2, List.append_nil, List.filter_filter, Bool.and_self]
  congr 1
  · congr 1
    rw [List.filter_eq_nil_iff (l := m) (p := fun c => decide (Memory.owner c < i.val) && decide (i.val < Memory.owner c))
      |>.mpr (by simp; omega), List.append_nil]
  · rw [List.filter_eq_nil_iff (l := m) (p := fun c => decide (i.val < Memory.owner c) && decide (Memory.owner c < i.val))
      |>.mpr (by simp; omega), List.nil_append]

theorem readBuf_writeBuf_self (s : State) (i : BReg) {v : Bytes} (hv : v.length ≤ BUFMAX) :
    (s.writeBuf i v).readBuf i = v := buffer_replace_self s.buf i hv

theorem readBuf_writeBuf_of_ne (s : State) {i j : BReg} {v : Bytes} (hv : v.length ≤ BUFMAX) (h : j ≠ i) :
    (s.writeBuf i v).readBuf j = s.readBuf j := buffer_replace_of_ne s.buf hv h

/-! ### Writing twice, and `ERR` beside a write -/

@[simp] theorem writeE_writeE_self (s : State) (i : EReg) (u v : Element) :
    (s.writeE i u).writeE i v = s.writeE i v := by simp [State.writeE]

@[simp] theorem writeP_writeP_self (s : State) (i : PReg) (u v : Point) :
    (s.writeP i u).writeP i v = s.writeP i v := by simp [State.writeP]

theorem writeBuf_writeBuf_self (s : State) (i : BReg) {u : Bytes} (hu : u.length ≤ BUFMAX) (v : Bytes) :
    (s.writeBuf i u).writeBuf i v = s.writeBuf i v := by simp [State.writeBuf, replace_replace s.buf i hu v]

@[simp] theorem setErr_setErr (s : State) (c c' : BitVec 4) : (s.setErr c).setErr c' = s.setErr c' := rfl
theorem writeE_setErr (s : State) (c : BitVec 4) (i : EReg) (v : Element) :
    (s.setErr c).writeE i v = (s.writeE i v).setErr c := rfl
theorem writeP_setErr (s : State) (c : BitVec 4) (i : PReg) (v : Point) :
    (s.setErr c).writeP i v = (s.writeP i v).setErr c := rfl
theorem writeBuf_setErr (s : State) (c : BitVec 4) (i : BReg) (v : Bytes) :
    (s.setErr c).writeBuf i v = (s.writeBuf i v).setErr c := rfl

/-! ### The canonical form -/

/-- Two memories in the form whose bytes agree at every address are equal: the form is canonical. -/
theorem memory_ext {m m' : Memory} (hm : Memory.wf m) (hm' : Memory.wf m')
    (h : ∀ i off, Memory.byte? m i off = Memory.byte? m' i off) : m = m' := by
  have e : ∀ i, Memory.buffer m i = Memory.buffer m' i := fun i => List.ext_getElem? (h i)
  rw [hm.2, hm'.2]
  simp only [Memory.listing, e]

/-- Replacing a buffer of a listing lists the new buffer in its place. -/
theorem replace_listing {m : Memory} (hm : Memory.wf m) (i : BReg) {v : Bytes} (hv : v.length ≤ BUFMAX) :
    Memory.replace m i v = Memory.listing (Memory.replace m i v) := by
  have b : ∀ j, Memory.buffer (Memory.replace m i v) j = if j = i then v else Memory.buffer m j := by
    intro j; split
    · rename_i h; subst h; exact buffer_replace_self m j hv
    · rename_i h; exact buffer_replace_of_ne m hv h
  have f : ∀ (j : BReg) (g : Nat → Bool), (Memory.bufferCells j (Memory.buffer m j)).filter (fun c => g (Memory.owner c)) =
      if g j.val then Memory.bufferCells j (Memory.buffer m j) else [] := fun j g => bufferCells_filter (hm.1 j) g
  have lo := f 0 (fun n => decide (n < i.val)); have lo1 := f 1 (fun n => decide (n < i.val))
  have lo2 := f 2 (fun n => decide (n < i.val)); have lo3 := f 3 (fun n => decide (n < i.val))
  have hi := f 0 (fun n => decide (i.val < n)); have hi1 := f 1 (fun n => decide (i.val < n))
  have hi2 := f 2 (fun n => decide (i.val < n)); have hi3 := f 3 (fun n => decide (i.val < n))
  simp only [Memory.listing, b]
  rw [show Memory.replace m i v = Memory.replace (Memory.listing m) i v by rw [← hm.2]]
  simp only [Memory.replace, Memory.listing, List.filter_append, lo, lo1, lo2, lo3, hi, hi1, hi2, hi3]
  have v0 : (0 : BReg).val = 0 := rfl
  have v1 : (1 : BReg).val = 1 := rfl
  have v2 : (2 : BReg).val = 2 := rfl
  have v3 : (3 : BReg).val = 3 := rfl
  obtain rfl | rfl | rfl | rfl : i = 0 ∨ i = 1 ∨ i = 2 ∨ i = 3 := by
    have h : i.val < 4 := i.isLt
    simp only [Fin.ext_iff, v0, v1, v2, v3]; omega
  all_goals simp [NBUF, Fin.ext_iff]

/-- Replacing a buffer by a string of at most `BUFMAX` bytes keeps the form. -/
theorem replace_wf {m : Memory} (i : BReg) {v : Bytes} (hm : Memory.wf m) (hv : v.length ≤ BUFMAX) :
    Memory.wf (Memory.replace m i v) := by
  refine ⟨fun j => ?_, replace_listing hm i hv⟩
  by_cases h : j = i
  · subst h; rw [buffer_replace_self m j hv]; exact hv
  · rw [buffer_replace_of_ne m hv h]; exact hm.1 j

/-- Reset memory has the form. -/
theorem reset_wf : Memory.wf State.reset.buf := by decide

/-- A defined `MemRead` returns exactly the bytes asked for. -/
theorem memRead_length {m : Memory} {i : BReg} {off n : Nat} {v : Bytes} (h : Memory.memRead m i off n = some v) :
    v.length = n := by
  unfold Memory.memRead at h
  split at h
  · obtain rfl := Option.some.inj h
    simp; omega
  · cases h

/-- Reading a whole buffer is `MemRead((i, 0), len(buf[i]))`. -/
theorem memRead_whole (m : Memory) (i : BReg) :
    Memory.memRead m i 0 (Memory.buffer m i).length = some (Memory.buffer m i) := by
  simp [Memory.memRead]

/-- The addresses of one buffer's cells rise strictly. -/
theorem bufferCells_sorted (i : BReg) (v : Bytes) : (Memory.bufferCells i v).Pairwise fun a b => a.1 < b.1 := by
  rw [List.pairwise_iff_getElem]
  intro a b ha hb hab
  simp [Memory.bufferCells]
  omega

/-- The addresses of a memory in the form rise strictly. -/
theorem wf_sorted {m : Memory} (hm : Memory.wf m) : m.Pairwise fun a b => a.1 < b.1 := by
  have r : ∀ (i j : BReg) (a b : Host.Cell), i < j → a ∈ Memory.bufferCells i (Memory.buffer m i) →
      b ∈ Memory.bufferCells j (Memory.buffer m j) → a.1 < b.1 := by
    intro i j a b hij ha hb
    have h1 := owner_bufferCells (hm.1 i) ha
    have h2 := owner_bufferCells (hm.1 j) hb
    simp only [Memory.owner] at h1 h2
    have : i.val < j.val := hij
    omega
  rw [hm.2]
  simp only [Memory.listing, List.pairwise_append, bufferCells_sorted, List.mem_append, true_and]
  refine ⟨⟨fun a ha b hb => r 0 1 a b (by decide) ha hb, ?_⟩, ?_⟩
  · rintro a (ha | ha) b hb
    · exact r 0 2 a b (by decide) ha hb
    · exact r 1 2 a b (by decide) ha hb
  · rintro a ((ha | ha) | ha) b hb
    · exact r 0 3 a b (by decide) ha hb
    · exact r 1 3 a b (by decide) ha hb
    · exact r 2 3 a b (by decide) ha hb

end Sys2Proof.Machine
end

