-- ==== Sys2Proof/Laws/Claims.lean ====
section
/-! SUPPORT. The words the claims are written in, said of the model's own functions: the frame of each update of the
state, the byte strings of the spec's formulas, and the words spelled by fields. -/

namespace Sys2Proof.Claims

open Sys2Proof Sys2Proof.Machine

/-! ### The frame of each way a command ends -/

theorem frame_setErr (s : State) (c : BitVec 4) : Frame s (s.setErr c) where
  elements _ _ := rfl
  points _ _ := rfl
  bytes _ _ _ := rfl
  flag _ := rfl
  table _ := ⟨rfl, rfl⟩
  host := ⟨rfl, rfl, rfl⟩

theorem frame_setFlag (s : State) (f : Bool) (c : BitVec 4) : Frame s ((s.setFlag f).setErr c) (flag := true) where
  elements _ _ := rfl
  points _ _ := rfl
  bytes _ _ _ := rfl
  flag h := nomatch h
  table _ := ⟨rfl, rfl⟩
  host := ⟨rfl, rfl, rfl⟩

theorem frame_writeE (s : State) (d : EReg) (v : Element) (c : BitVec 4) :
    Frame s ((s.writeE d v).setErr c) (e := [d]) where
  elements i h := readE_writeE_of_ne s v (by simpa using h)
  points _ _ := rfl
  bytes _ _ _ := rfl
  flag _ := rfl
  table _ := ⟨rfl, rfl⟩
  host := ⟨rfl, rfl, rfl⟩

theorem frame_setFlag_writeE (s : State) (f : Bool) (d : EReg) (v : Element) (c : BitVec 4) :
    Frame s (((s.setFlag f).writeE d v).setErr c) (e := [d]) (flag := true) where
  elements i h := readE_writeE_of_ne (s.setFlag f) v (by simpa using h)
  points _ _ := rfl
  bytes _ _ _ := rfl
  flag h := nomatch h
  table _ := ⟨rfl, rfl⟩
  host := ⟨rfl, rfl, rfl⟩

theorem frame_writeP (s : State) (d : PReg) (v : Point) (c : BitVec 4) :
    Frame s ((s.writeP d v).setErr c) (p := [d]) where
  elements _ _ := rfl
  points i h := readP_writeP_of_ne s v (by simpa using h)
  bytes _ _ _ := rfl
  flag _ := rfl
  table _ := ⟨rfl, rfl⟩
  host := ⟨rfl, rfl, rfl⟩

theorem frame_writeBuf (s : State) (d : BReg) {v : Bytes} (hv : v.length ≤ BUFMAX) (c : BitVec 4) :
    Frame s ((s.writeBuf d v).setErr c) (b := [d]) where
  elements _ _ := rfl
  points _ _ := rfl
  bytes i off h := by
    show (Memory.buffer (Memory.replace s.buf d v) i)[off]? = _
    rw [buffer_replace_of_ne _ hv (by simpa using h)]; rfl
  flag _ := rfl
  table _ := ⟨rfl, rfl⟩
  host := ⟨rfl, rfl, rfl⟩

/-! ### What the destination reads as after the command has ended -/

@[simp] theorem readE_of_writeE_setErr (s : State) (d : EReg) (v : Element) (c : BitVec 4) :
    ((s.writeE d v).setErr c).readE d = v := readE_writeE_self s d v
@[simp] theorem readE_of_setFlag_writeE_setErr (s : State) (f : Bool) (d : EReg) (v : Element) (c : BitVec 4) :
    (((s.setFlag f).writeE d v).setErr c).readE d = v := readE_writeE_self _ d v
@[simp] theorem readP_of_writeP_setErr (s : State) (d : PReg) (v : Point) (c : BitVec 4) :
    ((s.writeP d v).setErr c).readP d = v := readP_writeP_self s d v
theorem readBuf_of_writeBuf_setErr (s : State) (d : BReg) {v : Bytes} (hv : v.length ≤ BUFMAX) (c : BitVec 4) :
    ((s.writeBuf d v).setErr c).readBuf d = v := readBuf_writeBuf_self s d hv

/-! ### Byte strings -/

/-- The spec's integer of a byte string is the model's. -/
theorem bigEndian_eq (v : Bytes) : bigEndian v = beNat v := by
  unfold bigEndian
  suffices ∀ (v : Bytes) (n : Nat), v.foldl (fun n b => 256 * n + b.toNat) n = n * 256 ^ v.length + beNat v by
    simpa using this v 0
  intro v
  induction v with
  | nil => intro n; simp [beNat, leNat]
  | cons b v ih => intro n; rw [List.foldl_cons, ih, beNat_cons, List.length_cons, pow_succ]; ring

theorem encoding32_length (n : Nat) : (encoding32 n).length = 32 := by simp [encoding32]

theorem leNat_digits (n m : Nat) :
    leNat ((List.range m).map fun k => BitVec.ofNat 8 (n / 2 ^ (8 * k) % 256)) = n % 256 ^ m := by
  induction m with
  | zero => simp [leNat, Nat.mod_one]
  | succ m ih =>
    rw [List.range_succ, List.map_append, leNat_append, ih]
    simp only [List.length_map, List.length_range, List.map, leNat, BitVec.toNat_ofNat]
    rw [pow_mul, show (2 : Nat) ^ 8 = 256 by norm_num, Nat.mod_mod, Nat.pow_succ, Nat.mod_mul]; ring

/-- The spec's 32-byte encoding spells the integer it encodes. -/
theorem bigEndian_encoding32 {n : Nat} (h : n < 2 ^ 256) : bigEndian (encoding32 n) = n := by
  have e : (encoding32 n).reverse = (List.range 32).map fun k => BitVec.ofNat 8 (n / 2 ^ (8 * k) % 256) := by
    simp only [encoding32]
    rw [← List.map_reverse]; rfl
  rw [bigEndian_eq, beNat, e, leNat_digits, Nat.mod_eq_of_lt (by exact h)]

/-- What `FBytes` emits is the spec's encoding of the residue (40_field_primitives.md R112). -/
theorem fBytes_eq_encoding32 (a : Element) : fBytes a = encoding32 a.val := by
  apply beNat_inj ((fBytes_length a).trans (encoding32_length _).symm)
  rw [beNat_fBytes, ← bigEndian_eq, bigEndian_encoding32 (lt_trans (val_lt a) (by decide))]

/-! ### Words -/

/-- The word of the claims, as fields. -/
theorem kWord_eq {op rd ra rb : Nat} (hd : rd < 16) (ha : ra < 16) (hb : rb < 16) :
    kWord op rd ra rb = Fields.toWord ⟨.ofNat 8 op, .ofNat 4 rd, .ofNat 4 ra, .ofNat 4 rb, 0⟩ := by
  apply BitVec.eq_of_toNat_eq
  rw [toWord_toNat]
  simp only [kWord, BitVec.toNat_ofNat, show BitVec.toNat (0 : BitVec 12) = 0 from rfl]
  omega

end Sys2Proof.Claims
end

