-- ==== Sys2Proof/Laws/Inverse.lean ====
section
/-! SUPPORT. What the two chains compute, `p` being prime: the inverse of every Element but `ZERO`, and a square root
of every square (42_field_inv_sqrt.md R160, R162). -/

namespace Sys2Proof.Machine

/-- An Element other than `ZERO` times the chain's inverse is 1. -/
theorem fInvert_mul {x : Element} (hx : x.Canonical) (h : x ≠ ZERO) : x.res * (fInvert x).res = 1 := by
  have : Fact P.Prime := ⟨P_prime⟩
  have hr : x.res ≠ 0 := fun c => h ((res_eq_zero_iff hx).mp c)
  rw [(fInvert_res hx).2, ← pow_succ', show P - 2 + 1 = P - 1 by decide]
  exact ZMod.pow_card_sub_one_eq_one hr

/-- The candidate root is canonical, whether or not it is a root. -/
theorem fSqrt_canonical {x : Element} (hx : x.Canonical) : (fSqrt x).2.Canonical := (sqrtCandidate_res hx).1

/-- The root is declared one exactly when its square is the input. -/
theorem fSqrt_ok_iff {x : Element} (hx : x.Canonical) : (fSqrt x).1 = true ↔ (fSqrt x).2.res ^ 2 = x.res := by
  show fEqual (montSqr (sqrtCandidate x)) x = true ↔ (sqrtCandidate x).res ^ 2 = x.res
  rw [fEqual_iff_res, montSqr_res (sqrtCandidate_res hx).1]

/-- Of a square, the candidate is one of its two roots. -/
theorem fSqrt_root {x : Element} (hx : x.Canonical) {y : ZMod P} (hy : y ^ 2 = x.res) :
    (fSqrt x).2.res = y ∨ (fSqrt x).2.res = -y := by
  have : Fact P.Prime := ⟨P_prime⟩
  show (sqrtCandidate x).res = y ∨ (sqrtCandidate x).res = -y
  rw [← sq_eq_sq_iff_eq_or_eq_neg, (sqrtCandidate_res hx).2, ← hy, ← pow_mul, ← pow_mul,
    show 2 * ((P + 1) / 4 * 2) = (P - 1) + 2 by decide, pow_add]
  by_cases h0 : y = 0
  · rw [h0]; simp
  · rw [ZMod.pow_card_sub_one_eq_one h0, one_mul]

end Sys2Proof.Machine
end

