-- ==== Sys2Proof/Laws/Points.lean ====
section
/-! SUPPORT. What each function of the point layer leaves, said once (43_point_primitives.md R170 to R174, R179). -/

namespace Sys2Proof.Machine

/-- The curve relation of a Point, on residues. -/
theorem onCurve_iff (Q : Point) : Q.OnCurve ↔ Q.Y.res ^ 2 * Q.Z.res = Q.X.res ^ 3 + 7 * Q.Z.res ^ 3 := by
  show Q.Y.val ^ 2 * Q.Z.val % P = (Q.X.val ^ 3 + 7 * Q.Z.val ^ 3) % P ↔ _
  rw [← ZMod.natCast_eq_natCast_iff']
  push_cast
  rfl

theorem pointAdd_canonical {P1 P2 : Point} (h1 : P1.Canonical) (h2 : P2.Canonical) : (pointAdd P1 P2).Canonical := by
  unfold pointAdd
  extract_lets X1_1 Y1_1 Z1_1 X2_1 Y2_1 Z2_1 t0_1 t1_1 t2_1 t3_1 t4_1 t3_2 t4_2 t3_3 t4_3 X3_1 t4_4 X3_2 t4_5 X3_3 Y3_1 X3_4 Y3_2 Y3_3 X3_5 t0_2 t2_2 Z3_1 t1_2 Y3_4 X3_6 t2_3 X3_7 Y3_5 t1_3 Y3_6 t0_3 Z3_2 Z3_3
  have hX1_1 : X1_1.Canonical := h1.1
  have hY1_1 : Y1_1.Canonical := h1.2.1
  have hZ1_1 : Z1_1.Canonical := h1.2.2
  have hX2_1 : X2_1.Canonical := h2.1
  have hY2_1 : Y2_1.Canonical := h2.2.1
  have hZ2_1 : Z2_1.Canonical := h2.2.2
  have ht0_1 : t0_1.Canonical := montMul_canonical _ hX2_1
  have ht1_1 : t1_1.Canonical := montMul_canonical _ hY2_1
  have ht2_1 : t2_1.Canonical := montMul_canonical _ hZ2_1
  have ht3_1 : t3_1.Canonical := fAdd_canonical hX1_1 hY1_1
  have ht4_1 : t4_1.Canonical := fAdd_canonical hX2_1 hY2_1
  have ht3_2 : t3_2.Canonical := montMul_canonical _ ht4_1
  have ht4_2 : t4_2.Canonical := fAdd_canonical ht0_1 ht1_1
  have ht3_3 : t3_3.Canonical := fSub_canonical ht3_2 ht4_2
  have ht4_3 : t4_3.Canonical := fAdd_canonical hY1_1 hZ1_1
  have hX3_1 : X3_1.Canonical := fAdd_canonical hY2_1 hZ2_1
  have ht4_4 : t4_4.Canonical := montMul_canonical _ hX3_1
  have hX3_2 : X3_2.Canonical := fAdd_canonical ht1_1 ht2_1
  have ht4_5 : t4_5.Canonical := fSub_canonical ht4_4 hX3_2
  have hX3_3 : X3_3.Canonical := fAdd_canonical hX1_1 hZ1_1
  have hY3_1 : Y3_1.Canonical := fAdd_canonical hX2_1 hZ2_1
  have hX3_4 : X3_4.Canonical := montMul_canonical _ hY3_1
  have hY3_2 : Y3_2.Canonical := fAdd_canonical ht0_1 ht2_1
  have hY3_3 : Y3_3.Canonical := fSub_canonical hX3_4 hY3_2
  have hX3_5 : X3_5.Canonical := fAdd_canonical ht0_1 ht0_1
  have ht0_2 : t0_2.Canonical := fAdd_canonical hX3_5 ht0_1
  have ht2_2 : t2_2.Canonical := montMul_canonical _ ht2_1
  have hZ3_1 : Z3_1.Canonical := fAdd_canonical ht1_1 ht2_2
  have ht1_2 : t1_2.Canonical := fSub_canonical ht1_1 ht2_2
  have hY3_4 : Y3_4.Canonical := montMul_canonical _ hY3_3
  have hX3_6 : X3_6.Canonical := montMul_canonical _ hY3_4
  have ht2_3 : t2_3.Canonical := montMul_canonical _ ht1_2
  have hX3_7 : X3_7.Canonical := fSub_canonical ht2_3 hX3_6
  have hY3_5 : Y3_5.Canonical := montMul_canonical _ ht0_2
  have ht1_3 : t1_3.Canonical := montMul_canonical _ hZ3_1
  have hY3_6 : Y3_6.Canonical := fAdd_canonical ht1_3 hY3_5
  have ht0_3 : t0_3.Canonical := montMul_canonical _ ht3_3
  have hZ3_2 : Z3_2.Canonical := montMul_canonical _ ht4_5
  have hZ3_3 : Z3_3.Canonical := fAdd_canonical hZ3_2 ht0_3
  exact ⟨hX3_7, hY3_6, hZ3_3⟩

/-- The closed form of `PointAdd` on residues (43_point_primitives.md R170). -/
theorem pointAdd_res {P1 P2 : Point} (h1 : P1.Canonical) (h2 : P2.Canonical) :
    (pointAdd P1 P2).X.res = (P1.X.res * P2.Y.res + P2.X.res * P1.Y.res) * (P1.Y.res * P2.Y.res - 21 * P1.Z.res * P2.Z.res) -
        21 * (P1.Y.res * P2.Z.res + P2.Y.res * P1.Z.res) * (P1.X.res * P2.Z.res + P2.X.res * P1.Z.res) ∧
    (pointAdd P1 P2).Y.res = (P1.Y.res * P2.Y.res + 21 * P1.Z.res * P2.Z.res) * (P1.Y.res * P2.Y.res - 21 * P1.Z.res * P2.Z.res) +
        3 * 21 * P1.X.res * P2.X.res * (P1.X.res * P2.Z.res + P2.X.res * P1.Z.res) ∧
    (pointAdd P1 P2).Z.res = (P1.Y.res * P2.Z.res + P2.Y.res * P1.Z.res) * (P1.Y.res * P2.Y.res + 21 * P1.Z.res * P2.Z.res) +
        3 * P1.X.res * P2.X.res * (P1.X.res * P2.Y.res + P2.X.res * P1.Y.res) := by
  obtain ⟨x1, y1, z1⟩ := h1
  obtain ⟨x2, y2, z2⟩ := h2
  have a := @fAdd_canonical
  have s := @fSub_canonical
  have m := @montMul_canonical
  have b := B3_canonical
  unfold pointAdd
  dsimp only
  refine ⟨?_, ?_, ?_⟩ <;>
  · simp (disch := (repeat' first | assumption | apply a | apply s | apply m)) only [fAdd_res, fSub_res, montMul_res, B3_res]
    ring

theorem pointDouble_canonical {Q : Point} (h : Q.Canonical) : (pointDouble Q).Canonical := by
  unfold pointDouble
  extract_lets X_1 Y_1 Z_1 t0_1 Z3_1 Z3_2 Z3_3 t1_1 t2_1 t2_2 X3_1 Y3_1 Z3_4 t1_2 t2_3 t0_2 Y3_2 Y3_3 t1_3 X3_2 X3_3
  have hX_1 : X_1.Canonical := h.1
  have hY_1 : Y_1.Canonical := h.2.1
  have hZ_1 : Z_1.Canonical := h.2.2
  have ht0_1 : t0_1.Canonical := montSqr_canonical hY_1
  have hZ3_1 : Z3_1.Canonical := fAdd_canonical ht0_1 ht0_1
  have hZ3_2 : Z3_2.Canonical := fAdd_canonical hZ3_1 hZ3_1
  have hZ3_3 : Z3_3.Canonical := fAdd_canonical hZ3_2 hZ3_2
  have ht1_1 : t1_1.Canonical := montMul_canonical _ hZ_1
  have ht2_1 : t2_1.Canonical := montSqr_canonical hZ_1
  have ht2_2 : t2_2.Canonical := montMul_canonical _ ht2_1
  have hX3_1 : X3_1.Canonical := montMul_canonical _ hZ3_3
  have hY3_1 : Y3_1.Canonical := fAdd_canonical ht0_1 ht2_2
  have hZ3_4 : Z3_4.Canonical := montMul_canonical _ hZ3_3
  have ht1_2 : t1_2.Canonical := fAdd_canonical ht2_2 ht2_2
  have ht2_3 : t2_3.Canonical := fAdd_canonical ht1_2 ht2_2
  have ht0_2 : t0_2.Canonical := fSub_canonical ht0_1 ht2_3
  have hY3_2 : Y3_2.Canonical := montMul_canonical _ hY3_1
  have hY3_3 : Y3_3.Canonical := fAdd_canonical hX3_1 hY3_2
  have ht1_3 : t1_3.Canonical := montMul_canonical _ hY_1
  have hX3_2 : X3_2.Canonical := montMul_canonical _ ht1_3
  have hX3_3 : X3_3.Canonical := fAdd_canonical hX3_2 hX3_2
  exact ⟨hX3_3, hY3_3, hZ3_4⟩

/-- The closed form of `PointDouble` on residues (43_point_primitives.md R171). -/
theorem pointDouble_res {Q : Point} (h : Q.Canonical) :
    (pointDouble Q).X.res = 2 * Q.X.res * Q.Y.res * (Q.Y.res ^ 2 - 3 * 21 * Q.Z.res ^ 2) ∧
    (pointDouble Q).Y.res = (Q.Y.res ^ 2 - 3 * 21 * Q.Z.res ^ 2) * (Q.Y.res ^ 2 + 21 * Q.Z.res ^ 2) +
        8 * 21 * Q.Y.res ^ 2 * Q.Z.res ^ 2 ∧
    (pointDouble Q).Z.res = 8 * Q.Y.res ^ 3 * Q.Z.res := by
  obtain ⟨x, y, z⟩ := h
  have a := @fAdd_canonical
  have s := @fSub_canonical
  have m := @montMul_canonical
  have q := @montSqr_canonical
  have b := B3_canonical
  unfold pointDouble
  dsimp only
  refine ⟨?_, ?_, ?_⟩ <;>
  · simp (disch := (repeat' first | assumption | apply a | apply s | apply q | apply m)) only
      [fAdd_res, fSub_res, montMul_res, montSqr_res, B3_res]
    ring

theorem pointNeg_canonical {Q : Point} (h : Q.Canonical) : (pointNeg Q).Canonical := ⟨h.1, fNeg_canonical h.2.1, h.2.2⟩

theorem pointSub_canonical {P1 P2 : Point} (h1 : P1.Canonical) (h2 : P2.Canonical) : (pointSub P1 P2).Canonical :=
  pointAdd_canonical h1 (pointNeg_canonical h2)

theorem quadruple_canonical {Q : Point} (h : Q.Canonical) : (quadruple Q).Canonical :=
  pointDouble_canonical (pointDouble_canonical (pointDouble_canonical (pointDouble_canonical h)))

theorem IDENT_canonical : IDENT.Canonical := by decide
theorem GEN_canonical : GEN.Canonical := by decide +kernel

theorem pointSelect_eq (A B : Point) (c : Bool) : pointSelect A B c = if c then A else B := by
  cases c <;> rfl

theorem tableScan_eq (n : Nibble) (Ts : List Point) (i : Nat) (r : Point) :
    tableScan n i Ts r = if h : i ≤ n.toNat ∧ n.toNat - i < Ts.length then Ts[n.toNat - i]'h.2 else r := by
  induction Ts generalizing i r with
  | nil => simp [tableScan]
  | cons T Ts ih =>
    rw [tableScan, ih, pointSelect_eq]
    by_cases hi : i = n.toNat
    · subst hi
      simp
    · simp only [beq_iff_eq, hi, if_false]
      by_cases h : i + 1 ≤ n.toNat ∧ n.toNat - (i + 1) < Ts.length
      · rw [dif_pos h, dif_pos ⟨by omega, by simp only [List.length_cons]; omega⟩]
        have : n.toNat - i = (n.toNat - (i + 1)) + 1 := by omega
        simp only [this, List.getElem_cons_succ]
      · rw [dif_neg h, dif_neg (by simp only [List.length_cons]; omega)]

/-- `TableSelect(T, n)` is the identity for `n = 0` and entry `n − 1` otherwise (43_point_primitives.md R174). -/
theorem tableSelect_eq (T : Table) (n : Nibble) :
    tableSelect T n = if n.toNat = 0 then IDENT else T.toList.getD (n.toNat - 1) IDENT := by
  have hn := n.isLt
  have hl : T.toList.length = 15 := by simp
  rw [tableSelect, tableScan_eq]
  by_cases h : n.toNat = 0
  · rw [dif_neg (by omega), if_pos h]
  · rw [dif_pos (by omega), if_neg h]
    simp only [List.getD]
    rw [List.getElem?_eq_getElem (by omega)]; rfl

theorem tableSelect_canonical {T : Table} (h : ∀ Q ∈ T.toList, Q.Canonical) (n : Nibble) : (tableSelect T n).Canonical := by
  have hn := n.isLt
  have hl : T.toList.length = 15 := by simp
  rw [tableSelect_eq]
  split
  · exact IDENT_canonical
  · simp only [List.getD]
    rw [List.getElem?_eq_getElem (by omega)]
    exact h _ (List.getElem_mem _)

/-- `Affine(P)` is undefined exactly for the identity, and otherwise the coordinates divided by `Z`, the division
being the product by the chain's inverse (43_point_primitives.md R179). -/
theorem affine_eq {Q : Point} (h : Q.Canonical) :
    affine Q = if Q.Z = ZERO then none else some (montMul Q.X (fInvert Q.Z), montMul Q.Y (fInvert Q.Z)) := by
  unfold affine
  by_cases hz : Q.Z = ZERO
  · rw [if_pos ((fIsZero_iff h.2.2).mpr hz), if_pos hz]
  · rw [if_neg (fun c => hz ((fIsZero_iff h.2.2).mp c)), if_neg hz]

end Sys2Proof.Machine
end

