-- ==== Sys2Proof/Laws/Codec.lean ====
section
/-! SUPPORT. The codec and the scalar multipliers: the lengths of what an encoder emits, the nibbles of a byte, that
every Point they make is canonical, and what the decoder answers in integers (45_point_codec.md R200 to
R203, 46_scalar_mult.md R210, R213). -/

namespace Sys2Proof.Machine

theorem encodeUncompressed_length (Q : Point) :
    (encodeUncompressed Q).length = 1 ∨ (encodeUncompressed Q).length = 65 := by
  rw [encodeUncompressed]
  cases affine Q with
  | none => exact .inl rfl
  | some a => right; simp [fBytes_length]

theorem encodeCompressed_length (Q : Point) : (encodeCompressed Q).length = 1 ∨ (encodeCompressed Q).length = 33 := by
  rw [encodeCompressed]
  cases affine Q with
  | none => exact .inl rfl
  | some a => right; simp [fBytes_length]

theorem encodeX_length {Q : Point} {v : Bytes} (h : encodeX Q = .ok v) : v.length = 32 := by
  rw [encodeX] at h
  cases ha : affine Q with
  | none => rw [ha] at h; cases h
  | some a => rw [ha] at h; cases h; exact fBytes_length _

/-! What an encoder emits fits a buffer. -/

theorem fBytes_short (a : Element) : (fBytes a).length ≤ BUFMAX := by rw [fBytes_length]; decide

theorem encodeUncompressed_short (Q : Point) : (encodeUncompressed Q).length ≤ BUFMAX := by
  simp only [BUFMAX]; have := encodeUncompressed_length Q; omega

theorem encodeCompressed_short (Q : Point) : (encodeCompressed Q).length ≤ BUFMAX := by
  simp only [BUFMAX]; have := encodeCompressed_length Q; omega

theorem encodeX_short {Q : Point} {v : Bytes} (h : encodeX Q = .ok v) : v.length ≤ BUFMAX := by
  rw [encodeX_length h]; decide

theorem hiNibble_toNat (b : Byte) : (hiNibble b).toNat = b.toNat / 16 := by
  have := b.isLt
  simp only [hiNibble, BitVec.extractLsb'_toNat, Nat.shiftRight_eq_div_pow]; omega

theorem loNibble_toNat (b : Byte) : (loNibble b).toNat = b.toNat % 16 := by
  simp only [loNibble, BitVec.extractLsb'_toNat, Nat.shiftRight_eq_div_pow]; simp

theorem slice_length {v : Bytes} {i j : Nat} (h : j ≤ v.length) : (slice v i j).length = j - i := by
  simp only [slice, List.length_take, List.length_drop]; omega

theorem buildWindowTable_canonical {Q : Point} (h : Q.Canonical) : ∀ T ∈ (buildWindowTable Q).toList, T.Canonical := by
  have d : ∀ {T : Point}, T.Canonical → (pointDouble T).Canonical := pointDouble_canonical
  have a : ∀ {T : Point}, T.Canonical → (pointAdd T Q).Canonical := fun hT => pointAdd_canonical hT h
  have h1 := d h
  have h2 := a h1
  have h3 := d h1
  have h4 := a h3
  have h5 := d h2
  have h6 := a h5
  have h7 := d h3
  have h8 := a h7
  have h9 := d h4
  have h10 := a h9
  have h11 := d h5
  have h12 := a h11
  have h13 := d h6
  have h14 := a h13
  intro T hT
  replace hT : T ∈ [_, _, _, _, _, _, _, _, _, _, _, _, _, _, _] := hT
  simp only [List.mem_cons, List.not_mem_nil, or_false] at hT
  rcases hT with e | e | e | e | e | e | e | e | e | e | e | e | e | e | e <;> rw [e]
  · exact h
  · exact h1
  · exact h2
  · exact h3
  · exact h4
  · exact h5
  · exact h6
  · exact h7
  · exact h8
  · exact h9
  · exact h10
  · exact h11
  · exact h12
  · exact h13
  · exact h14

theorem genBase_canonical (k : Nat) : (genBase k).Canonical := by
  induction k with
  | zero => exact GEN_canonical
  | succ k ih => exact quadruple_canonical ih

theorem genEntry_canonical {B : Point} (h : B.Canonical) (j : Nat) : (genEntry B j).Canonical := by
  induction j with
  | zero => exact h
  | succ j ih => exact pointAdd_canonical ih h

theorem scalarStep_canonical {T : Table} (hT : ∀ Q ∈ T.toList, Q.Canonical) (first : Bool) {A : Point} (hA : A.Canonical)
    (b : Byte) : (scalarStep T first A b).Canonical := by
  unfold scalarStep
  apply pointAdd_canonical (quadruple_canonical (pointAdd_canonical _ (tableSelect_canonical hT _)))
    (tableSelect_canonical hT _)
  cases first
  · exact quadruple_canonical hA
  · exact hA

theorem scalarMult_canonical {Q : Point} (h : Q.Canonical) (v : Bytes) : (scalarMult Q v).Canonical := by
  have hT := buildWindowTable_canonical h
  unfold scalarMult
  cases v with
  | nil => exact IDENT_canonical
  | cons b bs =>
    have : ∀ (bs : Bytes) (A : Point), A.Canonical → (scalarLoop (buildWindowTable Q) A bs).Canonical := by
      intro bs
      induction bs with
      | nil => exact fun A hA => hA
      | cons b bs ih => exact fun A hA => ih _ (scalarStep_canonical hT _ hA b)
    exact this bs _ (scalarStep_canonical hT _ IDENT_canonical b)

/-! ### The decoder in integers -/

theorem curveRhs_canonical {x : Element} (h : x.Canonical) : (curveRhs x).Canonical :=
  fAdd_canonical (montMul_canonical _ h) SEVEN_canonical

theorem curveRhs_res {x : Element} (h : x.Canonical) : (curveRhs x).res = x.res ^ 3 + 7 := by
  rw [curveRhs, fAdd_res (montMul_canonical _ h) SEVEN_canonical, SEVEN_res, montMul_res _ h, montSqr_res h]; ring

theorem ok_bind {α β : Type} (x : α) (f : α → Except Err β) : (Except.ok x : Except Err α).bind f = f x := rfl
theorem error_bind {α β : Type} (K : Err) (f : α → Except Err β) :
    (Except.error K : Except Err α).bind f = .error K := rfl

/-- 65 bytes with prefix `04` are decoded as the uncompressed form (45_point_codec.md R200). -/
theorem decodePoint_uncompressed (w : Bytes) (h : w.length = 64) :
    decodePoint (0x04 :: w) = decodeUncompressed (0x04 :: w) := by
  unfold decodePoint
  generalize hd : decodeUncompressed = D
  generalize hc : decodeCompressed = C
  simp only [List.head?_cons, List.length_cons, h]
  rw [if_neg (by simp), if_pos (by simp)]

/-- 33 bytes with prefix `02` or `03` are decoded as the compressed form (45_point_codec.md R200). -/
theorem decodePoint_compressed (pfx : Byte) (w : Bytes) (hp : pfx = 0x02 ∨ pfx = 0x03) (h : w.length = 32) :
    decodePoint (pfx :: w) = decodeCompressed pfx (pfx :: w) := by
  unfold decodePoint
  generalize hd : decodeUncompressed = D
  generalize hc : decodeCompressed = C
  simp only [List.head?_cons, List.length_cons, h]
  rw [if_neg (by simp), if_neg (by simp), if_pos ⟨trivial, hp⟩]

/-- The low bit of an encoding is the parity of the residue (00_scope.md R10). -/
theorem lsb_fBytes (a : Element) : lsb (fBytes a) = decide (a.val % 2 = 1) := by
  have h := beNat_fBytes a
  have hl := fBytes_length a
  rw [← h]
  generalize fBytes a = v at *
  have hne : v ≠ [] := by intro c; rw [c] at hl; simp at hl
  obtain ⟨u, b, rfl⟩ : ∃ u b, v = u ++ [b] := ⟨_, _, (List.dropLast_append_getLast hne).symm⟩
  rw [beNat_append]
  simp only [lsb, List.getLastD_concat, List.length_cons, List.length_nil, beNat, List.reverse_cons, List.reverse_nil,
    List.nil_append, leNat, BitVec.getLsbD, Nat.testBit_zero]
  congr 1; apply propext; omega

theorem slice_x (a : Byte) {xs ys : Bytes} (h : xs.length = 32) : slice (a :: (xs ++ ys)) 1 33 = xs := by
  simp [slice, ← h]

theorem slice_y (a : Byte) {xs ys : Bytes} (h : xs.length = 32) (h2 : ys.length = 32) :
    slice (a :: (xs ++ ys)) 33 65 = ys := by
  have e : (65 - 33 : Nat) = ys.length := by omega
  have e2 : (33 : Nat) = (a :: xs).length := by simp [h]
  unfold slice
  rw [e, e2, ← List.cons_append, List.drop_left]; simp

/-- Everything the uncompressed decoder answers, in integers (45_point_codec.md R200). -/
theorem decodeUncompressed_eq (a : Byte) {xs ys : Bytes} (hx : xs.length = 32) (hy : ys.length = 32) :
    decodeUncompressed (a :: (xs ++ ys)) =
      if beNat xs < P ∧ beNat ys < P then
        if beNat ys ^ 2 % P = (beNat xs ^ 3 + 7) % P then .ok ⟨mont (beNat xs), mont (beNat ys), ONE⟩
        else .error .notOnCurve
      else .error .invalidElementEncoding := by
  rw [decodeUncompressed, slice_x a hx, slice_y a hx hy, fSetBytes_eq xs, fSetBytes_eq ys]
  by_cases h1 : beNat xs < P
  · rw [if_pos ⟨hx, h1⟩, ok_bind]
    by_cases h2 : beNat ys < P
    · rw [if_pos ⟨hy, h2⟩, ok_bind, if_pos (show beNat xs < P ∧ beNat ys < P from ⟨h1, h2⟩)]
      have key : fEqual (montSqr (mont (beNat ys))) (curveRhs (mont (beNat xs))) = true ↔
          beNat ys ^ 2 % P = (beNat xs ^ 3 + 7) % P := by
        rw [fEqual_iff_val,
          val_eq_of_res (n := beNat ys ^ 2) (by rw [montSqr_res (mont_canonical _), res_mont]; push_cast; rfl),
          val_eq_of_res (a := curveRhs _) (n := beNat xs ^ 3 + 7)
            (by rw [curveRhs_res (mont_canonical _), res_mont]; push_cast; rfl)]
      by_cases h3 : beNat ys ^ 2 % P = (beNat xs ^ 3 + 7) % P
      · rw [if_pos h3, if_pos (key.mpr h3)]
      · rw [if_neg h3, if_neg (fun c => h3 (key.mp c))]
    · rw [if_neg (fun c => h2 c.2), error_bind, if_neg (fun c => h2 c.2)]
  · rw [if_neg (fun c => h1 c.2), error_bind, if_neg (fun c => h1 c.1)]

/-- The compressed decoder on an `x` that is not below `p` (45_point_codec.md R200). -/
theorem decodeCompressed_big {pfx a : Byte} {xs : Bytes} (hx : xs.length = 32) (h : P ≤ beNat xs) :
    decodeCompressed pfx (a :: xs) = .error .invalidElementEncoding := by
  have e : slice (a :: xs) 1 33 = xs := by have := slice_x a (ys := []) hx; rwa [List.append_nil] at this
  rw [decodeCompressed, e, fSetBytes_eq xs, if_neg (by omega), error_bind]

/-- The compressed decoder on an `x` with a root: it picks the root of the prefix's parity, whichever root the chain
gives (45_point_codec.md R200). -/
theorem decodeCompressed_root {pfx a : Byte} {xs : Bytes} (hp : pfx = 0x02 ∨ pfx = 0x03) (hx : xs.length = 32)
    (h : beNat xs < P) {y : Nat} (hy : y < P) (hyx : y ^ 2 % P = (beNat xs ^ 3 + 7) % P) (hpar : y % 2 = pfx.toNat % 2) :
    decodeCompressed pfx (a :: xs) = .ok ⟨mont (beNat xs), mont y, ONE⟩ := by
  have e : slice (a :: xs) 1 33 = xs := by have := slice_x a (ys := []) hx; rwa [List.append_nil] at this
  rw [decodeCompressed, e, fSetBytes_eq xs, if_pos ⟨hx, h⟩, ok_bind]
  have hr := curveRhs_res (mont_canonical (beNat xs))
  have hc := curveRhs_canonical (mont_canonical (beNat xs))
  have hy2 : (y : ZMod P) ^ 2 = (curveRhs (mont (beNat xs))).res := by
    have : ((y ^ 2 : Nat) : ZMod P) = ((beNat xs ^ 3 + 7 : Nat) : ZMod P) := by rwa [ZMod.natCast_eq_natCast_iff']
    rw [hr, res_mont]; push_cast at this; exact this
  have hy0 : y ≠ 0 := by
    rintro rfl
    apply cube_add_seven_ne_zero (beNat xs : ZMod P)
    rw [hr, res_mont] at hy2
    rw [← hy2]; simp
  have hroot := fSqrt_root hc hy2
  have hcan := fSqrt_canonical hc
  have hok := (fSqrt_ok_iff hc).mpr (by rcases hroot with e | e <;> rw [e] <;> simp [hy2])
  generalize fSqrt (curveRhs (mont (beNat xs))) = r at *
  dsimp only
  rw [if_pos hok]
  have hpb : (pfx &&& 1).getLsbD 0 = decide (pfx.toNat % 2 = 1) := by rcases hp with rfl | rfl <;> decide
  rw [lsb_fBytes, hpb, fSelect_eq, ← hpar]
  have hPodd : P % 2 = 1 := by decide
  suffices (if (decide (r.2.val % 2 = 1) ^^ decide (y % 2 = 1)) = true then fNeg r.2 else r.2) = mont y by rw [this]
  rcases hroot with e | e
  · have hv : r.2.val = y := by rw [val_eq_of_res e, Nat.mod_eq_of_lt hy]
    rw [hv, Bool.xor_self, if_neg (by simp)]
    exact eq_of_res hcan (mont_canonical _) (by rw [e, res_mont])
  · have hv : r.2.val = P - y := by
      have := val_eq_of_res (a := r.2) (n := P - y) (by rw [e, Nat.cast_sub hy.le]; simp)
      rwa [Nat.mod_eq_of_lt (by omega)] at this
    have : (decide (r.2.val % 2 = 1) ^^ decide (y % 2 = 1)) = true := by
      rw [hv]
      by_cases q : y % 2 = 1 <;> simp [q] <;> omega
    rw [this, if_pos rfl]
    exact eq_of_res (fNeg_canonical hcan) (mont_canonical _) (by rw [fNeg_res hcan, e, res_mont, neg_neg])

/-- The compressed decoder on an `x` without a root (45_point_codec.md R200). -/
theorem decodeCompressed_none {pfx a : Byte} {xs : Bytes} (hx : xs.length = 32) (h : beNat xs < P)
    (hn : ¬ ∃ y, y < P ∧ y ^ 2 % P = (beNat xs ^ 3 + 7) % P) :
    decodeCompressed pfx (a :: xs) = .error .invalidCompressedPoint := by
  have e : slice (a :: xs) 1 33 = xs := by have := slice_x a (ys := []) hx; rwa [List.append_nil] at this
  rw [decodeCompressed, e, fSetBytes_eq xs, if_pos ⟨hx, h⟩, ok_bind]
  have hr := curveRhs_res (mont_canonical (beNat xs))
  have hc := curveRhs_canonical (mont_canonical (beNat xs))
  have hno : (fSqrt (curveRhs (mont (beNat xs)))).1 ≠ true := by
    intro c
    have c' := (fSqrt_ok_iff hc).mp c
    refine hn ⟨(fSqrt (curveRhs (mont (beNat xs)))).2.val, val_lt _, ?_⟩
    rw [← ZMod.natCast_eq_natCast_iff']
    rw [hr, res_mont] at c'
    push_cast; exact c'
  generalize fSqrt (curveRhs (mont (beNat xs))) = r at *
  dsimp only
  rw [if_neg hno]

/-- The affine coordinates of a Point other than an identity times `Z` are its projective ones
(43_point_primitives.md R179). -/
theorem affine_residues {Q : Point} (h : Q.Canonical) (hz : Q.Z ≠ ZERO) :
    ∃ x y : Element, affine Q = some (x, y) ∧ x.Canonical ∧ y.Canonical ∧ x.res * Q.Z.res = Q.X.res ∧
      y.res * Q.Z.res = Q.Y.res := by
  have hi := fInvert_mul h.2.2 hz
  have hc := (fInvert_res h.2.2).1
  refine ⟨_, _, by rw [affine_eq h, if_neg hz], montMul_canonical _ hc, montMul_canonical _ hc, ?_, ?_⟩
  · rw [montMul_res _ hc, mul_assoc, mul_comm (fInvert _).res, hi, mul_one]
  · rw [montMul_res _ hc, mul_assoc, mul_comm (fInvert _).res, hi, mul_one]

end Sys2Proof.Machine
end

