-- ==== Sys2Proof/Laws/Group.lean ====
section
/-! SUPPORT. The complete addition formula of 43_point_primitives.md R170 on residues, against the chord-and-tangent
group of the curve (R178): polynomial identities modulo the curve equation, what the three
numerators represent, and that the point functions are the group's operations on Proper Points. -/

namespace Sys2Proof.Claims

open Sys2Proof Sys2Proof.Machine

/-! ### The numerators of the sum of two affine points -/

/-- The closed form of R170 at two affine points, the `X` numerator (43_point_primitives.md R170). -/
def sumX (x1 y1 x2 y2 : ZMod P) : ZMod P := (x1 * y2 + x2 * y1) * (y1 * y2 - 21) - 21 * (y1 + y2) * (x1 + x2)

/-- The `Y` numerator. -/
def sumY (x1 y1 x2 y2 : ZMod P) : ZMod P := (y1 * y2 + 21) * (y1 * y2 - 21) + 63 * x1 * x2 * (x1 + x2)

/-- The `Z` numerator. -/
def sumZ (x1 y1 x2 y2 : ZMod P) : ZMod P := (y1 + y2) * (y1 * y2 + 21) + 3 * x1 * x2 * (x1 * y2 + x2 * y1)

/-- `X` of the sum, cleared of the slope's denominator. -/
theorem sumX_mul (x1 y1 x2 y2 : ZMod P) (h1 : y1 ^ 2 = x1 ^ 3 + 7) (h2 : y2 ^ 2 = x2 ^ 3 + 7) :
    sumX x1 y1 x2 y2 * (x1 - x2) ^ 2 = sumZ x1 y1 x2 y2 * ((y1 - y2) ^ 2 - (x1 + x2) * (x1 - x2) ^ 2) := by
  unfold sumX sumZ
  linear_combination (14 * y2 + 1 * y2 ^ 3 + 2 * x2 ^ 3 * y2 + (-21) * y1 + 1 * y1 * y2 ^ 2 + (-1) * y1 ^ 2 * y2 +
      3 * x1 * x2 ^ 2 * y2 + (-3) * x1 * y1 * x2 ^ 2 + (-3) * x1 ^ 2 * x2 * y2) * h1 + ((-14) * y2 + 21 * y1 +
      (-1) * y1 * y2 ^ 2 + (-3) * x1 * y1 * x2 ^ 2 + (-3) * x1 ^ 2 * x2 * y2 + 3 * x1 ^ 2 * y1 * x2 + 1 * x1 ^ 3
      * y2 + 3 * x1 ^ 3 * y1) * h2

/-- `Y` of the sum, cleared of the slope's denominator. -/
theorem sumY_mul (x1 y1 x2 y2 : ZMod P) (h1 : y1 ^ 2 = x1 ^ 3 + 7) (h2 : y2 ^ 2 = x2 ^ 3 + 7) :
    sumY x1 y1 x2 y2 * (x1 - x2) ^ 3 = -sumZ x1 y1 x2 y2 * ((y1 - y2) * ((y1 - y2) ^ 2 - (x1 + x2) * (x1 - x2) ^ 2
      - x1 * (x1 - x2) ^ 2) + y1 * (x1 - x2) ^ 3) := by
  unfold sumY sumZ
  linear_combination (147 + (-14) * y2 ^ 2 + 2 * y2 ^ 4 + (-42) * x2 ^ 3 + (-2) * x2 ^ 3 * y2 ^ 2 + (-35) * y1 *
      y2 + (-2) * y1 * x2 ^ 3 * y2 + 21 * y1 ^ 2 + (-2) * y1 ^ 2 * y2 ^ 2 + 1 * y1 ^ 3 * y2 + 84 * x1 * x2 ^ 2 +
      15 * x1 * x2 ^ 2 * y2 ^ 2 + (-6) * x1 * x2 ^ 5 + (-6) * x1 * y1 * x2 ^ 2 * y2 + 3 * x1 * y1 ^ 2 * x2 ^ 2 +
      (-15) * x1 ^ 2 * x2 * y2 ^ 2 + 9 * x1 ^ 2 * x2 ^ 4 + 3 * x1 ^ 2 * y1 * x2 * y2) * h1 + ((-147) + (-7) * y2
      ^ 2 + 35 * y1 * y2 + (-1) * y1 * y2 ^ 3 + 105 * x1 * x2 ^ 2 + (-3) * x1 * y1 * x2 ^ 2 * y2 + (-189) * x1 ^
      2 * x2 + (-3) * x1 ^ 2 * x2 * y2 ^ 2 + 6 * x1 ^ 2 * y1 * x2 * y2 + 42 * x1 ^ 3 + 2 * x1 ^ 3 * y2 ^ 2 + 2 *
      x1 ^ 3 * y1 * y2 + 6 * x1 ^ 4 * x2 ^ 2 + (-9) * x1 ^ 5 * x2) * h2

/-- `Z` is the negated `y` of the difference, cleared of its slope's denominator. -/
theorem sumZ_eq (x1 y1 x2 y2 : ZMod P) (h1 : y1 ^ 2 = x1 ^ 3 + 7) (h2 : y2 ^ 2 = x2 ^ 3 + 7) :
    sumZ x1 y1 x2 y2 = (y1 + y2) * ((y1 + y2) ^ 2 - (x1 + x2) * (x1 - x2) ^ 2 - x1 * (x1 - x2) ^ 2) + y1 * (x1 - x2)
      ^ 3 := by
  unfold sumZ
  linear_combination ((-2) * y2 - y1) * h1 + (- y2 - 2 * y1) * h2

/-- The complete formula never divides by zero: at two points of different `x` the `Z` numerator is not 0, because the
curve has no point with `y = 0`. -/
theorem sumZ_ne_zero {x1 y1 x2 y2 : ZMod P} (h1 : y1 ^ 2 = x1 ^ 3 + 7) (h2 : y2 ^ 2 = x2 ^ 3 + 7) (hx : x1 ≠ x2) :
    sumZ x1 y1 x2 y2 ≠ 0 := by
  have : Fact P.Prime := ⟨P_prime⟩
  have hu : x1 - x2 ≠ 0 := sub_ne_zero.mpr hx
  rw [sumZ_eq x1 y1 x2 y2 h1 h2]
  intro h0
  set l := (y1 + y2) / (x1 - x2) with hl
  have e1 : y1 + y2 = l * (x1 - x2) := by rw [hl]; field_simp
  have hy : l * (l ^ 2 - (x1 + x2) - x1) + y1 = 0 := by
    have : (l * (l ^ 2 - (x1 + x2) - x1) + y1) * (x1 - x2) ^ 3 = 0 := by rw [e1] at h0; linear_combination h0
    exact (mul_eq_zero.mp this).resolve_right (pow_ne_zero 3 hu)
  apply cube_add_seven_ne_zero (l ^ 2 - (x1 + x2))
  have e2 : y2 = l * (x1 - x2) - y1 := by linear_combination e1
  have hq : ((l ^ 2 - (x1 + x2)) ^ 3 + 7 - (l * (l ^ 2 - (x1 + x2) - x1) + y1) ^ 2) * (x1 - x2) = 0 := by
    rw [e2] at h2
    linear_combination (-(l ^ 2 - (x1 + x2) - x2)) * h1 + (l ^ 2 - (x1 + x2) - x1) * h2
  rw [hy] at hq
  linear_combination (mul_eq_zero.mp hq).resolve_right hu

/-! ### The curve of the claims -/

theorem natCast_ne_zero {n : Nat} (h0 : 0 < n) (h : n < P) : (n : ZMod P) ≠ 0 := by
  intro c
  rw [ZMod.natCast_eq_zero_iff] at c
  exact absurd (Nat.le_of_dvd h0 c) (by omega)

/-- No point of the curve has `y = 0`. -/
theorem y_ne_zero {x y : ZMod P} (h : y ^ 2 = x ^ 3 + 7) : y ≠ 0 := by
  rintro rfl
  apply cube_add_seven_ne_zero x
  rw [← h]; ring

theorem curve_equation_iff {x y : ZMod P} : curve.Equation x y ↔ y ^ 2 = x ^ 3 + 7 := by
  rw [WeierstrassCurve.Affine.equation_iff]; simp [curve]

theorem curve_negY (x y : ZMod P) : curve.negY x y = -y := by simp [WeierstrassCurve.Affine.negY, curve]

/-- Every solution of the curve equation is a nonsingular point. -/
theorem curve_nonsingular {x y : ZMod P} (h : y ^ 2 = x ^ 3 + 7) : curve.Nonsingular x y := by
  have : Fact P.Prime := ⟨P_prime⟩
  rw [WeierstrassCurve.Affine.nonsingular_iff]
  refine ⟨curve_equation_iff.mpr h, .inr ?_⟩
  intro c
  have : 2 * y = 0 := by
    have e : y = -y := by simpa [curve] using c
    linear_combination e
  exact mul_ne_zero (natCast_ne_zero (n := 2) (by decide) (by decide)) (y_ne_zero h) this

/-- The three numerators at two affine points give their sum: `(0, Y, 0)` with `Y ≠ 0` where the sum is the identity,
and otherwise a multiple of `(x, y, 1)` by `Z ≠ 0`. -/
theorem sum_represents {x1 y1 x2 y2 : ZMod P} {n1 : curve.Nonsingular x1 y1} {n2 : curve.Nonsingular x2 y2}
    {k : curve.Point} (hk : IsSum (.some x1 y1 n1) (.some x2 y2 n2) k) :
    (k = .zero ∧ sumX x1 y1 x2 y2 = 0 ∧ sumZ x1 y1 x2 y2 = 0 ∧ sumY x1 y1 x2 y2 ≠ 0) ∨
    (sumZ x1 y1 x2 y2 ≠ 0 ∧ ∃ x3 y3 n3, k = .some x3 y3 n3 ∧ sumX x1 y1 x2 y2 = x3 * sumZ x1 y1 x2 y2 ∧
      sumY x1 y1 x2 y2 = y3 * sumZ x1 y1 x2 y2) := by
  have : Fact P.Prime := ⟨P_prime⟩
  have h1 := curve_equation_iff.mp n1.1
  have h2 := curve_equation_iff.mp n2.1
  have t2 : (2 : ZMod P) ≠ 0 := natCast_ne_zero (n := 2) (by decide) (by decide)
  have t8 : (8 : ZMod P) ≠ 0 := natCast_ne_zero (n := 8) (by decide) (by decide)
  have hk' : k = .some x1 y1 n1 + .some x2 y2 n2 := hk
  by_cases hx : x1 = x2
  · subst hx
    have hyy : y1 = y2 ∨ y1 = -y2 := by rw [← sq_eq_sq_iff_eq_or_eq_neg, h1, h2]
    have hy1 := y_ne_zero h1
    by_cases hy : y1 = -y2
    · left
      refine ⟨?_, ?_, ?_, ?_⟩
      · rw [hk']
        exact WeierstrassCurve.Affine.Point.add_of_Y_eq rfl (by rw [curve_negY]; exact hy)
      · rw [hy, sumX]; ring
      · rw [hy, sumZ]; ring
      · intro h0
        have hY : y2 ^ 4 + 126 * y2 ^ 2 - 1323 = 0 := by
          rw [hy, sumY] at h0
          linear_combination h0 + 126 * h2
        have hy2 := y_ne_zero h2
        set l := 3 * x1 ^ 2 / (2 * y2) with hl
        have el : l * (2 * y2) = 3 * x1 ^ 2 := by rw [hl]; field_simp
        apply cube_add_seven_ne_zero (l ^ 2 - 2 * x1)
        have hy3 : l * (l ^ 2 - 2 * x1 - x1) + y2 = 0 := by
          have : (l * (l ^ 2 - 2 * x1 - x1) + y2) * (8 * y2 ^ 3) = 0 := by
            have e3 : (l * (l ^ 2 - 2 * x1 - x1) + y2) * (8 * y2 ^ 3) =
                (l * (2 * y2)) ^ 3 - 12 * x1 * y2 ^ 2 * (l * (2 * y2)) + 8 * y2 ^ 4 := by ring
            rw [e3, el]
            linear_combination (-1) * hY + (27 * x1 ^ 3 - 9 * y2 ^ 2 - 189) * (-1) * h2
          exact (mul_eq_zero.mp this).resolve_right (mul_ne_zero t8 (pow_ne_zero 3 hy2))
        have : (l ^ 2 - 2 * x1) ^ 3 + 7 - (l * (l ^ 2 - 2 * x1 - x1) + y2) ^ 2 = 0 := by
          linear_combination (-1) * h2 - (l ^ 2 - 2 * x1 - x1) * el
        rw [hy3] at this
        linear_combination this
    · have hy' : y1 = y2 := hyy.resolve_right hy
      subst hy'
      right
      have hz : sumZ x1 y1 x1 y1 = 8 * y1 ^ 3 := by rw [sumZ]; linear_combination (-6 * y1) * h1
      refine ⟨by rw [hz]; exact mul_ne_zero t8 (pow_ne_zero 3 hy1), _, _, _,
        hk'.trans (WeierstrassCurve.Affine.Point.add_some (fun c => hy (by rw [curve_negY] at c; exact c.2))), ?_, ?_⟩
      all_goals
        rw [hz]
        rw [WeierstrassCurve.Affine.slope_of_Y_ne rfl (by rw [curve_negY]; exact hy)]
        simp only [WeierstrassCurve.Affine.addX, WeierstrassCurve.Affine.addY, WeierstrassCurve.Affine.negAddY,
          WeierstrassCurve.Affine.negY, curve, sumX, sumY]
        have e : y1 - (-y1 - 0 * x1 - 0) = 2 * y1 := by ring
        rw [e]
        field_simp
      · linear_combination 72 * x1 * h1
      · linear_combination 72 * (y1 ^ 2 - 3 * x1 ^ 3 + 7) * h1
  · right
    have hu : x1 - x2 ≠ 0 := sub_ne_zero.mpr hx
    refine ⟨sumZ_ne_zero h1 h2 hx, _, _, _,
      hk'.trans (WeierstrassCurve.Affine.Point.add_some (fun c => hx c.1)), ?_, ?_⟩
    · rw [WeierstrassCurve.Affine.slope_of_X_ne hx]
      simp only [WeierstrassCurve.Affine.addX, curve]
      apply mul_right_cancel₀ (pow_ne_zero 2 hu)
      rw [sumX_mul x1 y1 x2 y2 h1 h2]
      field_simp
      ring
    · rw [WeierstrassCurve.Affine.slope_of_X_ne hx]
      simp only [WeierstrassCurve.Affine.addX, WeierstrassCurve.Affine.addY, WeierstrassCurve.Affine.negAddY,
        WeierstrassCurve.Affine.negY, curve]
      apply mul_right_cancel₀ (pow_ne_zero 3 hu)
      rw [sumY_mul x1 y1 x2 y2 h1 h2]
      field_simp
      ring

/-! ### Points -/

/-- The identity as a Proper Point holds it: `X` is 0 and `Y` is not. -/
theorem proper_zero {Q : Point} (h : Q.Proper) (hz : Q.Z = ZERO) : Q.X.res = 0 ∧ Q.Z.res = 0 ∧ Q.Y.res ≠ 0 := by
  have : Fact P.Prime := ⟨P_prime⟩
  have z0 : Q.Z.res = 0 := by rw [hz, ZERO_res]
  have hc := (onCurve_iff Q).mp h.2.1
  rw [z0] at hc
  refine ⟨?_, z0, fun c => h.2.2 hz ((res_eq_zero_iff h.1.2.1).mp c)⟩
  have : Q.X.res ^ 3 = 0 := by linear_combination -hc
  exact pow_eq_zero_iff (by decide) |>.mp this

/-- What a Proper Point represents, as residues. -/
theorem represents_some {Q : Point} (h : Q.Proper) {x y : ZMod P} {n : curve.Nonsingular x y}
    (hr : Represents Q (.some x y n)) :
    Q.Z.res ≠ 0 ∧ Q.X.res = x * Q.Z.res ∧ Q.Y.res = y * Q.Z.res :=
  ⟨fun c => hr.1 ((res_eq_zero_iff h.1.2.2).mp c), hr.2.1, hr.2.2⟩

/-- Every Proper Point represents a point of the curve. -/
theorem represents_exists {Q : Point} (h : Q.Proper) : ∃ g, Represents Q g := by
  have : Fact P.Prime := ⟨P_prime⟩
  by_cases hz : Q.Z = ZERO
  · exact ⟨.zero, hz⟩
  · have hz' : Q.Z.res ≠ 0 := fun c => hz ((res_eq_zero_iff h.1.2.2).mp c)
    have hc := (onCurve_iff Q).mp h.2.1
    have e : (Q.Y.res / Q.Z.res) ^ 2 = (Q.X.res / Q.Z.res) ^ 3 + 7 := by
      field_simp
      linear_combination hc
    exact ⟨.some _ _ (curve_nonsingular e), hz, by field_simp, by field_simp⟩

/-- A canonical Point with residues `(0, Y, 0)`, `Y ≠ 0`, is Proper and represents the identity. -/
theorem proper_of_zero {Q : Point} (h : Q.Canonical) (hx : Q.X.res = 0) (hz : Q.Z.res = 0) (hy : Q.Y.res ≠ 0) :
    Q.Proper ∧ Represents Q .zero := by
  refine ⟨⟨h, (onCurve_iff Q).mpr (by rw [hx, hz]; ring), fun _ c => hy (by rw [c, ZERO_res])⟩,
    (res_eq_zero_iff h.2.2).mp hz⟩

/-- A canonical Point with residues `(x·Z, y·Z, Z)`, `Z ≠ 0`, is Proper and represents `(x, y)`. -/
theorem proper_of_some {Q : Point} (h : Q.Canonical) {x y : ZMod P} (n : curve.Nonsingular x y) (hz : Q.Z.res ≠ 0)
    (hx : Q.X.res = x * Q.Z.res) (hy : Q.Y.res = y * Q.Z.res) : Q.Proper ∧ Represents Q (.some x y n) := by
  have hz' : Q.Z ≠ ZERO := fun c => hz (by rw [c, ZERO_res])
  refine ⟨⟨h, (onCurve_iff Q).mpr ?_, fun c => absurd c hz'⟩, hz', hx, hy⟩
  rw [hx, hy]
  linear_combination Q.Z.res ^ 3 * curve_equation_iff.mp n.1

/-- A canonical Point whose residues are a nonzero multiple of the numerators represents the sum. -/
theorem proper_of_numerators {Q : Point} (h : Q.Canonical) {x1 y1 x2 y2 c : ZMod P} {n1 : curve.Nonsingular x1 y1}
    {n2 : curve.Nonsingular x2 y2} {k : curve.Point} (hk : IsSum (.some x1 y1 n1) (.some x2 y2 n2) k) (hc : c ≠ 0)
    (hX : Q.X.res = c * sumX x1 y1 x2 y2) (hY : Q.Y.res = c * sumY x1 y1 x2 y2) (hZ : Q.Z.res = c * sumZ x1 y1 x2 y2) :
    Q.Proper ∧ Represents Q k := by
  have : Fact P.Prime := ⟨P_prime⟩
  obtain ⟨rfl, eX, eZ, eY⟩ | ⟨eZ, x3, y3, n3, rfl, eX, eY⟩ := sum_represents hk
  · exact proper_of_zero h (by rw [hX, eX, mul_zero]) (by rw [hZ, eZ, mul_zero]) (by rw [hY]; exact mul_ne_zero hc eY)
  · refine proper_of_some h n3 (by rw [hZ]; exact mul_ne_zero hc eZ) ?_ ?_
    · rw [hX, hZ, eX]; ring
    · rw [hY, hZ, eY]; ring

theorem isSum_zero_left {h k : curve.Point} (hk : IsSum .zero h k) : k = h := by
  have : Fact P.Prime := ⟨P_prime⟩
  have e : k = .zero + h := hk
  rw [e]; exact zero_add h

theorem isSum_zero_right {h k : curve.Point} (hk : IsSum h .zero k) : k = h := by
  have : Fact P.Prime := ⟨P_prime⟩
  have e : k = h + .zero := hk
  rw [e]; exact add_zero h

/-- The `Y` of a Proper Point is never 0. -/
theorem proper_y {Q : Point} (h : Q.Proper) : Q.Y.res ≠ 0 := by
  have : Fact P.Prime := ⟨P_prime⟩
  obtain ⟨g, hg⟩ := represents_exists h
  cases g with
  | zero => exact (proper_zero h hg).2.2
  | some x y n =>
    obtain ⟨hz, -, hy⟩ := represents_some h hg
    rw [hy]; exact mul_ne_zero (y_ne_zero (curve_equation_iff.mp n.1)) hz

/-- A nonzero multiple of a Proper Point is Proper and represents the same. -/
theorem proper_of_scaled {A Q : Point} (hA : A.Proper) {g : curve.Point} (hg : Represents A g) (h : Q.Canonical)
    {c : ZMod P} (hc : c ≠ 0) (hX : Q.X.res = c * A.X.res) (hY : Q.Y.res = c * A.Y.res) (hZ : Q.Z.res = c * A.Z.res) :
    Q.Proper ∧ Represents Q g := by
  have : Fact P.Prime := ⟨P_prime⟩
  cases g with
  | zero =>
    obtain ⟨x0, z0, y0⟩ := proper_zero hA hg
    exact proper_of_zero h (by rw [hX, x0, mul_zero]) (by rw [hZ, z0, mul_zero]) (by rw [hY]; exact mul_ne_zero hc y0)
  | some x y n =>
    obtain ⟨hz, hx, hy⟩ := represents_some hA hg
    exact proper_of_some h n (by rw [hZ]; exact mul_ne_zero hc hz) (by rw [hX, hZ, hx]; ring) (by rw [hY, hZ, hy]; ring)

/-- `PointAdd` adds in the group, for every two Proper Points (43_point_primitives.md R178). -/
theorem pointAdd_represents {A B : Point} (hA : A.Proper) (hB : B.Proper) {g h k : curve.Point} (hg : Represents A g)
    (hh : Represents B h) (hk : IsSum g h k) : (pointAdd A B).Proper ∧ Represents (pointAdd A B) k := by
  have : Fact P.Prime := ⟨P_prime⟩
  have hc := pointAdd_canonical hA.1 hB.1
  obtain ⟨eX, eY, eZ⟩ := pointAdd_res hA.1 hB.1
  cases g with
  | zero =>
    obtain ⟨x0, z0, y0⟩ := proper_zero hA hg
    rw [isSum_zero_left hk]
    rw [x0, z0] at eX eY eZ
    refine proper_of_scaled hB hh hc (c := A.Y.res ^ 2 * B.Y.res) (mul_ne_zero (pow_ne_zero 2 y0) (proper_y hB)) ?_ ?_ ?_
    · rw [eX]; ring
    · rw [eY]; ring
    · rw [eZ]; ring
  | some x1 y1 n1 =>
    cases h with
    | zero =>
      obtain ⟨x0, z0, y0⟩ := proper_zero hB hh
      rw [isSum_zero_right hk]
      rw [x0, z0] at eX eY eZ
      refine proper_of_scaled hA hg hc (c := B.Y.res ^ 2 * A.Y.res) (mul_ne_zero (pow_ne_zero 2 y0) (proper_y hA)) ?_ ?_ ?_
      · rw [eX]; ring
      · rw [eY]; ring
      · rw [eZ]; ring
    | some x2 y2 n2 =>
      obtain ⟨hz1, hx1, hy1⟩ := represents_some hA hg
      obtain ⟨hz2, hx2, hy2⟩ := represents_some hB hh
      rw [hx1, hy1, hx2, hy2] at eX eY eZ
      refine proper_of_numerators hc hk (c := (A.Z.res * B.Z.res) ^ 2) (pow_ne_zero 2 (mul_ne_zero hz1 hz2)) ?_ ?_ ?_
      · rw [eX, sumX]; ring
      · rw [eY, sumY]; ring
      · rw [eZ, sumZ]; ring

/-- `PointDouble` doubles in the group (43_point_primitives.md R178). -/
theorem pointDouble_represents {A : Point} (hA : A.Proper) {g k : curve.Point} (hg : Represents A g)
    (hk : IsSum g g k) : (pointDouble A).Proper ∧ Represents (pointDouble A) k := by
  have : Fact P.Prime := ⟨P_prime⟩
  have hc := pointDouble_canonical hA.1
  obtain ⟨eX, eY, eZ⟩ := pointDouble_res hA.1
  cases g with
  | zero =>
    obtain ⟨x0, z0, y0⟩ := proper_zero hA hg
    rw [isSum_zero_left hk]
    rw [x0, z0] at eX
    rw [z0] at eY eZ
    exact proper_of_zero hc (by rw [eX]; ring) (by rw [eZ]; ring) (by rw [eY]; simpa using y0)
  | some x y n =>
    obtain ⟨hz, hx, hy⟩ := represents_some hA hg
    have hq := curve_equation_iff.mp n.1
    rw [hx, hy] at eX
    rw [hy] at eY eZ
    refine proper_of_numerators hc hk (c := A.Z.res ^ 4) (pow_ne_zero 4 hz) ?_ ?_ ?_
    · rw [eX, sumX]; ring
    · rw [eY, sumY]; linear_combination (126 * A.Z.res ^ 4) * hq
    · rw [eZ, sumZ]; linear_combination (6 * y * A.Z.res ^ 4) * hq

/-- `PointNeg` negates in the group (43_point_primitives.md R172). -/
theorem pointNeg_represents {A : Point} (hA : A.Proper) {g k : curve.Point} (hg : Represents A g)
    (hk : IsDifference .zero g k) : (pointNeg A).Proper ∧ Represents (pointNeg A) k := by
  have : Fact P.Prime := ⟨P_prime⟩
  have hc := pointNeg_canonical hA.1
  have nY : (pointNeg A).Y.res = -A.Y.res := fNeg_res hA.1.2.1
  have e : k = .zero - g := hk
  cases g with
  | zero =>
    obtain ⟨x0, z0, y0⟩ := proper_zero hA hg
    have hp := proper_of_zero hc x0 z0 (by rw [nY]; simpa using y0)
    rw [e]
    exact hp
  | some x y n =>
    obtain ⟨hz, hx, hy⟩ := represents_some hA hg
    have hn : curve.Nonsingular x (-y) := curve_nonsingular (by rw [neg_sq]; exact curve_equation_iff.mp n.1)
    have hp := proper_of_some hc hn hz hx (by rw [nY, hy]; show -(y * _) = -y * A.Z.res; ring)
    have : k = .some x (-y) hn := by
      rw [e]
      show (0 : curve.Point) - _ = _
      rw [zero_sub, WeierstrassCurve.Affine.Point.neg_some]
      simp [curve]
    rw [this]
    exact hp

/-- `PointSub` subtracts in the group (43_point_primitives.md R178). -/
theorem pointSub_represents {A B : Point} (hA : A.Proper) (hB : B.Proper) {g h k : curve.Point} (hg : Represents A g)
    (hh : Represents B h) (hk : IsDifference g h k) : (pointSub A B).Proper ∧ Represents (pointSub A B) k := by
  have : Fact P.Prime := ⟨P_prime⟩
  have hn := pointNeg_represents hB hh (show IsDifference .zero h ((0 : curve.Point) - h) from rfl)
  refine pointAdd_represents hA hn.1 hg hn.2 ?_
  have e : k = g - h := hk
  show k = g + (0 - h)
  rw [e, zero_sub, sub_eq_add_neg]

end Sys2Proof.Claims
end

