-- ==== Sys2Proof/Laws/Multiples.lean ====
section
/-! SUPPORT. The tables and the two scalar multipliers against multiples in the group of the curve
(43_point_primitives.md R175 to R177, 46_scalar_mult.md R210, R213, R215). -/

namespace Sys2Proof.Claims

open Sys2Proof Sys2Proof.Machine

/-- The Point is Proper and represents the `n`-th multiple of `g`. -/
def RepMultiple (Q : Point) (n : Nat) (g : curve.Point) : Prop :=
  Q.Proper ∧ ∀ k, IsMultiple n g k → Represents Q k

theorem repMultiple_self {Q : Point} (h : Q.Proper) {g : curve.Point} (hg : Represents Q g) : RepMultiple Q 1 g := by
  have : Fact P.Prime := ⟨P_prime⟩
  refine ⟨h, fun k hk => ?_⟩
  have e : k = 1 • g := hk
  rw [e, one_nsmul]; exact hg

theorem IDENT_proper : IDENT.Proper ∧ Represents IDENT .zero :=
  proper_of_zero IDENT_canonical ZERO_res ZERO_res (by
    have : Fact P.Prime := ⟨P_prime⟩
    show ONE.res ≠ 0; rw [ONE_res]; exact one_ne_zero)

theorem repMultiple_IDENT (g : curve.Point) : RepMultiple IDENT 0 g := by
  have : Fact P.Prime := ⟨P_prime⟩
  refine ⟨IDENT_proper.1, fun k hk => ?_⟩
  have e : k = 0 • g := hk
  rw [e, zero_nsmul]; exact IDENT_proper.2

theorem repMultiple_add {A B : Point} {m n : Nat} {g : curve.Point} (hA : RepMultiple A m g) (hB : RepMultiple B n g) :
    RepMultiple (pointAdd A B) (m + n) g := by
  have : Fact P.Prime := ⟨P_prime⟩
  have hs := fun k (hk : IsSum (m • g) (n • g) k) => pointAdd_represents hA.1 hB.1 (hA.2 _ rfl) (hB.2 _ rfl) hk
  refine ⟨(hs _ rfl).1, fun k hk => (hs k ?_).2⟩
  have e : k = (m + n) • g := hk
  show k = m • g + n • g
  rw [e, add_nsmul]

theorem repMultiple_double {A : Point} {m : Nat} {g : curve.Point} (hA : RepMultiple A m g) :
    RepMultiple (pointDouble A) (2 * m) g := by
  have : Fact P.Prime := ⟨P_prime⟩
  have hs := fun k (hk : IsSum (m • g) (m • g) k) => pointDouble_represents hA.1 (hA.2 _ rfl) hk
  refine ⟨(hs _ rfl).1, fun k hk => (hs k ?_).2⟩
  have e : k = (2 * m) • g := hk
  show k = m • g + m • g
  rw [e, two_mul, add_nsmul]

theorem repMultiple_quadruple {A : Point} {m : Nat} {g : curve.Point} (hA : RepMultiple A m g) :
    RepMultiple (quadruple A) (16 * m) g := by
  have h := repMultiple_double (repMultiple_double (repMultiple_double (repMultiple_double hA)))
  rw [show 2 * (2 * (2 * (2 * m))) = 16 * m by ring] at h
  exact h

/-- Selecting out of a table of multiples of `c·g`. -/
theorem repMultiple_tableSelect {T : Table} {c : Nat} {g : curve.Point}
    (hT : ∀ j, j < 15 → RepMultiple (entry T j) ((j + 1) * c) g) (n : Nibble) :
    RepMultiple (tableSelect T n) (n.toNat * c) g := by
  rw [tableSelect_eq]
  have hn := n.isLt
  split
  · next h => rw [h, zero_mul]; exact repMultiple_IDENT g
  · next h =>
    have := hT (n.toNat - 1) (by omega)
    rwa [show n.toNat - 1 + 1 = n.toNat by omega] at this

/-- The window table of a Point holds its multiples 1 to 15 (43_point_primitives.md R175). -/
theorem repMultiple_window {Q : Point} {g : curve.Point} (h : RepMultiple Q 1 g) (j : Nat) (hj : j < 15) :
    RepMultiple (entry (buildWindowTable Q) j) ((j + 1) * 1) g := by
  have h1 := repMultiple_double h
  have h2 := repMultiple_add h1 h
  have h3 := repMultiple_double h1
  have h4 := repMultiple_add h3 h
  have h5 := repMultiple_double h2
  have h6 := repMultiple_add h5 h
  have h7 := repMultiple_double h3
  have h8 := repMultiple_add h7 h
  have h9 := repMultiple_double h4
  have h10 := repMultiple_add h9 h
  have h11 := repMultiple_double h5
  have h12 := repMultiple_add h11 h
  have h13 := repMultiple_double h6
  have h14 := repMultiple_add h13 h
  rw [mul_one]
  match j, hj with
  | 0, _ => exact h
  | 1, _ => exact h1
  | 2, _ => exact h2
  | 3, _ => exact h3
  | 4, _ => exact h4
  | 5, _ => exact h5
  | 6, _ => exact h6
  | 7, _ => exact h7
  | 8, _ => exact h8
  | 9, _ => exact h9
  | 10, _ => exact h10
  | 11, _ => exact h11
  | 12, _ => exact h12
  | 13, _ => exact h13
  | 14, _ => exact h14

theorem repMultiple_scalarStep {T : Table} {g : curve.Point}
    (hT : ∀ j, j < 15 → RepMultiple (entry T j) ((j + 1) * 1) g) {A : Point} {m : Nat}
    (hA : RepMultiple A m g) (b : Byte) : RepMultiple (scalarStep T false A b) (m * 256 + b.toNat) g := by
  have h1 := repMultiple_add (repMultiple_quadruple hA) (repMultiple_tableSelect hT (hiNibble b))
  have h2 := repMultiple_add (repMultiple_quadruple h1) (repMultiple_tableSelect hT (loNibble b))
  rw [hiNibble_toNat, loNibble_toNat] at h2
  rwa [show 16 * (16 * m + b.toNat / 16 * 1) + b.toNat % 16 * 1 = m * 256 + b.toNat by omega] at h2

theorem repMultiple_scalarLoop {T : Table} {g : curve.Point}
    (hT : ∀ j, j < 15 → RepMultiple (entry T j) ((j + 1) * 1) g) (v : Bytes) :
    ∀ {A : Point} {m : Nat}, RepMultiple A m g →
      RepMultiple (scalarLoop T A v) (m * 256 ^ v.length + beNat v) g := by
  induction v with
  | nil =>
    intro A m hA
    simpa [beNat, leNat, scalarLoop] using hA
  | cons b v ih =>
    intro A m hA
    have := ih (repMultiple_scalarStep hT hA b)
    rw [beNat_cons, List.length_cons, pow_succ]
    rw [show m * (256 ^ v.length * 256) + (b.toNat * 256 ^ v.length + beNat v) =
      (m * 256 + b.toNat) * 256 ^ v.length + beNat v by ring]
    exact this

/-- Doubling the identity changes no limb. -/
theorem quadruple_IDENT : quadruple IDENT = IDENT := by
  have h : pointDouble IDENT = IDENT := by decide +kernel
  rw [quadruple, h, h, h, h]

/-- Skipping the doublings of the first byte is doubling the identity (46_scalar_mult.md R210). -/
theorem scalarStep_first (T : Table) (b : Byte) : scalarStep T true IDENT b = scalarStep T false IDENT b := by
  show pointAdd (quadruple (pointAdd IDENT _)) _ = pointAdd (quadruple (pointAdd (quadruple IDENT) _)) _
  rw [quadruple_IDENT]

theorem scalarMult_eq_loop (Q : Point) (v : Bytes) : scalarMult Q v = scalarLoop (buildWindowTable Q) IDENT v := by
  cases v with
  | nil => rfl
  | cons b v => rw [scalarMult, scalarStep_first]; rfl

/-- `ScalarMult` multiplies in the group, for a scalar of any length (46_scalar_mult.md R215). -/
theorem scalarMult_represents {Q : Point} (hQ : Q.Proper) {g : curve.Point} (hg : Represents Q g) (v : Bytes) :
    RepMultiple (scalarMult Q v) (beNat v) g := by
  have := repMultiple_scalarLoop (repMultiple_window (repMultiple_self hQ hg)) v (repMultiple_IDENT g)
  rw [zero_mul, zero_add] at this
  rw [scalarMult_eq_loop]; exact this

/-- Row `k` of the generator table has base `16^k·G` (43_point_primitives.md R176). -/
theorem repMultiple_genBase {g : curve.Point} (h : RepMultiple GEN 1 g) (k : Nat) :
    RepMultiple (genBase k) (16 ^ k) g := by
  induction k with
  | zero => exact h
  | succ k ih =>
    rw [pow_succ, mul_comm]
    exact repMultiple_quadruple ih

theorem repMultiple_genEntry {B : Point} {c : Nat} {g : curve.Point} (h : RepMultiple B c g) (j : Nat) :
    RepMultiple (genEntry B j) ((j + 1) * c) g := by
  induction j with
  | zero => rw [zero_add, one_mul]; exact h
  | succ j ih => rw [add_mul (j + 1), one_mul]; exact repMultiple_add ih h

theorem genTable_entry {k j : Nat} (hk : k < NTAB) (hj : j < 15) :
    entry (buildGeneratorTable[k]) j = genEntry (genBase k) j := by
  simp only [buildGeneratorTable, Vector.getElem_ofFn, entry]
  rw [List.getD_eq_getElem?_getD, List.getElem?_eq_getElem (by simpa using hj)]
  simp

theorem repMultiple_genSelect {g : curve.Point} (h : RepMultiple GEN 1 g) {k : Nat} (hk : k < NTAB) (n : Nibble) :
    RepMultiple (tableSelect (buildGeneratorTable[k]) n) (n.toNat * 16 ^ k) g :=
  repMultiple_tableSelect
    (fun j hj => by rw [genTable_entry hk hj]; exact repMultiple_genEntry (repMultiple_genBase h k) j) n

theorem repMultiple_baseLoop {g : curve.Point} (h : RepMultiple GEN 1 g) (v : Bytes) :
    ∀ (i : Nat) (A : Point) (m : Nat), i + v.length = 32 → RepMultiple A m g →
      RepMultiple (baseLoop buildGeneratorTable i A v) (m + beNat v) g := by
  induction v with
  | nil =>
    intro i A m _ hA
    simpa [beNat, leNat, baseLoop] using hA
  | cons b v ih =>
    intro i A m hi hA
    rw [List.length_cons] at hi
    have h1 := repMultiple_add hA (repMultiple_genSelect h (k := 63 - 2 * i) (by unfold NTAB; omega) (hiNibble b))
    have h2 := repMultiple_add h1 (repMultiple_genSelect h (k := 62 - 2 * i) (by unfold NTAB; omega) (loNibble b))
    have h3 := ih (i + 1) _ _ (by omega) h2
    rw [hiNibble_toNat, loNibble_toNat] at h3
    have e : m + beNat (b :: v) =
        m + b.toNat / 16 * 16 ^ (63 - 2 * i) + b.toNat % 16 * 16 ^ (62 - 2 * i) + beNat v := by
      rw [beNat_cons, show 63 - 2 * i = 2 * v.length + 1 by omega, show 62 - 2 * i = 2 * v.length by omega, pow_succ,
        pow_mul]
      norm_num
      have := Nat.div_add_mod b.toNat 16
      nth_rw 1 [← this]
      ring
    rw [e]
    exact h3

theorem GEN_proper : GEN.Proper := by
  refine ⟨GEN_canonical, by decide +kernel, ?_⟩
  intro h; exact absurd h (by decide)

/-- `ScalarBaseMult` multiplies the generator in the group (46_scalar_mult.md R215). -/
theorem scalarBaseMult_represents {g : curve.Point} (hg : Represents GEN g) {v : Bytes} (hv : v.length = 32) :
    RepMultiple (scalarBaseMult buildGeneratorTable v) (beNat v) g := by
  have := repMultiple_baseLoop (repMultiple_self GEN_proper hg) v 0 IDENT 0 (by omega) (repMultiple_IDENT g)
  rwa [zero_add] at this

/-! ### The loops as folds over nibbles -/

/-- Selecting out of a table is taking the multiple the nibble names (43_point_primitives.md R174). -/
theorem tableSelect_eq_multiple (T : Table) (n : Nibble) : tableSelect T n = multiple (entry T) n.toNat := by
  rw [tableSelect_eq]; rfl

theorem nibbles_cons (b : Byte) (v : Bytes) : nibbles (b :: v) = b.toNat / 16 :: b.toNat % 16 :: nibbles v := by
  simp [nibbles]

/-- The loop of R210, nibble by nibble. -/
theorem scalarLoop_eq_foldl (T : Table) (v : Bytes) : ∀ A, scalarLoop T A v =
    (nibbles v).foldl (fun A n => pointAdd (quadruple A) (multiple (entry T) n)) A := by
  induction v with
  | nil => intro A; rfl
  | cons b v ih =>
    intro A
    show scalarLoop T (scalarStep T false A b) v = _
    rw [ih]
    rw [nibbles_cons, List.foldl_cons, List.foldl_cons, scalarStep, tableSelect_eq_multiple, tableSelect_eq_multiple,
      hiNibble_toNat, loNibble_toNat]
    rfl

/-- The loop of R213, nibble by nibble. -/
theorem baseLoop_eq_foldl (gt : GenTable) (v : Bytes) : ∀ i A, i + v.length ≤ 32 → baseLoop gt i A v =
    ((nibbles v).zipIdx (2 * i)).foldl (fun A nk => pointAdd A (multiple (genTableEntry gt (63 - nk.2)) nk.1)) A := by
  induction v with
  | nil => intro i A _; rfl
  | cons b v ih =>
    intro i A hi
    rw [List.length_cons] at hi
    have e : ∀ k (hk : k < 64) (n : Nibble), tableSelect (gt[k]) n = multiple (genTableEntry gt k) n.toNat := by
      intro k hk n
      rw [tableSelect_eq_multiple]
      have : genTableEntry gt k = entry (gt[k]) := by
        funext j
        unfold genTableEntry
        rw [List.getD_eq_getElem?_getD, List.getElem?_eq_getElem (by simpa using hk), Option.getD_some,
          Vector.getElem_toList]
      rw [this]
    have e1 := e (63 - 2 * i) (by omega) (hiNibble b)
    have e2 := e (62 - 2 * i) (by omega) (loNibble b)
    rw [hiNibble_toNat] at e1
    rw [loNibble_toNat] at e2
    rw [baseLoop, ih _ _ (by omega), e1, e2, show 2 * (i + 1) = 2 * i + 1 + 1 by omega,
      show 62 - 2 * i = 63 - (2 * i + 1) by omega, nibbles_cons, List.zipIdx_cons, List.zipIdx_cons, List.foldl_cons,
      List.foldl_cons]

end Sys2Proof.Claims
end

