-- ==== Sys2Proof/Laws/Ops.lean ====
section
/-! SUPPORT. How a command ends, what the lazy table build leaves, and the equation of every command's meaning: the
provers cite these and unfold no meaning. -/

namespace Sys2Proof.Machine

/-! ### The shared operations -/

/-- A command that does not raise leaves exactly this state (00_scope.md R14). -/
theorem finish_eq_next {s t : State} : s.finish = .next t ↔ t = s.setErr okCode := by
  simp [State.finish, eq_comm]

/-- A command that raises leaves exactly this state (60_exceptions.md R223). -/
theorem raise_eq_next {s t : State} {K : Err} : s.raise K = .next t ↔ t = s.setErr K.code := by
  simp [State.raise, eq_comm]

theorem ensureTable_gtv (s : State) : s.ensureTable.gtv = true := by
  unfold State.ensureTable; split <;> simp_all

theorem ensureTable_of_valid {s : State} (h : s.gtv = true) : s.ensureTable = s := by
  simp [State.ensureTable, h]

theorem ensureTable_of_invalid {s : State} (h : s.gtv = false) : s.ensureTable = s.setTable buildGeneratorTable := by
  simp [State.ensureTable, h]

/-- After the lazy build the table is the constant table, whatever the state before (10_state.md R35). -/
theorem ensureTable_gt {s : State} (h : s.gtv = true → s.gt = buildGeneratorTable) :
    s.ensureTable.gt = buildGeneratorTable := by
  unfold State.ensureTable
  split
  · next hv => exact h hv
  · rfl

@[simp] theorem ensureTable_e (s : State) : s.ensureTable.e = s.e := by unfold State.ensureTable; split <;> rfl
@[simp] theorem ensureTable_pt (s : State) : s.ensureTable.pt = s.pt := by unfold State.ensureTable; split <;> rfl
@[simp] theorem ensureTable_buf (s : State) : s.ensureTable.buf = s.buf := by unfold State.ensureTable; split <;> rfl
@[simp] theorem ensureTable_flag (s : State) : s.ensureTable.flag = s.flag := by unfold State.ensureTable; split <;> rfl
@[simp] theorem ensureTable_err (s : State) : s.ensureTable.err = s.err := by unfold State.ensureTable; split <;> rfl
@[simp] theorem ensureTable_busy (s : State) : s.ensureTable.busy = s.busy := by unfold State.ensureTable; split <;> rfl
@[simp] theorem ensureTable_pending (s : State) : s.ensureTable.pending = s.pending := by
  unfold State.ensureTable; split <;> rfl
@[simp] theorem ensureTable_reply (s : State) : s.ensureTable.reply = s.reply := by
  unfold State.ensureTable; split <;> rfl

/-! ### The meanings -/

theorem exec_gtinit (s : State) : exec .gtinit s = .next (s.ensureTable.setErr okCode) := rfl
theorem exec_fzero (d : EReg) (s : State) : exec (.fzero d) s = .next ((s.writeE d ZERO).setErr okCode) := rfl
theorem exec_fone (d : EReg) (s : State) : exec (.fone d) s = .next ((s.writeE d ONE).setErr okCode) := rfl
theorem exec_fset (d a : EReg) (s : State) : exec (.fset d a) s = .next ((s.writeE d (s.readE a)).setErr okCode) := rfl
theorem exec_fsel (d a b : EReg) (s : State) :
    exec (.fsel d a b) s = .next ((s.writeE d (fSelect (s.readE a) (s.readE b) s.flag)).setErr okCode) := rfl
theorem exec_feq (a b : EReg) (s : State) :
    exec (.feq a b) s = .next ((s.setFlag (fEqual (s.readE a) (s.readE b))).setErr okCode) := rfl
theorem exec_fisz (a : EReg) (s : State) :
    exec (.fisz a) s = .next ((s.setFlag (fIsZero (s.readE a))).setErr okCode) := rfl
theorem exec_fadd (d a b : EReg) (s : State) :
    exec (.fadd d a b) s = .next ((s.writeE d (fAdd (s.readE a) (s.readE b))).setErr okCode) := rfl
theorem exec_fsub (d a b : EReg) (s : State) :
    exec (.fsub d a b) s = .next ((s.writeE d (fSub (s.readE a) (s.readE b))).setErr okCode) := rfl
theorem exec_fmul (d a b : EReg) (s : State) :
    exec (.fmul d a b) s = .next ((s.writeE d (montMul (s.readE a) (s.readE b))).setErr okCode) := rfl
theorem exec_fsqr (d a : EReg) (s : State) :
    exec (.fsqr d a) s = .next ((s.writeE d (montSqr (s.readE a))).setErr okCode) := rfl
theorem exec_finv (d a : EReg) (s : State) :
    exec (.finv d a) s = .next ((s.writeE d (fInvert (s.readE a))).setErr okCode) := rfl
theorem exec_fsqrt (d a : EReg) (s : State) :
    exec (.fsqrt d a) s = .next (((s.setFlag (fSqrt (s.readE a)).1).writeE d
      (fSelect (fSqrt (s.readE a)).2 (s.readE d) (fSqrt (s.readE a)).1)).setErr okCode) := rfl
theorem exec_fstb (d : BReg) (a : EReg) (s : State) :
    exec (.fstb d a) s = .next ((s.writeBuf d (fBytes (s.readE a))).setErr okCode) := rfl
theorem exec_pident (d : PReg) (s : State) : exec (.pident d) s = .next ((s.writeP d IDENT).setErr okCode) := rfl
theorem exec_pgen (d : PReg) (s : State) : exec (.pgen d) s = .next ((s.writeP d GEN).setErr okCode) := rfl
theorem exec_pset (d a : PReg) (s : State) : exec (.pset d a) s = .next ((s.writeP d (s.readP a)).setErr okCode) := rfl
theorem exec_psel (d a b : PReg) (s : State) :
    exec (.psel d a b) s = .next ((s.writeP d (pointSelect (s.readP a) (s.readP b) s.flag)).setErr okCode) := rfl
theorem exec_padd (d a b : PReg) (s : State) :
    exec (.padd d a b) s = .next ((s.writeP d (pointAdd (s.readP a) (s.readP b))).setErr okCode) := rfl
theorem exec_psub (d a b : PReg) (s : State) :
    exec (.psub d a b) s = .next ((s.writeP d (pointSub (s.readP a) (s.readP b))).setErr okCode) := rfl
theorem exec_pdbl (d a : PReg) (s : State) :
    exec (.pdbl d a) s = .next ((s.writeP d (pointDouble (s.readP a))).setErr okCode) := rfl
theorem exec_pstb (d : BReg) (a : PReg) (s : State) :
    exec (.pstb d a) s = .next ((s.writeBuf d (encodeUncompressed (s.readP a))).setErr okCode) := rfl
theorem exec_pstbc (d : BReg) (a : PReg) (s : State) :
    exec (.pstbc d a) s = .next ((s.writeBuf d (encodeCompressed (s.readP a))).setErr okCode) := rfl
theorem exec_psmul (d a : PReg) (b : BReg) (s : State) :
    exec (.psmul d a b) s = .next ((s.writeP d (scalarMult (s.readP a) (s.readBuf b))).setErr okCode) := rfl

/-! The four commands that may raise, by what their decoder or check answers. -/

theorem exec_fldb_ok {d : EReg} {b : BReg} {s : State} {x : Element} (h : fSetBytes (s.readBuf b) = .ok x) :
    exec (.fldb d b) s = .next ((s.writeE d x).setErr okCode) := by
  show execFldb d _ s = _
  rw [execFldb, h]; rfl

theorem exec_fldb_error {d : EReg} {b : BReg} {s : State} {K : Err} (h : fSetBytes (s.readBuf b) = .error K) :
    exec (.fldb d b) s = .next (s.setErr K.code) := by
  show execFldb d _ s = _
  rw [execFldb, h]; rfl

theorem exec_pldb_ok {d : PReg} {b : BReg} {s : State} {Q : Point} (h : decodePoint (s.readBuf b) = .ok Q) :
    exec (.pldb d b) s = .next ((s.writeP d Q).setErr okCode) := by
  show execPldb d _ s = _
  rw [execPldb, h]; rfl

theorem exec_pldb_error {d : PReg} {b : BReg} {s : State} {K : Err} (h : decodePoint (s.readBuf b) = .error K) :
    exec (.pldb d b) s = .next (s.setErr K.code) := by
  show execPldb d _ s = _
  rw [execPldb, h]; rfl

theorem exec_pstbx_ok {d : BReg} {a : PReg} {s : State} {v : Bytes} (h : encodeX (s.readP a) = .ok v) :
    exec (.pstbx d a) s = .next ((s.writeBuf d v).setErr okCode) := by
  show execPstbx d _ s = _
  rw [execPstbx, h]; rfl

theorem exec_pstbx_error {d : BReg} {a : PReg} {s : State} {K : Err} (h : encodeX (s.readP a) = .error K) :
    exec (.pstbx d a) s = .next (s.setErr K.code) := by
  show execPstbx d _ s = _
  rw [execPstbx, h]; rfl

theorem exec_pbmul_ok {d : PReg} {b : BReg} {s : State} (h : (s.readBuf b).length = 32) :
    exec (.pbmul d b) s =
      .next ((s.ensureTable.writeP d (scalarBaseMult s.ensureTable.gt (s.readBuf b))).setErr okCode) := by
  simp only [exec, execPbmul, h, ne_eq, not_true, if_false, State.finish]

theorem exec_pbmul_error {d : PReg} {b : BReg} {s : State} (h : (s.readBuf b).length ≠ 32) :
    exec (.pbmul d b) s = .next (s.setErr (Err.code .invalidScalarLength)) := by
  simp only [exec, execPbmul, h, ne_eq, not_false_eq_true, if_true, State.raise]

/-! ### Transactions -/

theorem runWord_of_decode {w : Word} {i : Instr} (h : decode w = .ok i) (s : State) : runWord w s = exec i s := by
  simp only [runWord, h]

theorem runWord_of_illegal {w : Word} {why : Illegal} (h : decode w = .error why) (s : State) :
    runWord w s = .next (s.setErr (Err.code .illegalCommand)) := by
  simp only [runWord, h, State.raise]

theorem step_of_idle {s : State} (h : s.pending = []) : step s = .next s := by
  simp only [step, h, idle]

theorem step_of_pending {s : State} {t : Transaction} {rest : List Transaction} (h : s.pending = t :: rest) :
    step s = perform t (s.dropPending rest) := by
  simp only [step, h]

theorem doIssue_of_next {w : Word} {s t : State} (h : runWord w s = .next t) : doIssue w s = .next t.respond := by
  simp only [doIssue, h]

end Sys2Proof.Machine
end

