-- ==== Sys2Proof/Laws/PerInstr.lean ====
section
/-! SUPPORT. Per-command family `WellSpelled`: the fields a command is spelled with pass the check of its opcode's
shape (30_encoding.md R72, R76). -/

namespace Sys2Proof.Laws.WellSpelled

/-- The command is spelled by fields that are those of a command of its opcode's shape. -/
def Statement (i : Instr) : Prop := i.wellFormed = true

theorem gtinit : Statement (.gtinit) := rfl
theorem fzero (ed : EReg) : Statement (.fzero ed) := rfl
theorem fone (ed : EReg) : Statement (.fone ed) := rfl
theorem fset (ed ea : EReg) : Statement (.fset ed ea) := rfl
theorem fsel (ed ea eb : EReg) : Statement (.fsel ed ea eb) := rfl
theorem feq (ea eb : EReg) : Statement (.feq ea eb) := rfl
theorem fisz (ea : EReg) : Statement (.fisz ea) := rfl
theorem fadd (ed ea eb : EReg) : Statement (.fadd ed ea eb) := rfl
theorem fsub (ed ea eb : EReg) : Statement (.fsub ed ea eb) := rfl
theorem fmul (ed ea eb : EReg) : Statement (.fmul ed ea eb) := rfl
theorem fsqr (ed ea : EReg) : Statement (.fsqr ed ea) := rfl
theorem finv (ed ea : EReg) : Statement (.finv ed ea) := rfl
theorem fsqrt (ed ea : EReg) : Statement (.fsqrt ed ea) := rfl
theorem fldb (ed : EReg) (bs : BReg) : Statement (.fldb ed bs) := by
  revert ed bs; unfold Statement; decide +kernel
theorem fstb (bd : BReg) (ea : EReg) : Statement (.fstb bd ea) := by
  revert bd ea; unfold Statement; decide +kernel
theorem pident (pd : PReg) : Statement (.pident pd) := by
  revert pd; unfold Statement; decide +kernel
theorem pgen (pd : PReg) : Statement (.pgen pd) := by
  revert pd; unfold Statement; decide +kernel
theorem pset (pd pa : PReg) : Statement (.pset pd pa) := by
  revert pd pa; unfold Statement; decide +kernel
theorem psel (pd pa pb : PReg) : Statement (.psel pd pa pb) := by
  revert pd pa pb; unfold Statement; decide +kernel
theorem padd (pd pa pb : PReg) : Statement (.padd pd pa pb) := by
  revert pd pa pb; unfold Statement; decide +kernel
theorem psub (pd pa pb : PReg) : Statement (.psub pd pa pb) := by
  revert pd pa pb; unfold Statement; decide +kernel
theorem pdbl (pd pa : PReg) : Statement (.pdbl pd pa) := by
  revert pd pa; unfold Statement; decide +kernel
theorem pldb (pd : PReg) (bs : BReg) : Statement (.pldb pd bs) := by
  revert pd bs; unfold Statement; decide +kernel
theorem pstb (bd : BReg) (pa : PReg) : Statement (.pstb bd pa) := by
  revert bd pa; unfold Statement; decide +kernel
theorem pstbx (bd : BReg) (pa : PReg) : Statement (.pstbx bd pa) := by
  revert bd pa; unfold Statement; decide +kernel
theorem pstbc (bd : BReg) (pa : PReg) : Statement (.pstbc bd pa) := by
  revert bd pa; unfold Statement; decide +kernel
theorem psmul (pd pa : PReg) (bs : BReg) : Statement (.psmul pd pa bs) := by
  revert pd pa bs; unfold Statement; decide +kernel
theorem pbmul (pd : PReg) (bs : BReg) : Statement (.pbmul pd bs) := by
  revert pd bs; unfold Statement; decide +kernel

end Sys2Proof.Laws.WellSpelled
end

