-- ==== Sys2Proof/Tests/Slice0.lean ====
section
/-! SUPPORT. Tests: ill-formed fields refused, the words of the spec decoded, one small step per command with the
result the spec prints (95_test_vectors.md unless another file is named), and for every obligation with hypotheses a
witness that meets them. -/

set_option Elab.async false

namespace Sys2Proof.Tests

open Sys2Proof Sys2Proof.Machine Sys2Proof.Claims

/-! ### Ill-formed fields are refused (30_encoding.md R76; words of 95_test_vectors.md 2.11) -/

theorem test_ill_unassignedOpcode : decode 0x27000000 = .error .unassignedOpcode ∧ decode 0 = .error .unassignedOpcode := by
  decide
theorem test_ill_nonzeroZeroField : decode 0x18201001 = .error .nonzeroZeroField ∧
    Fields.wellFormed ⟨0x18, 2, 0, 1, 0x800⟩ ⟨.element, .element, .element⟩ = false := by decide
theorem test_ill_pointIndex : decode 0x24800000 = .error .pointIndexOutOfRange ∧
    Fields.wellFormed ⟨0x24, 0, 8, 0, 0⟩ ⟨.point, .point, .point⟩ = false ∧
    Fields.wellFormed ⟨0x24, 7, 7, 7, 0⟩ ⟨.point, .point, .point⟩ = true := by decide
theorem test_ill_bufferIndex : decode 0x1D400000 = .error .bufferIndexOutOfRange ∧
    Fields.wellFormed ⟨0x1C, 0, 4, 0, 0⟩ ⟨.element, .buffer, .unused⟩ = false ∧
    decode 0x2C104000 = .error .bufferIndexOutOfRange := by decide
theorem test_ill_unusedField : decode 0x10010000 = .error .nonzeroUnusedField ∧
    Fields.wellFormed ⟨0x01, 1, 0, 0, 0⟩ ⟨.unused, .unused, .unused⟩ = false ∧
    decode 0x14112000 = .error .nonzeroUnusedField := by decide

/-! ### One word of every command (95_test_vectors.md 2.5 to 2.11 and section 3) -/

theorem test_word_gtinit : decode 0x01000000 = .ok (.gtinit) := by decide
theorem test_word_fzero : decode 0x10F00000 = .ok (.fzero 15) := by decide
theorem test_word_fone : decode 0x11300000 = .ok (.fone 3) := by decide
theorem test_word_fset : decode 0x12120000 = .ok (.fset 1 2) := by decide
theorem test_word_fsel : decode 0x13FED000 = .ok (.fsel 15 14 13) := by decide
theorem test_word_feq : decode 0x14012000 = .ok (.feq 1 2) := by decide
theorem test_word_fisz : decode 0x15090000 = .ok (.fisz 9) := by decide
theorem test_word_fadd : decode 0x16344000 = .ok (.fadd 3 4 4) := by decide
theorem test_word_fsub : decode 0x17506000 = .ok (.fsub 5 0 6) := by decide
theorem test_word_fmul : decode 0x18201000 = .ok (.fmul 2 0 1) := by decide
theorem test_word_fsqr : decode 0x19120000 = .ok (.fsqr 1 2) := by decide
theorem test_word_finv : decode 0x1A100000 = .ok (.finv 1 0) := by decide
theorem test_word_fsqrt : decode 0x1B200000 = .ok (.fsqrt 2 0) := by decide
theorem test_word_fldb : decode 0x1CF30000 = .ok (.fldb 15 3) := by decide
theorem test_word_fstb : decode 0x1D3F0000 = .ok (.fstb 3 15) := by decide
theorem test_word_pident : decode 0x20700000 = .ok (.pident 7) := by decide
theorem test_word_pgen : decode 0x21600000 = .ok (.pgen 6) := by decide
theorem test_word_pset : decode 0x22700000 = .ok (.pset 7 0) := by decide
theorem test_word_psel : decode 0x23765000 = .ok (.psel 7 6 5) := by decide
theorem test_word_padd : decode 0x24110000 = .ok (.padd 1 1 0) := by decide
theorem test_word_psub : decode 0x25412000 = .ok (.psub 4 1 2) := by decide
theorem test_word_pdbl : decode 0x26100000 = .ok (.pdbl 1 0) := by decide
theorem test_word_pldb : decode 0x28730000 = .ok (.pldb 7 3) := by decide
theorem test_word_pstb : decode 0x29310000 = .ok (.pstb 3 1) := by decide
theorem test_word_pstbx : decode 0x2A240000 = .ok (.pstbx 2 4) := by decide
theorem test_word_pstbc : decode 0x2B370000 = .ok (.pstbc 3 7) := by decide
theorem test_word_psmul : decode 0x2C102000 = .ok (.psmul 1 0 2) := by decide
theorem test_word_pbmul : decode 0x2D730000 = .ok (.pbmul 7 3) := by decide
theorem test_encode : encode (.fsel 15 14 13) = 0x13FED000 ∧ encode (.psmul 7 7 3) = 0x2C773000 := by decide
theorem test_pseudo : decode 0x12120000 = .ok (.fmov 1 2) ∧ decode 0x22700000 = .ok (.pmov 7 0) ∧
    decode 0x16344000 = .ok (.fdbl 3 4) ∧ decode 0x17506000 = .ok (.fnegz 5 0 6) := by decide
theorem test_assembly : assemblyText (.fsel 15 14 13) = "FSEL e15, e14, e13" ∧
    assemblyText (.pstbc 3 7) = "PSTBC b3, p7" ∧ assemblyText .gtinit = "GTINIT" := by decide

/-- The opcode table transcribed for the claims is the one the decoder's shapes give (30_encoding.md R73, R74). -/
theorem test_opcodeRows : opcodeRows.map (fun r => (r.2.1, r.2.2)) =
    opcodes.map (fun op => (opMatch op, ((shapeOf op).map Shape.mask).getD 0)) := by decide

/-! ### Constants and internal functions (95_test_vectors.md 2.1 to 2.6) -/

def two : Element := ⟨0x00000002000007A2, 0, 0, 0⟩
def three : Element := ⟨0x0000000300000B73, 0, 0, 0⟩
def four : Element := ⟨0x0000000400000F44, 0, 0, 0⟩
def minusOne : Element := ⟨0xFFFFFFFDFFFFF85E, 0xFFFFFFFFFFFFFFFF, 0xFFFFFFFFFFFFFFFF, 0xFFFFFFFFFFFFFFFF⟩
def GyGx : Element := ⟨0x6C9C8D851B5CB87B, 0xB1C234D98C18D3C4, 0x51A143E55692DDD7, 0x3FA8D56BC5638077⟩

theorem test_constants : PL = limbs P ∧ ONE = mont 1 ∧ SEVEN = mont 7 ∧ B3 = mont 21 ∧ R2 = limbs (R * R % P) ∧
    GEN = ⟨mont Gx, mont Gy, ONE⟩ ∧ P * PINV.toNat % 2 ^ 64 = 2 ^ 64 - 1 ∧ R * RINV % P = 1 := by decide +kernel
theorem test_addCarry64 : addCarry64 0xFFFFFFFFFFFFFFFF 0xFFFFFFFFFFFFFFFF true = (0xFFFFFFFFFFFFFFFF, true) := by decide
theorem test_subBorrow64 : subBorrow64 0 0xFFFFFFFFFFFFFFFF true = (0, true) := by decide
theorem test_mul64 : mul64 0xD838091DD2253531 0xFFFFFFFEFFFFFC2F = (0xFFFFFFFFFFFFFFFF, 0xD838091CF9ED28D9) := by decide
theorem test_montMul_plain : montMul (limbs (P - 1)) (limbs (P - 1)) =
    ⟨0xD838091D0868192A, 0xBCB223FEDC24A059, 0x9C46C2C295F2B761, 0xC9BD190515538399⟩ := by decide +kernel
theorem test_toBytes : toBytes ⟨0x8899AABBCCDDEEFF, 0x0011223344556677, 0x0FEDCBA987654321, 0x0123456789ABCDEF⟩ =
    [0x01, 0x23, 0x45, 0x67, 0x89, 0xAB, 0xCD, 0xEF, 0x0F, 0xED, 0xCB, 0xA9, 0x87, 0x65, 0x43, 0x21,
     0x00, 0x11, 0x22, 0x33, 0x44, 0x55, 0x66, 0x77, 0x88, 0x99, 0xAA, 0xBB, 0xCC, 0xDD, 0xEE, 0xFF] := by decide
/-- The chains' exponents and counts (42_field_inv_sqrt.md R160, R162, R164). -/
theorem test_chains : chainExponent invertChain = P - 2 ∧ chainExponent sqrtChain = (P + 1) / 4 ∧
    (chainMuls invertChain, chainSqrs invertChain) = (15, 255) ∧ (chainMuls sqrtChain, chainSqrs sqrtChain) = (13, 253) := by
  decide +kernel

/-! ### One step of each command -/

/-- The next state of an outcome. -/
def next? : Result → Option State
  | .next t => some t
  | .fault _ => none
  | .refused _ => none

/-- One observation after one command. -/
def after {α : Type} (i : Instr) (s : State) (f : State → α) : Option α := (next? (exec i s)).map f

/-- A state with two Elements in `e0`, `e1`. -/
def twoE (a b : Element) : State := (State.reset.writeE 0 a).writeE 1 b
/-- A state with two Points in `p0`, `p1`. -/
def twoP (A B : Point) : State := (State.reset.writeP 0 A).writeP 1 B
/-- A state with a byte string in `b0`. -/
def oneB (v : Bytes) : State := State.reset.writeBuf 0 v

/-- `2·G` and `3·G` as `PDBL` and `PADD` leave them (43_point_primitives.md R178, 95_test_vectors.md P6). -/
def G2 : Point :=
  ⟨⟨0xFDAD99371C4BC8C2, 0xCCEAB5427B8300F2, 0x6202962DF9D0A797, 0x24CA1637C3488D08⟩,
   ⟨0x1CD20838E6FDDC9F, 0xA87D43FDB563384B, 0xCC27CB48A46449AA, 0x55DEBB381F4AD034⟩,
   ⟨0xF35AFD8C97BDB501, 0xA03916E163BF0510, 0xE783E5DEA02C36C6, 0x2290DF206E28D718⟩⟩
def G3 : Point :=
  ⟨⟨0xA6D8197F7A8821A5, 0x99F4A4F782C2DE37, 0x418932995E1B946A, 0x90F77642597ABCB9⟩,
   ⟨0xC9AD19FB435B45D3, 0xB4B79EAD4D5DC77A, 0x03B5FE1E0A88A1B7, 0x54D7515F2B7CEFBB⟩,
   ⟨0x3DB73281C3972A9E, 0x094AE0EB92912171, 0x709DEC1AD8DF8DC4, 0x0F7AA1A7F9EDAFC5⟩⟩
/-- `3·G` as both multipliers leave it (95_test_vectors.md P6). -/
def G3mul : Point :=
  ⟨⟨0x16227CE3D424AF14, 0x3CBDBB6B45E6DE91, 0x62DB204436407C58, 0x2FFE5547CF0D5C07⟩,
   ⟨0xACDB3992FD13DA72, 0x464939F07696C9AE, 0xF68628413522DD7F, 0x9C353569758A38D6⟩,
   ⟨0x03A95BA4008BF576, 0x178A0EDD264D1337, 0x5B7A56C362727A4E, 0x356D9B58649E5167⟩⟩
/-- `Gx` as 32 bytes. -/
def GxBytes : Bytes :=
  [0x79, 0xBE, 0x66, 0x7E, 0xF9, 0xDC, 0xBB, 0xAC, 0x55, 0xA0, 0x62, 0x95, 0xCE, 0x87, 0x0B, 0x07,
   0x02, 0x9B, 0xFC, 0xDB, 0x2D, 0xCE, 0x28, 0xD9, 0x59, 0xF2, 0x81, 0x5B, 0x16, 0xF8, 0x17, 0x98]
/-- `Gy` as 32 bytes. -/
def GyBytes : Bytes :=
  [0x48, 0x3A, 0xDA, 0x77, 0x26, 0xA3, 0xC4, 0x65, 0x5D, 0xA4, 0xFB, 0xFC, 0x0E, 0x11, 0x08, 0xA8,
   0xFD, 0x17, 0xB4, 0x48, 0xA6, 0x85, 0x54, 0x19, 0x9C, 0x47, 0xD0, 0x8F, 0xFB, 0x10, 0xD4, 0xB8]
/-- The encoding of `p`, the least integer that is refused. -/
def PBytes : Bytes := PM1.take 31 ++ [0x2F]

theorem test_gtinit : after .gtinit State.reset (fun t => (t.gtv, t.err)) = some (true, 0) := by decide +kernel
theorem test_gtinit_table : (buildGeneratorTable[0])[0] = GEN ∧ (buildGeneratorTable[0])[2] = G3 := by decide +kernel
theorem test_fzero : after (.fzero 15) (State.reset.writeE 15 three) (fun t => t.readE 15) = some ZERO := by decide +kernel
theorem test_fone : after (.fone 3) State.reset (fun t => t.readE 3) = some ⟨0x00000001000003D1, 0, 0, 0⟩ := by
  decide +kernel
theorem test_fset : after (.fset 1 0) (twoE three two) (fun t => t.readE 1) = some three := by decide +kernel
theorem test_fsel_flag : after (.fsel 2 0 1) ((twoE three two).setFlag true) (fun t => t.readE 2) = some three := by
  decide +kernel
theorem test_fsel_noflag : after (.fsel 2 0 1) (twoE three two) (fun t => t.readE 2) = some two := by decide +kernel
theorem test_feq : after (.feq 0 1) (twoE two two) State.flag = some true := by decide +kernel
theorem test_feq_differs : after (.feq 0 1) ((twoE two three).setFlag true) State.flag = some false := by decide +kernel
theorem test_fisz : after (.fisz 7) State.reset State.flag = some true := by decide +kernel
theorem test_fisz_one : after (.fisz 0) ((twoE ONE two).setFlag true) State.flag = some false := by decide +kernel
theorem test_fadd_wraps : after (.fadd 2 0 1) (twoE minusOne ONE) (fun t => t.readE 2) = some ZERO := by decide +kernel
theorem test_fadd_carries : after (.fadd 0 0 0) (twoE minusOne ONE) (fun t => t.readE 0) =
    some ⟨0xFFFFFFFCFFFFF48D, 0xFFFFFFFFFFFFFFFF, 0xFFFFFFFFFFFFFFFF, 0xFFFFFFFFFFFFFFFF⟩ := by decide +kernel
theorem test_fsub_borrows : after (.fsub 2 0 1) (twoE ZERO ONE) (fun t => t.readE 2) = some minusOne := by decide +kernel
theorem test_fsub_order : after (.fsub 2 0 1) (twoE ONE minusOne) (fun t => t.readE 2) = some two := by decide +kernel
theorem test_fmul : after (.fmul 2 0 1) (twoE GEN.X GEN.Y) (fun t => t.readE 2) = some GyGx := by decide +kernel
theorem test_fmul_minus_one : after (.fmul 0 0 0) (twoE minusOne ONE) (fun t => t.readE 0) = some ONE := by decide +kernel
theorem test_fsqr : after (.fsqr 0 0) (twoE GEN.X ONE) (fun t => t.readE 0) =
    some ⟨0x2293294D46232198, 0xA561DEAAA7B691AE, 0xF2457DD8D5CCC625, 0x02C1AC53E90530F1⟩ := by decide +kernel
theorem test_fldb : after (.fldb 2 0) (oneB PM1) (fun t => (t.readE 2, t.err)) = some (minusOne, 0) := by decide +kernel
theorem test_fldb_p : after (.fldb 2 0) ((oneB PBytes).writeE 2 three) (fun t => (t.readE 2, t.err)) = some (three, 1) := by
  decide +kernel
theorem test_fstb : after (.fstb 3 0) ((twoE minusOne ONE).writeBuf 3 (List.replicate 65 1)) (fun t => t.readBuf 3) =
    some PM1 := by decide +kernel
theorem test_pident : after (.pident 0) (twoP GEN GEN) (fun t => t.readP 0) = some ⟨ZERO, ONE, ZERO⟩ := by decide +kernel
theorem test_pgen : after (.pgen 7) State.reset (fun t => (t.readP 7).Z) = some ONE := by decide +kernel
theorem test_pset : after (.pset 7 0) (twoP GEN G2) (fun t => t.readP 7) = some GEN := by decide +kernel
theorem test_psel_flag : after (.psel 2 0 1) ((twoP G2 GEN).setFlag true) (fun t => t.readP 2) = some G2 := by
  decide +kernel
theorem test_psel_noflag : after (.psel 2 0 1) (twoP G2 GEN) (fun t => t.readP 2) = some GEN := by decide +kernel
theorem test_padd : after (.padd 1 1 0) (twoP GEN G2) (fun t => t.readP 1) = some G3 := by decide +kernel
theorem test_padd_identity : after (.padd 2 0 1) (twoP GEN IDENT) (fun t => t.readP 2) = some
    ⟨GyGx, ⟨0x4792F73A485DEA9B, 0xB36FD8D57A3892E9, 0x3A4E7258ECB7E6F3, 0xFBBAD96F016A9C54⟩, GEN.Y⟩ := by decide +kernel
theorem test_psub : after (.psub 3 0 0) (twoP GEN IDENT) (fun t => t.readP 3) = some ⟨ZERO, G2.Y, ZERO⟩ := by
  decide +kernel
theorem test_pdbl : after (.pdbl 1 0) (twoP GEN IDENT) (fun t => t.readP 1) = some G2 := by decide +kernel
theorem test_pldb : after (.pldb 1 0) (oneB (0x04 :: (GxBytes ++ GyBytes))) (fun t => (t.readP 1, t.err)) = some (GEN, 0) := by
  decide +kernel
theorem test_pstb_identity : after (.pstb 0 3) State.reset (fun t => t.readBuf 0) = some [0x00] := by decide +kernel
theorem test_pstbx_identity : after (.pstbx 0 3) (oneB [0xAA]) (fun t => (t.readBuf 0, t.err)) = some ([0xAA], 5) := by
  decide +kernel
theorem test_pbmul_length : after (.pbmul 2 0) (oneB (List.replicate 31 1)) (fun t => (t.readP 2, t.gtv, t.err)) =
    some (IDENT, false, 6) := by decide +kernel

/-! The chains are too long to be unfolded at once: the value of a chain is read off its exponent (Laws/Chain.lean) and
the power computed by squaring (`powModFuel`, Laws/Prime.lean). -/

theorem finv_two : fInvert two = ⟨0, 0, 0, 0x8000000000000000⟩ := by
  apply eq_of_val (fInvert_res (by decide)).1 (by decide)
  rw [val_eq_of_res (a := fInvert two) (n := 2 ^ (P - 2))
    (by rw [(fInvert_res (by decide)).2, show two = mont 2 by decide +kernel, res_mont]; push_cast; rfl),
    ← powModFuel_eq P 256 2 (P - 2) (by decide)]
  decide +kernel
theorem finv_zero : fInvert ZERO = ZERO := by
  apply eq_of_res (fInvert_res (by decide)).1 (by decide)
  rw [(fInvert_res (by decide)).2, ZERO_res, zero_pow (by decide)]
theorem finv_one : fInvert ONE = ONE := by
  apply eq_of_res (fInvert_res (by decide)).1 (by decide)
  rw [(fInvert_res (by decide)).2, ONE_res, one_pow]
theorem sqrtCandidate_of {v r : Nat} (h : powModFuel P 256 v ((P + 1) / 4) = r % P) : sqrtCandidate (mont v) = mont r := by
  apply eq_of_val (sqrtCandidate_res (mont_canonical v)).1 (mont_canonical r)
  rw [val_mont, ← h, powModFuel_eq P 256 v _ (by decide)]
  exact val_eq_of_res (by rw [(sqrtCandidate_res (mont_canonical v)).2, res_mont]; push_cast; rfl)
theorem fsqrt_four : fSqrt four = (true, two) := by
  rw [fSqrt, show four = mont 4 by decide +kernel, sqrtCandidate_of (r := 2) (by decide +kernel)]
  decide +kernel
theorem fsqrt_three : (fSqrt three).1 = false := by
  rw [fSqrt, show three = mont 3 by decide +kernel,
    sqrtCandidate_of (r := 0x0A2D2BA93507F1DF233770C2A797962CC61F6D15DA14ECD47D8D27AE1CD5F852) (by decide +kernel)]
  decide +kernel

theorem test_finv : after (.finv 1 0) (twoE two ONE) (fun t => t.readE 1) = some ⟨0, 0, 0, 0x8000000000000000⟩ :=
  congrArg some ((readE_of_writeE_setErr _ _ _ _).trans finv_two)
theorem test_finv_zero : after (.finv 1 0) (twoE ZERO ONE) (fun t => (t.readE 1, t.err)) = some (ZERO, 0) :=
  congrArg (fun x => some (x, 0)) ((readE_of_writeE_setErr _ _ _ _).trans finv_zero)
theorem test_fsqrt : after (.fsqrt 1 0) (twoE four ONE) (fun t => (t.readE 1, t.flag)) = some (two, true) := by
  rw [after, exec_fsqrt, show (twoE four ONE).readE 0 = four by decide +kernel, fsqrt_four]
  decide +kernel
theorem test_fsqrt_none : after (.fsqrt 1 0) ((twoE three ONE).setFlag true) (fun t => (t.readE 1, t.flag, t.err)) =
    some (ONE, false, 0) := by
  rw [after, exec_fsqrt, show ((twoE three ONE).setFlag true).readE 0 = three by decide +kernel, fsqrt_three, fSelect_eq]
  decide +kernel
theorem test_pldb_compressed : after (.pldb 1 0) (oneB (0x02 :: GxBytes)) (fun t => (t.readP 1, t.err)) = some (GEN, 0) := by
  have h : decodePoint ((oneB (0x02 :: GxBytes)).readBuf 0) = .ok ⟨mont (beNat GxBytes), mont Gy, ONE⟩ :=
    (decodePoint_compressed 0x02 GxBytes (.inl rfl) rfl).trans (decodeCompressed_root (.inl rfl) rfl (by decide +kernel)
      (by decide) (by decide +kernel) (by decide))
  rw [after, exec_pldb_ok h]
  decide +kernel
theorem test_pldb_no_root : after (.pldb 1 0) (oneB (0x03 :: List.replicate 32 0)) (fun t => (t.readP 1, t.err)) =
    some (IDENT, 4) := by
  have n : ¬ ∃ y, y < P ∧ y ^ 2 % P = (beNat (List.replicate 32 0) ^ 3 + 7) % P := by
    rintro ⟨y, -, h⟩
    have hy : ((y : Nat) : ZMod P) ^ 2 = (mont 7).res := by
      have : ((y ^ 2 : Nat) : ZMod P) = ((beNat (List.replicate 32 0) ^ 3 + 7 : Nat) : ZMod P) := by
        rwa [ZMod.natCast_eq_natCast_iff']
      rw [show beNat (List.replicate 32 0) ^ 3 + 7 = 7 by decide +kernel] at this
      rw [res_mont]; push_cast at this ⊢; exact this
    have hr := fSqrt_root (mont_canonical 7) hy
    have hok := (fSqrt_ok_iff (mont_canonical 7)).mpr (by rcases hr with e | e <;> rw [e] <;> simp [hy])
    rw [fSqrt, sqrtCandidate_of
      (r := powModFuel P 256 7 ((P + 1) / 4)) (by decide +kernel)] at hok
    exact absurd hok (by decide +kernel)
  have h : decodePoint ((oneB (0x03 :: List.replicate 32 0)).readBuf 0) = .error .invalidCompressedPoint :=
    (decodePoint_compressed 0x03 (List.replicate 32 0) (.inr rfl) rfl).trans
      (decodeCompressed_none rfl (by decide +kernel) n)
  rw [after, exec_pldb_error h]
  decide +kernel
theorem affine_GEN : affine GEN = some (GEN.X, GEN.Y) := by
  rw [affine_eq GEN_canonical, if_neg (by decide), show fInvert GEN.Z = ONE from finv_one]
  decide +kernel
theorem test_pstb : after (.pstb 1 0) (twoP GEN IDENT) (fun t => t.readBuf 1) = some (0x04 :: (GxBytes ++ GyBytes)) := by
  rw [after, exec_pstb, show (twoP GEN IDENT).readP 0 = GEN by decide +kernel, encodeUncompressed, affine_GEN]
  decide +kernel
theorem test_pstbx : after (.pstbx 1 0) (twoP GEN IDENT) (fun t => (t.readBuf 1, t.err)) = some (GxBytes, 0) := by
  rw [after, exec_pstbx_ok (v := fBytes GEN.X)
    (by rw [show (twoP GEN IDENT).readP 0 = GEN by decide +kernel, encodeX, affine_GEN]; rfl)]
  decide +kernel
theorem test_pstbc : after (.pstbc 1 0) (twoP GEN IDENT) (fun t => t.readBuf 1) = some (0x02 :: GxBytes) := by
  rw [after, exec_pstbc, show (twoP GEN IDENT).readP 0 = GEN by decide +kernel, encodeCompressed, affine_GEN]
  decide +kernel

theorem two_steps_to_G3 : pointAdd (pointDouble GEN) GEN = G3 ∧ pointAdd (pointAdd GEN GEN) GEN = G3 ∧
    pointAdd IDENT G3 = G3mul ∧ pointAdd IDENT IDENT = IDENT := by decide +kernel

/-- `PSMUL` of the generator by the one-byte scalar 3 (95_test_vectors.md P6). -/
theorem test_psmul : scalarMult GEN [0x03] = G3mul := by
  rw [scalarMult_eq_loop, scalarLoop_eq_foldl]
  show pointAdd (quadruple (pointAdd (quadruple IDENT) IDENT)) (pointAdd (pointDouble GEN) GEN) = _
  rw [quadruple_IDENT, two_steps_to_G3.2.2.2, quadruple_IDENT, two_steps_to_G3.1, two_steps_to_G3.2.2.1]

/-- `PBMUL` by the 32-byte scalar 3 (95_test_vectors.md P6). -/
theorem test_pbmul : scalarBaseMult buildGeneratorTable (List.replicate 31 0 ++ [0x03]) = G3mul := by
  have zero : ∀ (n i : Nat), baseLoop buildGeneratorTable i IDENT (List.replicate n 0 ++ [0x03]) =
      baseLoop buildGeneratorTable (i + n) IDENT [0x03] := by
    intro n
    induction n with
    | zero => intro i; rfl
    | succ n ih =>
      intro i
      rw [List.replicate_succ, List.cons_append, baseLoop, tableSelect_eq_multiple, tableSelect_eq_multiple,
        show (hiNibble 0).toNat = 0 from rfl, show (loNibble 0).toNat = 0 from rfl,
        show ∀ T, multiple T 0 = IDENT from fun _ => rfl, show ∀ T, multiple T 0 = IDENT from fun _ => rfl,
        two_steps_to_G3.2.2.2, two_steps_to_G3.2.2.2, ih, Nat.add_right_comm, Nat.add_assoc]
  rw [scalarBaseMult, zero, baseLoop, baseLoop, tableSelect_eq_multiple, tableSelect_eq_multiple,
    show (hiNibble 0x03).toNat = 0 from rfl, show (loNibble 0x03).toNat = 3 from rfl,
    show ∀ T, multiple T 0 = IDENT from fun _ => rfl, show ∀ T, multiple T 3 = T 2 from fun _ => rfl,
    two_steps_to_G3.2.2.2, genTable_entry (by decide) (by decide)]
  show pointAdd IDENT (pointAdd (pointAdd GEN GEN) GEN) = _
  rw [two_steps_to_G3.2.1, two_steps_to_G3.2.2.1]

/-! ### Errors of the decoder, transactions, ports -/

theorem test_pldb_errors :
    after (.pldb 1 0) (oneB (0x04 :: (GxBytes ++ GxBytes))) (fun t => (t.readP 1, t.err)) = some (IDENT, 3) ∧
    after (.pldb 1 0) (oneB (0x06 :: (GxBytes ++ GyBytes))) (fun t => t.err) = some 2 ∧
    after (.pldb 1 0) (oneB (0x02 :: PBytes)) (fun t => t.err) = some 1 := by decide +kernel
theorem test_step_illegal : (next? (step (State.reset.withFetchWord 32 0))).map (fun t => (t.err, t.reply)) =
    some (15, .response 15 false) := by decide +kernel
theorem test_step_command : (next? (step (State.reset.withFetchWord 32 0x11000000))).map (fun t => (t.readE 0, t.reply)) =
    some (ONE, .response 0 false) := by decide +kernel
theorem test_status : (((State.reset.setFlag true).setErr 5).setTable State.reset.gt).statusWord = 0x00000056 := by
  decide +kernel
theorem test_port_commit : ((PortState.run PortState.reset (stagingCycles 2 0 [0xAB, 0xCD] ++ [commitCycle 2 2])).core.readBuf 2,
    (PortState.run PortState.reset [commitCycle 2 2]).core.readBuf 2) = ([0xAB, 0xCD], []) := by decide +kernel
/-- 46_scalar_mult.md R210: 259 `PointDouble`, 71 `PointAdd`, 64 `TableSelect`; R213: 64 `PointAdd`, 64 `TableSelect`. -/
theorem test_scalar_counts : scalarMultCount 32 = ⟨7 * 259 + 14 * 71, 2 * 259, 9 * 259 + 19 * 71, 0, 64⟩ ∧
    scalarBaseMultCount = ⟨14 * 64, 0, 19 * 64, 0, 64⟩ := by decide
/-- 42_field_inv_sqrt.md R165 (h): 15 + 255, and 13 + 254 with one `FEqual`; 40_field_primitives.md R106. -/
theorem test_field_counts : invertCount = ⟨15, 255, 0, 0, 0⟩ ∧ sqrtCount = ⟨13, 254, 0, 1, 0⟩ ∧
    montMulCount = ⟨16, 16, 4⟩ := by decide

/-! ### Witnesses: states and operands that meet the hypotheses of each obligation, clause by clause -/

/-- `p − 1` and `1` in `e0`, `e1`; the generator and the identity in `p0`, `p1`; a byte in `b0`. -/
def sample : State := ((twoE minusOne ONE).writeP 0 GEN).writeBuf 0 [0x00]

theorem witness_EncodeDecode : decode 0x2C773000 = .ok (.psmul 7 7 3) := by decide
theorem witness_OpcodeTable : (0xFFFFFFFF : Word) &&& 0xFF000FFF ≠ 0x18000000 ∧ (0x18FFF000 : Word) &&& 0xFF000FFF = 0x18000000 ∧
    decode 0x18FFF000 = .ok (.fmul 15 15 15) := by decide
theorem witness_IllegalWord : decode 0x1D400000 = .error .bufferIndexOutOfRange ∧ decode 0x18201800 = .error .nonzeroZeroField ∧
    decode 0x2E000000 = .error .unassignedOpcode := by decide
theorem witness_StepRunsDecoded : (sample.issueNext 0x11F00000).pending = .issue 0x11F00000 :: [] ∧
    decode 0x11F00000 = .ok (.fone 15) ∧
    ∃ t, exec (.fone 15) { sample.issueNext 0x11F00000 with pending := [] } = .next t := ⟨rfl, by decide, _, rfl⟩
theorem witness_HostTransactions : (decode 0x11F00000 = .ok (.fone 15) ∧ ∃ t, exec (.fone 15) sample = .next t) ∧
    decode 0 = .error .unassignedOpcode := ⟨⟨by decide, _, rfl⟩, by decide⟩
theorem witness_IssueOrder : (sample.issueNext 0x11F00000).pending = [.issue 0x11F00000] ++ [] := rfl
theorem witness_EveryStepLeavesAState : sample.pending = [] := rfl

theorem sample_inv : sample.GroupInv := by
  refine ⟨⟨?_, ?_, ?_, .inl (by decide), fun h => absurd h (by decide), rfl⟩, ?_⟩
  · unfold State.ElementsCanonical; decide +kernel
  · unfold State.PointsCanonical; decide +kernel
  · show Memory.wf _; decide +kernel
  · unfold State.PointsProper; decide +kernel
theorem sample_pending_inv (w : Word) : (sample.issueNext w).GroupInv :=
  ⟨⟨sample_inv.inv.elements, sample_inv.inv.points, sample_inv.inv.buffers, sample_inv.inv.err, sample_inv.inv.table,
    sample_inv.inv.idle⟩, sample_inv.proper⟩
theorem sample_steps : ∃ t, step (sample.issueNext 0x24000000) = .next t ∧ t.readP 0 = G2 := by
  have hp : (sample.issueNext 0x24000000).pending = .issue 0x24000000 :: [] := rfl
  have hd : decode 0x24000000 = .ok (.padd 0 0 0) := by decide
  have he := doIssue_of_next ((runWord_of_decode hd ((sample.issueNext 0x24000000).dropPending [])).trans
    (exec_padd 0 0 0 _))
  exact ⟨_, (step_of_pending hp).trans he, by decide +kernel⟩
theorem witness_StepKeepsInv : (sample.issueNext 0x24000000).Inv ∧ ∃ t, step (sample.issueNext 0x24000000) = .next t :=
  ⟨(sample_pending_inv _).inv, sample_steps.choose, sample_steps.choose_spec.1⟩
theorem witness_StepKeepsCurve :
    (sample.issueNext 0x24000000).CurveInv ∧ ∃ t, step (sample.issueNext 0x24000000) = .next t :=
  ⟨⟨(sample_pending_inv _).inv, fun i => ⟨((sample_pending_inv 0x24000000).proper i).1,
    ((sample_pending_inv 0x24000000).proper i).2.1⟩⟩, sample_steps.choose, sample_steps.choose_spec.1⟩
theorem witness_StepKeepsPoints :
    (sample.issueNext 0x24000000).GroupInv ∧ (∃ t, step (sample.issueNext 0x24000000) = .next t) ∧
    ((sample.issueNext 0x24000000).readP 1).Z = ZERO :=
  ⟨sample_pending_inv _, ⟨sample_steps.choose, sample_steps.choose_spec.1⟩, by decide +kernel⟩

/-- Canonical operands, the largest residue and `ONE` among them: `FEQ`, `FISZ`, `FADD`, `FSUB`, `FMUL`, `FSQR`, `FINV`,
`FSQRT`, `FSTB`. -/
theorem witness_elements : (sample.readE 0).Canonical ∧ (sample.readE 1).Canonical := by decide +kernel
theorem witness_ElementPredicates : (sample.readE 0).Canonical ∧ (sample.readE 1).Canonical := witness_elements
theorem witness_FaddResult : (sample.readE 0).Canonical ∧ (sample.readE 1).Canonical := witness_elements
theorem witness_FsubResult : (sample.readE 2).Canonical ∧ (sample.readE 0).Canonical ∧ sample.readE 2 = ZERO ∧
    sample.readE 0 ≠ ZERO := by decide +kernel
theorem witness_FmulResult : (sample.readE 0).Canonical ∧ (sample.readE 1).Canonical := witness_elements
theorem witness_FsqrResult : (sample.readE 0).Canonical := witness_elements.1
theorem witness_FieldArithmeticLaws : minusOne.Canonical ∧ ONE.Canonical ∧ minusOne ≠ ZERO ∧ P - 1 < P ∧ 0 < P - 1 ∧
    (P - 1) * 0 % P = 0 := by decide +kernel
theorem witness_FieldLaws : (sample.readE 0).Canonical ∧ (sample.readE 1).Canonical ∧ (2 : EReg) ≠ 0 ∧
    sample.readE 1 = ONE ∧ (sample.readE 2).Canonical ∧ sample.readE 2 = ZERO ∧ (0 : EReg) ≠ 2 ∧
    ((twoE minusOne two).readE 0).Canonical ∧ ((twoE minusOne two).readE 1).Canonical ∧
    ((twoE minusOne two).readE 1).val = 2 := by decide +kernel
theorem witness_FinvResult : (sample.readE 0).Canonical ∧ (sample.readE 2).Canonical ∧ sample.readE 2 = ZERO := by
  decide +kernel
theorem witness_FinvInverts : (sample.readE 0).Canonical ∧ (2 : EReg) ≠ 0 ∧ sample.readE 0 ≠ ZERO := by decide +kernel
/-- Both outcomes of `FSQRT` occur. -/
theorem witness_FsqrtResult : ((twoE four ONE).readE 0).Canonical ∧ (fSqrt ((twoE four ONE).readE 0)).1 = true ∧
    ((twoE three ONE).readE 0).Canonical ∧ (fSqrt ((twoE three ONE).readE 0)).1 = false := by
  rw [show (twoE four ONE).readE 0 = four by decide +kernel, show (twoE three ONE).readE 0 = three by decide +kernel]
  exact ⟨by decide, by rw [fsqrt_four], by decide, fsqrt_three⟩
theorem witness_FsqrtDecidesSquares : ((twoE four ONE).readE 0).Canonical ∧ 2 < P ∧
    2 ^ 2 % P = ((twoE four ONE).readE 0).val ∧ ((State.reset).readE 0).Canonical ∧ 0 ^ 2 % P = (State.reset.readE 0).val := by
  decide +kernel
theorem witness_FldbResult :
    (((oneB PM1).readBuf 0).length = 32 ∧ bigEndian ((oneB PM1).readBuf 0) < P) ∧
    (((oneB PBytes).readBuf 0).length = 32 ∧ P ≤ bigEndian ((oneB PBytes).readBuf 0)) ∧
    ((oneB (PM1.take 31)).readBuf 0).length ≠ 32 := by decide +kernel
theorem witness_ElementRoundTrips : (sample.readE 0).Canonical ∧
    ∃ t, exec (.fldb 2 0) (oneB PM1) = .next t ∧ t.err = 0 :=
  ⟨witness_elements.1, _, exec_fldb_ok (x := minusOne) (by rw [fSetBytes_eq]; decide +kernel), rfl⟩

theorem witness_PointConstantsAndCopies : (oneB ([0x04] ++ encoding32 Gx ++ encoding32 Gy)).readBuf 0 =
    [0x04] ++ encoding32 Gx ++ encoding32 Gy := by decide +kernel
theorem witness_points : (sample.readP 0).Canonical ∧ (sample.readP 1).Canonical := by decide +kernel
theorem witness_PaddClosedForm : (sample.readP 0).Canonical ∧ (sample.readP 1).Canonical := witness_points
theorem witness_PdblClosedForm : (sample.readP 0).Canonical := witness_points.1
/-- A second operand with `Y = 0` is canonical too, and is on no curve point. -/
theorem witness_PsubIsPaddOfNegation : (sample.readP 0).Canonical ∧ (sample.readP 1).Canonical ∧
    ((sample.writeP 2 ⟨ONE, ZERO, ONE⟩).readP 2).Canonical ∧ (2 : PReg) ≠ 0 := by decide +kernel
theorem witness_PaddCommutes : (sample.readP 0).Canonical ∧ (sample.readP 1).Canonical := witness_points
theorem witness_PointIdentities : (sample.readP 0).Canonical ∧ sample.readP 1 = IDENT ∧ (sample.readP 0).Y ≠ ZERO ∧
    (sample.readP 1).Canonical := by decide +kernel

theorem gen_on_curve : (Gy : ZMod P) ^ 2 = (Gx : ZMod P) ^ 3 + 7 := by
  have : ((Gy ^ 2 : Nat) : ZMod P) = ((Gx ^ 3 + 7 : Nat) : ZMod P) := by
    rw [ZMod.natCast_eq_natCast_iff']; decide +kernel
  push_cast at this; exact this
/-- The generator in the group of the curve. -/
def genPoint : curve.Point := .some (Gx : ZMod P) (Gy : ZMod P) (curve_nonsingular gen_on_curve)
theorem gen_represents : Represents GEN genPoint :=
  ⟨by decide, by rw [show GEN.X = mont Gx by decide +kernel, res_mont, show GEN.Z = ONE from rfl, ONE_res, mul_one],
    by rw [show GEN.Y = mont Gy by decide +kernel, res_mont, show GEN.Z = ONE from rfl, ONE_res, mul_one]⟩
theorem sample_p0 : sample.readP 0 = GEN := by decide +kernel
theorem sample_p1 : sample.readP 1 = IDENT := by decide +kernel

/-- A point with itself, and a point with the identity. -/
theorem witness_PaddIsGroupSum :
    ((sample.readP 0).Proper ∧ Represents (sample.readP 0) genPoint ∧ ∃ k, IsSum genPoint genPoint k) ∧
    (sample.readP 1).Proper ∧ Represents (sample.readP 1) .zero ∧ ∃ k, IsSum genPoint .zero k := by
  rw [sample_p0, sample_p1]
  exact ⟨⟨GEN_proper, gen_represents, _, rfl⟩, IDENT_proper.1, IDENT_proper.2, _, rfl⟩
theorem witness_PdblIsGroupDouble : (sample.readP 0).Proper ∧ Represents (sample.readP 0) genPoint ∧
    ∃ k, IsSum genPoint genPoint k := witness_PaddIsGroupSum.1
theorem witness_PsubIsGroupDifference : (sample.readP 0).Proper ∧ Represents (sample.readP 0) genPoint ∧
    ∃ k, IsDifference genPoint genPoint k := ⟨witness_PaddIsGroupSum.1.1, witness_PaddIsGroupSum.1.2.1, _, rfl⟩

/-- The identity's encoding, and the shapes that are refused: the empty buffer, a lone `04`, a hybrid prefix. -/
theorem witness_PldbShapes : (oneB [0x00]).readBuf 0 = [0x00] ∧ (oneB []).readBuf 0 = [] ∧ (oneB [0x04]).readBuf 0 = [0x04] ∧
    (oneB (0x06 :: (GxBytes ++ GyBytes))).readBuf 0 = 0x06 :: (GxBytes ++ GyBytes) := by decide +kernel
theorem witness_PldbUncompressed :
    (oneB ([0x04] ++ PBytes ++ GyBytes)).readBuf 0 = [0x04] ++ PBytes ++ GyBytes ∧ PBytes.length = 32 ∧
    P ≤ bigEndian PBytes ∧ GxBytes.length = 32 ∧ GyBytes.length = 32 ∧ bigEndian GxBytes < P ∧ bigEndian GyBytes < P ∧
    bigEndian GyBytes ^ 2 % P = (bigEndian GxBytes ^ 3 + 7) % P ∧
    bigEndian GxBytes ^ 2 % P ≠ (bigEndian GxBytes ^ 3 + 7) % P := by decide +kernel
/-- `x` not below `p`, `x` with no root (`x = 0`), and `x` with an even root. -/
theorem witness_PldbCompressed :
    (oneB ([0x02] ++ GxBytes)).readBuf 0 = [0x02] ++ GxBytes ∧ PBytes.length = 32 ∧ P ≤ bigEndian PBytes ∧
    (∃ t, exec (.pldb 1 0) (oneB ([0x03] ++ List.replicate 32 0)) = .next t ∧ t.err = 4) ∧
    bigEndian GxBytes < P ∧ Gy < P ∧ Gy ^ 2 % P = (bigEndian GxBytes ^ 3 + 7) % P ∧ Gy % 2 = (0x02 : Byte).toNat % 2 := by
  refine ⟨by decide +kernel, by decide +kernel, by decide +kernel, ?_, by decide +kernel, by decide, by decide +kernel,
    by decide⟩
  have h := test_pldb_no_root
  unfold after at h
  obtain ⟨K, hK⟩ | ⟨Q, hQ⟩ : (∃ K, decodePoint ((oneB ([0x03] ++ List.replicate 32 0)).readBuf 0) = .error K) ∨
      ∃ Q, decodePoint ((oneB ([0x03] ++ List.replicate 32 0)).readBuf 0) = .ok Q := by
    cases decodePoint ((oneB ([0x03] ++ List.replicate 32 0)).readBuf 0) with
    | error K => exact .inl ⟨K, rfl⟩
    | ok Q => exact .inr ⟨Q, rfl⟩
  · have e := exec_pldb_error (d := 1) (b := 0) (s := oneB ([0x03] ++ List.replicate 32 0)) hK
    rw [show (0x03 :: List.replicate 32 0 : Bytes) = [0x03] ++ List.replicate 32 0 from rfl, e] at h
    exact ⟨_, e, (Prod.mk.inj (Option.some.inj h)).2⟩
  · have e := exec_pldb_ok (d := 1) (b := 0) (s := oneB ([0x03] ++ List.replicate 32 0)) hQ
    rw [show (0x03 :: List.replicate 32 0 : Bytes) = [0x03] ++ List.replicate 32 0 from rfl, e] at h
    exact ⟨_, e, (Prod.mk.inj (Option.some.inj h)).2⟩
theorem witness_PstbResult : (sample.readP 0).Canonical ∧ (sample.readP 0).Z ≠ ZERO ∧ (sample.readP 1).Canonical ∧
    (sample.readP 1).Z = ZERO := by decide +kernel
theorem witness_PstbxResult : (sample.readP 0).Canonical ∧ (sample.readP 0).Z ≠ ZERO ∧ (sample.readP 1).Canonical ∧
    (sample.readP 1).Z = ZERO := witness_PstbResult
theorem witness_PstbcResult : (sample.readP 0).Canonical ∧ (sample.readP 0).Z ≠ ZERO ∧ (sample.readP 1).Canonical ∧
    (sample.readP 1).Z = ZERO := witness_PstbResult
theorem witness_PointBytesRoundTrip :
    (∃ t, exec (.pldb 1 0) (oneB [0x00]) = .next t ∧ t.err = 0) ∧ ((oneB [0x00]).readBuf 0).length = 1 ∧
    (∃ t, exec (.pldb 1 0) (oneB (0x02 :: GxBytes)) = .next t ∧ t.err = 0) ∧
    ((oneB (0x02 :: GxBytes)).readBuf 0).length = 33 := by
  refine ⟨⟨_, exec_pldb_ok (Q := IDENT) rfl, rfl⟩, by decide +kernel, ⟨_, exec_pldb_ok
    (Q := ⟨mont (beNat GxBytes), mont Gy, ONE⟩) ((decodePoint_compressed 0x02 GxBytes (.inl rfl) rfl).trans
      (decodeCompressed_root (.inl rfl) rfl (by decide +kernel) (by decide) (by decide +kernel) (by decide))), rfl⟩,
    by decide +kernel⟩
theorem witness_PointRoundTrips : (sample.readP 0).Proper ∧ (sample.readP 1).Proper :=
  ⟨sample_p0 ▸ GEN_proper, sample_p1 ▸ IDENT_proper.1⟩
/-- A scalar of one byte, and the empty scalar. -/
theorem witness_PsmulIsGroupMultiple : (sample.readP 0).Proper ∧ Represents (sample.readP 0) genPoint ∧
    (∃ k, IsMultiple (bigEndian (sample.readBuf 0)) genPoint k) ∧ sample.readBuf 1 = [] :=
  ⟨witness_PaddIsGroupSum.1.1, witness_PaddIsGroupSum.1.2.1, ⟨_, rfl⟩, by decide +kernel⟩
theorem witness_PbmulResult : ((oneB PM1).readBuf 0).length = 32 ∧ (oneB PM1).TableValid ∧
    ((oneB (PM1 ++ [0])).readBuf 0).length ≠ 32 ∧ ((oneB (PM1.take 31)).readBuf 0).length ≠ 32 :=
  ⟨by decide +kernel, fun h => absurd h (by decide), by decide +kernel, by decide +kernel⟩
/-- With the table built and with it not built. -/
theorem witness_PbmulIsGroupMultiple : ((oneB PM1).readBuf 0).length = 32 ∧ (oneB PM1).TableValid ∧
    ((oneB PM1).setTable buildGeneratorTable).TableValid ∧ Represents GEN genPoint ∧
    ∃ k, IsMultiple (bigEndian ((oneB PM1).readBuf 0)) genPoint k :=
  ⟨by decide +kernel, fun h => absurd h (by decide), fun _ => rfl, gen_represents, _, rfl⟩
theorem witness_GtinitResult : (sample.setTable State.reset.gt).gtv = true ∧ sample.gtv = false := ⟨rfl, rfl⟩
theorem witness_ErrorChangesNothingElse : ∃ t, exec (.pbmul 0 1) sample = .next t ∧ t.err ≠ 0 :=
  ⟨_, exec_pbmul_error (by decide +kernel), by decide⟩
theorem witness_ErrorCodes : ∃ t, exec (.pbmul 0 1) sample = .next t ∧ t.err = 6 :=
  ⟨_, exec_pbmul_error (by decide +kernel), rfl⟩
/-- Each kind of state is written by some command. -/
theorem witness_Writers :
    after (.fisz 15) sample State.flag = some true ∧ sample.flag = false ∧
    after .gtinit sample State.gtv = some true ∧ sample.gtv = false ∧
    after (.pgen 7) sample (fun t => t.readP 7) = some GEN ∧ sample.readP 7 = IDENT ∧
    after (.fone 15) sample (fun t => t.readE 15) = some ONE ∧ sample.readE 15 = ZERO ∧
    after (.pstb 3 1) sample (fun t => t.readBuf 3) = some [0x00] ∧ sample.readBuf 3 = [] := by decide +kernel
theorem witness_SecondIssueChangesNothing : DestinationIsNoSource (.fadd 2 0 1) ∧ ∃ t, exec (.fadd 2 0 1) sample = .next t :=
  ⟨⟨by decide, by decide⟩, _, rfl⟩
theorem witness_LatencyIsPublic : decode 0x2C773000 = .ok (.psmul 7 7 3) ∧
    ((oneB PM1).readBuf 0).length = ((oneB PBytes).readBuf 0).length ∧ decode 0x2D000000 = .ok (.pbmul 0 0) ∧
    ((oneB PM1).readBuf 0).length = 32 ∧ ((oneB PBytes).readBuf 0).length = 32 ∧ decode 0x01000000 = .ok .gtinit ∧
    decode 0x18201000 = .ok (.fmul 2 0 1) ∧ mnemonic (.fmul 2 0 1) ∉ ["GTINIT", "FLDB", "PLDB", "PSMUL", "PBMUL"] ∧
    decode 0 = .error .unassignedOpcode := by decide +kernel
/-- Two states that agree in the source buffer and differ in another buffer and, where it may not matter, in `GTV`. -/
theorem witness_LatencyIsPublic_source : decode 0x1C400000 = .ok (.fldb 4 0) ∧ decode 0x28000000 = .ok (.pldb 0 0) ∧
    decode 0x2D000000 = .ok (.pbmul 0 0) ∧ (oneB []).readBuf 0 = ((oneB []).writeBuf 1 [0x01]).readBuf 0 ∧
    (oneB []).readBuf 1 ≠ ((oneB []).writeBuf 1 [0x01]).readBuf 1 ∧ (oneB []).gtv = ((oneB []).writeBuf 1 [0x01]).gtv ∧
    (oneB []).gtv ≠ ((oneB []).setTable State.reset.gt).gtv ∧
    (oneB []).readBuf 0 = ((oneB []).setTable State.reset.gt).readBuf 0 := by decide +kernel
theorem witness_PortCommandIsIssue : sample.busy = false ∧ ({ quiet with cmdValid := true } : PortIn).rst = false ∧
    (∀ y ∈ List.replicate (latency 0 sample) quiet, y.rst = false) ∧
    (List.replicate (latency 0 sample) quiet).length = latency 0 sample ∧ ∃ u, perform (.issue 0) sample = .next u :=
  ⟨rfl, rfl, fun y hy => by rw [List.eq_of_mem_replicate hy]; rfl, List.length_replicate, _, rfl⟩
theorem witness_PortReset : ({ quiet with rst := true } : PortIn).rst = true := rfl
theorem witness_PortBufWrite : ∃ u, perform (.bufWrite 3 ⟨List.replicate 65 0xFF, by decide⟩) sample = .next u := ⟨_, rfl⟩

end Sys2Proof.Tests
end

section
/-! ## Steps and transactions (00_scope.md): every one leaves a state, and `Issue` runs the command its word decodes to -/

namespace Sys2Proof.Machine

/-- A command that may raise leaves a state whether or not it raises (60_exceptions.md R223). -/
theorem conclude_leaves_state (s : State) (r : Except Err State) : ∃ t, s.conclude r = .next t := by
  cases r with
  | error K => exact ⟨s.setErr K.code, rfl⟩
  | ok u => exact ⟨u.setErr okCode, rfl⟩

/-- Three commands end in `conclude`, `PBMUL` checks a length, and every other command has one ending. -/
theorem exec_leaves_state (i : Instr) (s : State) : ∃ t, exec i s = .next t := by
  cases i with
  | fldb d b => exact conclude_leaves_state s _
  | pldb d b => exact conclude_leaves_state s _
  | pstbx d a => exact conclude_leaves_state s _
  | pbmul d b =>
    by_cases h : (s.readBuf b).length = 32
    · exact ⟨_, exec_pbmul_ok h⟩
    · exact ⟨_, exec_pbmul_error h⟩
  | _ => exact ⟨_, rfl⟩

/-- A legal word runs its command, and an illegal one raises (30_encoding.md R76). -/
theorem runWord_leaves_state (w : Word) (s : State) : ∃ t, runWord w s = .next t := by
  cases h : decode w with
  | ok i => simpa only [runWord_of_decode h] using exec_leaves_state i s
  | error why => exact ⟨_, runWord_of_illegal h s⟩

theorem perform_leaves_state (x : Transaction) (s : State) : ∃ t, perform x s = .next t := by
  cases x with
  | issue w =>
    obtain ⟨t, ht⟩ := runWord_leaves_state w s
    exact ⟨t.respond, doIssue_of_next ht⟩
  | _ => exact ⟨_, rfl⟩

theorem step_leaves_state (s : State) : ∃ t, step s = .next t := by
  cases h : s.pending with
  | nil => exact ⟨s, step_of_idle h⟩
  | cons x rest => simpa only [step_of_pending h] using perform_leaves_state x (s.dropPending rest)

/-- `Issue(w)` of a legal word runs its command and responds (20_memory.md R56, 30_encoding.md R75). -/
theorem perform_issue_of_decode {w : Word} {i : Instr} {s t : State} (hw : decode w = .ok i) (hi : exec i s = .next t) :
    perform (.issue w) s = .next t.respond :=
  doIssue_of_next ((runWord_of_decode hw s).trans hi)

theorem step_of_issue {w : Word} {i : Instr} {rest : List Transaction} {s t : State} (hp : s.pending = .issue w :: rest)
    (hw : decode w = .ok i) (hi : exec i (s.dropPending rest) = .next t) : step s = .next t.respond :=
  (step_of_pending hp).trans (perform_issue_of_decode hw hi)

/-- All 32 bits of a word are read, so loading a word's own number puts that word first. -/
theorem withFetchWord_toNat (s : State) (w : Word) : s.withFetchWord 32 w.toNat = s.issueNext w := by
  rw [State.withFetchWord, tableWord_toNat]

theorem dropPending_issueNext (s : State) (w : Word) : (s.issueNext w).dropPending s.pending = s := rfl

theorem decodeTableWord_toNat {w : Word} {i : Instr} (h : decode w = .ok i) : decodeTableWord 32 w.toNat = some i := by
  rw [decodeTableWord, if_pos le_rfl, tableWord_toNat, h]
  rfl

/-- Settles O6: the step rule of a pending `Issue(w)`, used once as it stands and once for the word `withFetchWord`
puts in front. -/
theorem stepRunsDecoded : Obligations.StepRunsDecoded := by
  refine ⟨fun s t w rest i hp hw hi => step_of_issue hp hw hi, fun s t w i hw hi => ⟨?_, decodeTableWord_toNat hw⟩⟩
  rw [withFetchWord_toNat]
  exact step_of_issue (issueNext_pending s w) hw (by rwa [dropPending_issueNext])

/-- Settles O9: every transaction leaves a state, because every command does, the raising ones included. -/
theorem everyStepLeavesAState : Obligations.EveryStepLeavesAState :=
  ⟨step_leaves_state, fun _ hs => step_of_idle hs⟩

end Sys2Proof.Machine
end

section
/-! ## The Point invariant (10_state.md R24): what the decoder answers is Proper, and addition, doubling and negation
keep Points canonical, on the curve, and Proper -/

namespace Sys2Proof.Machine

open Sys2Proof.Claims

/-! ### The decoders -/

/-- A decoder that succeeds has passed each of its checks in turn (45_point_codec.md R200). -/
theorem bind_eq_ok_iff {α β : Type} {r : Except Err α} {f : α → Except Err β} {y : β} :
    r.bind f = .ok y ↔ ∃ x, r = .ok x ∧ f x = .ok y := by
  cases r with
  | error K => simp [error_bind]
  | ok x => simp [ok_bind]

theorem fSetBytes_canonical {v : Bytes} {x : Element} (h : fSetBytes v = .ok x) : x.Canonical := by
  rw [fSetBytes_eq] at h
  split at h
  · cases h
    exact mont_canonical _
  · cases h

theorem fSelect_canonical {a b : Element} (ha : a.Canonical) (hb : b.Canonical) (c : Bool) :
    (fSelect a b c).Canonical := by
  rw [fSelect_eq]
  split
  · exact ha
  · exact hb

/-- Two canonical coordinates that solve the curve equation, with `Z = ONE`, are a Proper Point (10_state.md R24). -/
theorem proper_of_coordinates {x y : Element} (hx : x.Canonical) (hy : y.Canonical) (h : y.res ^ 2 = x.res ^ 3 + 7) :
    (⟨x, y, ONE⟩ : Point).Proper := by
  refine ⟨⟨hx, hy, ONE_canonical⟩, (onCurve_iff _).mpr ?_, fun hz => absurd (show ONE = ZERO from hz) (by decide)⟩
  show y.res ^ 2 * ONE.res = x.res ^ 3 + 7 * ONE.res ^ 3
  rw [ONE_res, h]
  ring

/-- The curve check of the uncompressed form is the curve equation (45_point_codec.md R200). -/
theorem decodeUncompressed_proper {v : Bytes} {Q : Point} (h : decodeUncompressed v = .ok Q) : Q.Proper := by
  unfold decodeUncompressed at h
  obtain ⟨x, hx, h⟩ := bind_eq_ok_iff.mp h
  obtain ⟨y, hy, h⟩ := bind_eq_ok_iff.mp h
  have cx := fSetBytes_canonical hx
  have cy := fSetBytes_canonical hy
  split at h
  · next hc =>
    cases h
    rw [fEqual_iff_res, montSqr_res cy, curveRhs_res cx] at hc
    exact proper_of_coordinates cx cy hc
  · cases h

/-- Both roots of the right-hand side solve the curve equation, so the parity chosen does not matter here
(45_point_codec.md R200). -/
theorem decodeCompressed_proper {pfx : Byte} {v : Bytes} {Q : Point} (h : decodeCompressed pfx v = .ok Q) : Q.Proper := by
  unfold decodeCompressed at h
  obtain ⟨x, hx, h⟩ := bind_eq_ok_iff.mp h
  have cx := fSetBytes_canonical hx
  have cy := fSqrt_canonical (curveRhs_canonical cx)
  dsimp only at h
  split at h
  · next hok =>
    cases h
    have hroot := (fSqrt_ok_iff (curveRhs_canonical cx)).mp hok
    rw [curveRhs_res cx] at hroot
    rw [fSelect_eq]
    split
    · exact proper_of_coordinates cx (fNeg_canonical cy) (by rw [fNeg_res cy, neg_sq, hroot])
    · exact proper_of_coordinates cx cy hroot
  · cases h

/-- Whatever form is decoded, the Point is Proper (45_point_codec.md R200, R204). -/
theorem decodePoint_proper {v : Bytes} {Q : Point} (h : decodePoint v = .ok Q) : Q.Proper := by
  unfold decodePoint at h
  split at h
  · cases h
  · split_ifs at h
    · cases h
      exact IDENT_proper.1
    · exact decodeUncompressed_proper h
    · exact decodeCompressed_proper h

/-! ### Points on the curve, `(0, 0, 0)` among them -/

/-- A Regular Point is Proper or `(0, 0, 0)`: where `Z` and `Y` are 0 the curve relation makes `X` 0. -/
theorem regular_cases {Q : Point} (h : Q.Regular) : Q.Proper ∨ Q.X.res = 0 ∧ Q.Y.res = 0 ∧ Q.Z.res = 0 := by
  have : Fact P.Prime := ⟨P_prime⟩
  obtain ⟨hc, hq⟩ := h
  by_cases hyz : Q.Z = ZERO ∧ Q.Y = ZERO
  · obtain ⟨hz, hy⟩ := hyz
    have hz0 : Q.Z.res = 0 := by rw [hz, ZERO_res]
    have hx3 : Q.X.res ^ 3 = 0 := by
      have := (onCurve_iff Q).mp hq
      rw [hz0] at this
      linear_combination -this
    exact .inr ⟨pow_eq_zero_iff (by decide) |>.mp hx3, by rw [hy, ZERO_res], hz0⟩
  · exact .inl ⟨hc, hq, fun hz hy => hyz ⟨hz, hy⟩⟩

theorem regular_of_proper {Q : Point} (h : Q.Proper) : Q.Regular := ⟨h.1, h.2.1⟩

/-- A canonical Point with `X` and `Z` 0 satisfies the curve relation. -/
theorem regular_of_zero {Q : Point} (h : Q.Canonical) (hx : Q.X.res = 0) (hz : Q.Z.res = 0) : Q.Regular :=
  ⟨h, (onCurve_iff Q).mpr (by rw [hx, hz]; ring)⟩

theorem pointAdd_proper {A B : Point} (hA : A.Proper) (hB : B.Proper) : (pointAdd A B).Proper := by
  obtain ⟨g, hg⟩ := represents_exists hA
  obtain ⟨h, hh⟩ := represents_exists hB
  exact (pointAdd_represents hA hB hg hh rfl).1

theorem pointDouble_proper {A : Point} (hA : A.Proper) : (pointDouble A).Proper := by
  obtain ⟨g, hg⟩ := represents_exists hA
  exact (pointDouble_represents hA hg rfl).1

theorem pointNeg_proper {A : Point} (hA : A.Proper) : (pointNeg A).Proper := by
  obtain ⟨g, hg⟩ := represents_exists hA
  exact (pointNeg_represents hA hg rfl).1

theorem pointAdd_regular {A B : Point} (hA : A.Regular) (hB : B.Regular) : (pointAdd A B).Regular := by
  have hc := pointAdd_canonical hA.1 hB.1
  obtain ⟨eX, -, eZ⟩ := pointAdd_res hA.1 hB.1
  obtain pA | ⟨x0, y0, z0⟩ := regular_cases hA
  · obtain pB | ⟨x0, y0, z0⟩ := regular_cases hB
    · exact regular_of_proper (pointAdd_proper pA pB)
    · rw [x0, y0, z0] at eX eZ
      exact regular_of_zero hc (by rw [eX]; ring) (by rw [eZ]; ring)
  · rw [x0, y0, z0] at eX eZ
    exact regular_of_zero hc (by rw [eX]; ring) (by rw [eZ]; ring)

theorem pointDouble_regular {A : Point} (hA : A.Regular) : (pointDouble A).Regular := by
  obtain pA | ⟨x0, -, z0⟩ := regular_cases hA
  · exact regular_of_proper (pointDouble_proper pA)
  · obtain ⟨eX, -, eZ⟩ := pointDouble_res hA.1
    rw [x0, z0] at eX
    rw [z0] at eZ
    exact regular_of_zero (pointDouble_canonical hA.1) (by rw [eX]; ring) (by rw [eZ]; ring)

theorem pointNeg_regular {A : Point} (hA : A.Regular) : (pointNeg A).Regular := by
  refine ⟨pointNeg_canonical hA.1, (onCurve_iff _).mpr ?_⟩
  have hY : (pointNeg A).Y.res = -A.Y.res := fNeg_res hA.1.2.1
  rw [hY, neg_sq]
  exact (onCurve_iff A).mp hA.2

/-! ### Properties the point layer keeps -/

/-- A property of Points that every Proper Point has and that addition, doubling and negation keep. -/
structure PointClosed (K : Point → Prop) : Prop where
  proper : ∀ {Q}, Q.Proper → K Q
  add    : ∀ {A B}, K A → K B → K (pointAdd A B)
  double : ∀ {A}, K A → K (pointDouble A)
  neg    : ∀ {A}, K A → K (pointNeg A)

theorem pointClosed_canonical : PointClosed Point.Canonical :=
  ⟨fun h => h.1, pointAdd_canonical, pointDouble_canonical, pointNeg_canonical⟩

theorem pointClosed_regular : PointClosed Point.Regular :=
  ⟨regular_of_proper, pointAdd_regular, pointDouble_regular, pointNeg_regular⟩

theorem pointClosed_proper : PointClosed Point.Proper :=
  ⟨id, pointAdd_proper, pointDouble_proper, pointNeg_proper⟩

/-- Entry `2k + 1` of the window table is twice entry `k` (43_point_primitives.md R175). -/
theorem window_entry_odd (Q : Point) {k : Nat} (hk : k < 7) :
    entry (buildWindowTable Q) (2 * k + 1) = pointDouble (entry (buildWindowTable Q) k) := by
  match k, hk with
  | 0, _ | 1, _ | 2, _ | 3, _ | 4, _ | 5, _ | 6, _ => rfl

/-- Entry `2k + 2` is entry `2k + 1` plus the base (43_point_primitives.md R175). -/
theorem window_entry_even (Q : Point) {k : Nat} (hk : k < 7) :
    entry (buildWindowTable Q) (2 * k + 2) = pointAdd (entry (buildWindowTable Q) (2 * k + 1)) Q := by
  match k, hk with
  | 0, _ | 1, _ | 2, _ | 3, _ | 4, _ | 5, _ | 6, _ => rfl

/-- Selecting keeps every property of its two operands (43_point_primitives.md R173). -/
theorem pointSelect_keeps {K : Point → Prop} {A B : Point} (hA : K A) (hB : K B) (c : Bool) :
    K (pointSelect A B c) := by
  rw [pointSelect_eq]
  split
  · exact hA
  · exact hB

section
variable {K : Point → Prop} (hK : PointClosed K)
include hK

namespace PointClosed

theorem ident : K IDENT := hK.proper IDENT_proper.1

theorem quadruple {A : Point} (hA : K A) : K (quadruple A) := hK.double (hK.double (hK.double (hK.double hA)))

theorem sub {A B : Point} (hA : K A) (hB : K B) : K (pointSub A B) := hK.add hA (hK.neg hB)

/-- Entry 0 is the base, each later one a double or a sum of earlier ones, and past the table the default is met. -/
theorem windowEntry {Q : Point} (hQ : K Q) (j : Nat) : K (entry (buildWindowTable Q) j) := by
  induction j using Nat.strong_induction_on with
  | _ j ih =>
    by_cases hj : j < 15
    · obtain rfl | ⟨k, hk, rfl | rfl⟩ : j = 0 ∨ ∃ k < 7, j = 2 * k + 1 ∨ j = 2 * k + 2 := by
        rcases Nat.even_or_odd' j with ⟨k, hk | hk⟩
        · by_cases h0 : j = 0
          · exact .inl h0
          · exact .inr ⟨k - 1, by omega, by omega⟩
        · exact .inr ⟨k, by omega, .inl hk⟩
      · exact hQ
      · rw [window_entry_odd Q hk]
        exact hK.double (ih k (by omega))
      · rw [window_entry_even Q hk]
        exact hK.add (ih (2 * k + 1) (by omega)) hQ
    · have hd : entry (buildWindowTable Q) j = IDENT := List.getD_eq_default _ _ (by simpa using hj)
      rw [hd]
      exact hK.ident

theorem multiple {entries : Nat → Point} (h : ∀ j, K (entries j)) (n : Nat) : K (multiple entries n) := by
  unfold Claims.multiple
  split
  · exact hK.ident
  · exact h _

/-- The loop of R210 adds table multiples to 16-fold accumulators (46_scalar_mult.md R210). -/
theorem scalarMult {Q : Point} (hQ : K Q) (v : Bytes) : K (scalarMult Q v) := by
  rw [scalarMult_eq_loop, scalarLoop_eq_foldl]
  exact List.foldlRecOn _ _ hK.ident fun A hA n _ =>
    hK.add (hK.quadruple hA) (hK.multiple (hK.windowEntry hQ) n)

/-- The constant table and a scalar of the right length give a multiple of the generator (46_scalar_mult.md R215). -/
theorem scalarBaseMult {v : Bytes} (hv : v.length = 32) : K (scalarBaseMult buildGeneratorTable v) := by
  obtain ⟨g, hg⟩ := represents_exists GEN_proper
  exact hK.proper (scalarBaseMult_represents hg hv).1

end PointClosed
end

end Sys2Proof.Machine
end

section
/-! ## Every step keeps the invariants (10_state.md R21, R24, R26, R31, R35): one proof for the three Point properties -/

namespace Sys2Proof.Machine

open Sys2Proof.Claims

/-- `State.Inv` with the property `K` in the place of canonical coordinates. -/
structure State.InvWith (K : Point → Prop) (s : State) : Prop where
  elements : s.ElementsCanonical
  points   : ∀ i, K (s.readP i)
  buffers  : s.MemoryCanonical
  err      : s.ErrProduced
  table    : s.TableValid
  idle     : s.busy = false

/-- A property of Points stronger than canonical coordinates strengthens the invariant by itself. -/
theorem invWith_iff {K : Point → Prop} (hK : ∀ {Q}, K Q → Q.Canonical) {s : State} :
    s.InvWith K ↔ s.Inv ∧ ∀ i, K (s.readP i) :=
  ⟨fun h => ⟨⟨h.elements, fun i => hK (h.points i), h.buffers, h.err, h.table, h.idle⟩, h.points⟩,
    fun ⟨h, hp⟩ => ⟨h.elements, hp, h.buffers, h.err, h.table, h.idle⟩⟩

theorem inv_iff {s : State} : s.Inv ↔ s.InvWith Point.Canonical :=
  Iff.trans ⟨fun h => ⟨h, h.points⟩, fun h => h.1⟩ (invWith_iff id).symm

theorem curveInv_iff {s : State} : s.CurveInv ↔ s.InvWith Point.Regular :=
  Iff.trans ⟨fun h => ⟨h.inv, h.regular⟩, fun h => ⟨h.1, h.2⟩⟩ (invWith_iff fun h => h.1).symm

theorem groupInv_iff {s : State} : s.GroupInv ↔ s.InvWith Point.Proper :=
  Iff.trans ⟨fun h => ⟨h.inv, h.proper⟩, fun h => ⟨h.1, h.2⟩⟩ (invWith_iff fun h => h.1).symm

/-- Every error kind has a code that is produced (60_exceptions.md R220). -/
theorem errCode_produced (e : Err) : e.code.toNat ≤ 6 ∨ e.code.toNat = 15 := by cases e <;> decide

namespace State.InvWith
variable {K : Point → Prop} {s : State}

theorem reset (hI : K IDENT) : State.reset.InvWith K where
  elements i := by
    rw [show State.reset.readE i = ZERO by simp [State.readE, State.reset]]
    exact ZERO_canonical
  points i := by
    rw [show State.reset.readP i = IDENT by simp [State.readP, State.reset]]
    exact hI
  buffers := reset_wf
  err := .inl (by decide)
  table h := nomatch h
  idle := rfl

theorem setErr (h : s.InvWith K) {c : BitVec 4} (hc : c.toNat ≤ 6 ∨ c.toNat = 15) : (s.setErr c).InvWith K :=
  ⟨h.elements, h.points, h.buffers, hc, h.table, h.idle⟩

theorem finish (h : s.InvWith K) : (s.setErr okCode).InvWith K := h.setErr (.inl (by decide))

theorem raise (h : s.InvWith K) (e : Err) : (s.setErr e.code).InvWith K := h.setErr (errCode_produced e)

theorem setFlag (h : s.InvWith K) (b : Bool) : (s.setFlag b).InvWith K :=
  ⟨h.elements, h.points, h.buffers, h.err, h.table, h.idle⟩

theorem answer (h : s.InvWith K) (r : Reply) : (s.answer r).InvWith K :=
  ⟨h.elements, h.points, h.buffers, h.err, h.table, h.idle⟩

theorem dropPending (h : s.InvWith K) (rest : List Transaction) : (s.dropPending rest).InvWith K :=
  ⟨h.elements, h.points, h.buffers, h.err, h.table, h.idle⟩

theorem writeE (h : s.InvWith K) (d : EReg) {v : Element} (hv : v.Canonical) : (s.writeE d v).InvWith K where
  elements i := by
    by_cases hi : i = d
    · rw [hi, readE_writeE_self]
      exact hv
    · rw [readE_writeE_of_ne s v hi]
      exact h.elements i
  points := h.points
  buffers := h.buffers
  err := h.err
  table := h.table
  idle := h.idle

theorem writeP (h : s.InvWith K) (d : PReg) {v : Point} (hv : K v) : (s.writeP d v).InvWith K where
  elements := h.elements
  points i := by
    by_cases hi : i = d
    · rw [hi, readP_writeP_self]
      exact hv
    · rw [readP_writeP_of_ne s v hi]
      exact h.points i
  buffers := h.buffers
  err := h.err
  table := h.table
  idle := h.idle

theorem writeBuf (h : s.InvWith K) (d : BReg) {v : Bytes} (hv : v.length ≤ BUFMAX) : (s.writeBuf d v).InvWith K :=
  ⟨h.elements, h.points, replace_wf d h.buffers hv, h.err, h.table, h.idle⟩

theorem ensureTable (h : s.InvWith K) : s.ensureTable.InvWith K := by
  cases hv : s.gtv with
  | true => rwa [ensureTable_of_valid hv]
  | false =>
    rw [ensureTable_of_invalid hv]
    exact ⟨h.elements, h.points, h.buffers, h.err, fun _ => rfl, h.idle⟩

end State.InvWith

section
variable {K : Point → Prop} (hK : PointClosed K) {s : State}
include hK

/-- Every command keeps the invariant: what it writes is canonical, has `K`, or fits a buffer, and it ends with a code
that is produced. -/
theorem exec_keeps_invWith (i : Instr) (h : s.InvWith K) : ∃ t, exec i s = .next t ∧ t.InvWith K := by
  have he := h.elements
  have hp := h.points
  cases i with
  | gtinit => exact ⟨_, exec_gtinit s, h.ensureTable.finish⟩
  | fzero d => exact ⟨_, exec_fzero d s, (h.writeE d ZERO_canonical).finish⟩
  | fone d => exact ⟨_, exec_fone d s, (h.writeE d ONE_canonical).finish⟩
  | fset d a => exact ⟨_, exec_fset d a s, (h.writeE d (he a)).finish⟩
  | fsel d a b => exact ⟨_, exec_fsel d a b s, (h.writeE d (fSelect_canonical (he a) (he b) _)).finish⟩
  | feq a b => exact ⟨_, exec_feq a b s, (h.setFlag _).finish⟩
  | fisz a => exact ⟨_, exec_fisz a s, (h.setFlag _).finish⟩
  | fadd d a b => exact ⟨_, exec_fadd d a b s, (h.writeE d (fAdd_canonical (he a) (he b))).finish⟩
  | fsub d a b => exact ⟨_, exec_fsub d a b s, (h.writeE d (fSub_canonical (he a) (he b))).finish⟩
  | fmul d a b => exact ⟨_, exec_fmul d a b s, (h.writeE d (montMul_canonical _ (he b))).finish⟩
  | fsqr d a => exact ⟨_, exec_fsqr d a s, (h.writeE d (montSqr_canonical (he a))).finish⟩
  | finv d a => exact ⟨_, exec_finv d a s, (h.writeE d (fInvert_res (he a)).1).finish⟩
  | fsqrt d a =>
    exact ⟨_, exec_fsqrt d a s,
      ((h.setFlag _).writeE d (fSelect_canonical (fSqrt_canonical (he a)) (he d) _)).finish⟩
  | fldb d b =>
    cases hx : fSetBytes (s.readBuf b) with
    | error e => exact ⟨_, exec_fldb_error hx, h.raise e⟩
    | ok x => exact ⟨_, exec_fldb_ok hx, (h.writeE d (fSetBytes_canonical hx)).finish⟩
  | fstb d a => exact ⟨_, exec_fstb d a s, (h.writeBuf d (fBytes_short _)).finish⟩
  | pident d => exact ⟨_, exec_pident d s, (h.writeP d hK.ident).finish⟩
  | pgen d => exact ⟨_, exec_pgen d s, (h.writeP d (hK.proper GEN_proper)).finish⟩
  | pset d a => exact ⟨_, exec_pset d a s, (h.writeP d (hp a)).finish⟩
  | psel d a b => exact ⟨_, exec_psel d a b s, (h.writeP d (pointSelect_keeps (hp a) (hp b) _)).finish⟩
  | padd d a b => exact ⟨_, exec_padd d a b s, (h.writeP d (hK.add (hp a) (hp b))).finish⟩
  | psub d a b => exact ⟨_, exec_psub d a b s, (h.writeP d (hK.sub (hp a) (hp b))).finish⟩
  | pdbl d a => exact ⟨_, exec_pdbl d a s, (h.writeP d (hK.double (hp a))).finish⟩
  | pldb d b =>
    cases hQ : decodePoint (s.readBuf b) with
    | error e => exact ⟨_, exec_pldb_error hQ, h.raise e⟩
    | ok Q => exact ⟨_, exec_pldb_ok hQ, (h.writeP d (hK.proper (decodePoint_proper hQ))).finish⟩
  | pstb d a => exact ⟨_, exec_pstb d a s, (h.writeBuf d (encodeUncompressed_short _)).finish⟩
  | pstbx d a =>
    cases hv : encodeX (s.readP a) with
    | error e => exact ⟨_, exec_pstbx_error hv, h.raise e⟩
    | ok v => exact ⟨_, exec_pstbx_ok hv, (h.writeBuf d (encodeX_short hv)).finish⟩
  | pstbc d a => exact ⟨_, exec_pstbc d a s, (h.writeBuf d (encodeCompressed_short _)).finish⟩
  | psmul d a b => exact ⟨_, exec_psmul d a b s, (h.writeP d (hK.scalarMult (hp a) _)).finish⟩
  | pbmul d b =>
    by_cases hl : (s.readBuf b).length = 32
    · have hQ : K (scalarBaseMult s.ensureTable.gt (s.readBuf b)) := by
        rw [ensureTable_gt h.table]
        exact hK.scalarBaseMult hl
      exact ⟨_, exec_pbmul_ok hl, (h.ensureTable.writeP d hQ).finish⟩
    · exact ⟨_, exec_pbmul_error hl, h.raise .invalidScalarLength⟩

theorem runWord_keeps_invWith (w : Word) (h : s.InvWith K) : ∃ t, runWord w s = .next t ∧ t.InvWith K := by
  cases hw : decode w with
  | ok i => simpa only [runWord_of_decode hw] using exec_keeps_invWith hK i h
  | error why => exact ⟨_, runWord_of_illegal hw s, h.raise .illegalCommand⟩

theorem perform_keeps_invWith (x : Transaction) (h : s.InvWith K) : ∃ t, perform x s = .next t ∧ t.InvWith K := by
  cases x with
  | reset => exact ⟨_, rfl, (State.InvWith.reset hK.ident).dropPending s.pending⟩
  | bufWrite i v => exact ⟨_, rfl, (h.writeBuf i v.short).answer _⟩
  | bufRead i => exact ⟨_, rfl, h.answer _⟩
  | statusRead => exact ⟨_, rfl, h.answer _⟩
  | issue w =>
    obtain ⟨t, ht, hi⟩ := runWord_keeps_invWith hK w h
    exact ⟨_, doIssue_of_next ht, hi.answer _⟩

/-- Every step keeps the invariant: nothing pending changes nothing, and a transaction keeps it. -/
theorem step_keeps_invWith {t : State} (h : s.InvWith K) (hs : step s = .next t) : t.InvWith K := by
  cases hp : s.pending with
  | nil =>
    obtain rfl := Host.Outcome.next.inj ((step_of_idle hp).symm.trans hs)
    exact h
  | cons x rest =>
    obtain ⟨u, hu, hi⟩ := perform_keeps_invWith hK x (h.dropPending rest)
    obtain rfl := Host.Outcome.next.inj (((step_of_pending hp).trans hu).symm.trans hs)
    exact hi

end

/-- Settles O11: the invariant with `K` canonical coordinates. -/
theorem stepKeepsInv : Obligations.StepKeepsInv :=
  ⟨inv_iff.mpr (.reset IDENT_canonical),
    fun _ _ h hs => inv_iff.mpr (step_keeps_invWith pointClosed_canonical (inv_iff.mp h) hs)⟩

/-- Settles O12: the invariant with `K` the curve relation. -/
theorem stepKeepsCurve : Obligations.StepKeepsCurve :=
  fun _ _ h hs => curveInv_iff.mpr (step_keeps_invWith pointClosed_regular (curveInv_iff.mp h) hs)

/-- The identity as a Proper Point holds it, as Elements (10_state.md R24). -/
theorem proper_zero_coordinates {Q : Point} (h : Q.Proper) (hz : Q.Z = ZERO) : Q.X = ZERO ∧ Q.Y ≠ ZERO :=
  ⟨(res_eq_zero_iff h.1.1).mp (proper_zero h hz).1, h.2.2 hz⟩

/-- Settles O13: the invariant with `K` the Point invariant of R24, and what a Proper Point is. -/
theorem stepKeepsPoints : Obligations.StepKeepsPoints := by
  refine ⟨fun _ _ h hs => groupInv_iff.mpr (step_keeps_invWith pointClosed_proper (groupInv_iff.mp h) hs),
    fun s h i => ?_⟩
  have hQ := h.proper i
  exact ⟨⟨hQ.1, .inr hQ.2.1⟩, proper_zero_coordinates hQ⟩

/-- Settles O10: the registers of the reset state are constant vectors, and its memory is empty. -/
theorem resetState : Obligations.ResetState := by
  refine ⟨fun i => ?_, fun i => ?_, fun i => rfl, rfl, rfl, rfl, rfl, groupInv_iff.mpr (.reset IDENT_proper.1)⟩
  · simp [State.readE, State.reset, ZERO]
  · simp [State.readP, State.reset, IDENT]

end Sys2Proof.Machine
end

section
/-! ## Who may write what (10_state.md R25 to R27, R31, R39), and the `STATUS` word (R30) -/

namespace Sys2Proof.Claims

open Sys2Proof Sys2Proof.Machine

/-! ### Footprints: what each command may write, in the words of `Frame` -/

/-- The Element register a command writes, its destination if it is a field command (10_state.md R39). -/
def elementDest : Instr → List EReg
  | .fzero d | .fone d | .fset d _ | .fsel d _ _ | .fadd d _ _ | .fsub d _ _ | .fmul d _ _ | .fsqr d _ | .finv d _
  | .fsqrt d _ | .fldb d _ => [d]
  | _ => []

/-- The Point register a command writes (10_state.md R25). -/
def pointDest : Instr → List PReg
  | .pident d | .pgen d | .pset d _ | .psel d _ _ | .padd d _ _ | .psub d _ _ | .pdbl d _ | .pldb d _ | .psmul d _ _
  | .pbmul d _ => [d]
  | _ => []

/-- The buffer a command writes (10_state.md R26). -/
def bufferDest : Instr → List BReg
  | .fstb d _ | .pstb d _ | .pstbx d _ | .pstbc d _ => [d]
  | _ => []

/-- The commands that write `FLAG` (10_state.md R27). -/
def writesFlag : Instr → Bool
  | .feq _ _ | .fisz _ | .fsqrt _ _ => true
  | _ => false

/-- The commands that may build the generator table (10_state.md R31). -/
def buildsTable : Instr → Bool
  | .gtinit | .pbmul _ _ => true
  | _ => false

theorem mem_elementDest {i : Instr} {k : EReg} (h : k ∈ elementDest i) :
    mnemonic i ∈ ["FZERO", "FONE", "FSET", "FSEL", "FADD", "FSUB", "FMUL", "FSQR", "FINV", "FSQRT", "FLDB"] ∧
    (operands i).1 = some k.val := by
  cases i <;> simp_all [elementDest, mnemonic, operands]

theorem mem_pointDest {i : Instr} {k : PReg} (h : k ∈ pointDest i) :
    mnemonic i ∈ ["PIDENT", "PGEN", "PSET", "PSEL", "PADD", "PSUB", "PDBL", "PLDB", "PSMUL", "PBMUL"] ∧
    (operands i).1 = some k.val := by
  cases i <;> simp_all [pointDest, mnemonic, operands]

theorem mem_bufferDest {i : Instr} {k : BReg} (h : k ∈ bufferDest i) :
    mnemonic i ∈ ["FSTB", "PSTB", "PSTBX", "PSTBC"] ∧ (operands i).1 = some k.val := by
  cases i <;> simp_all [bufferDest, mnemonic, operands]

theorem mnemonic_of_writesFlag {i : Instr} (h : writesFlag i = true) : mnemonic i ∈ ["FEQ", "FISZ", "FSQRT"] := by
  cases i <;> simp_all [writesFlag, mnemonic]

theorem mnemonic_of_buildsTable {i : Instr} (h : buildsTable i = true) : mnemonic i ∈ ["GTINIT", "PBMUL"] := by
  cases i <;> simp_all [buildsTable, mnemonic]

/-- A command that leaves everything but `ERR` alone leaves alone what any footprint allows it to write. -/
theorem frame_raise (s : State) (K : Err) (e : List EReg) (p : List PReg) (b : List BReg) (flag table : Bool) :
    Frame s (s.setErr K.code) e p b flag table where
  elements _ _ := rfl
  points _ _ := rfl
  bytes _ _ _ := rfl
  flag _ := rfl
  table _ := ⟨rfl, rfl⟩
  host := ⟨rfl, rfl, rfl⟩

theorem readE_ensureTable (s : State) (i : EReg) : s.ensureTable.readE i = s.readE i := by
  simp [State.readE]

theorem readP_ensureTable (s : State) (i : PReg) : s.ensureTable.readP i = s.readP i := by
  simp [State.readP]

theorem frame_ensureTable (s : State) (c : BitVec 4) : Frame s (s.ensureTable.setErr c) (table := true) where
  elements i _ := readE_ensureTable s i
  points i _ := readP_ensureTable s i
  bytes i off _ := by simp
  flag _ := by simp
  table h := nomatch h
  host := by simp

theorem frame_ensureTable_writeP (s : State) (d : PReg) (v : Point) (c : BitVec 4) :
    Frame s ((s.ensureTable.writeP d v).setErr c) (p := [d]) (table := true) where
  elements i _ := readE_ensureTable s i
  points i h := (readP_writeP_of_ne s.ensureTable v (by simpa using h)).trans (readP_ensureTable s i)
  bytes i off _ := by simp
  flag _ := by simp
  table h := nomatch h
  host := by simp

/-- What each command leaves alone, raising or not: everything outside the places its footprint names
(10_state.md R25 to R27, R31, R39). -/
theorem exec_frame (i : Instr) (s : State) :
    ∃ t, exec i s = .next t ∧ Frame s t (elementDest i) (pointDest i) (bufferDest i) (writesFlag i) (buildsTable i) := by
  cases i with
  | gtinit => exact ⟨_, rfl, frame_ensureTable s _⟩
  | feq a b => exact ⟨_, rfl, frame_setFlag s _ _⟩
  | fisz a => exact ⟨_, rfl, frame_setFlag s _ _⟩
  | fsqrt d a => exact ⟨_, rfl, frame_setFlag_writeE s _ d _ _⟩
  | fldb d b =>
    cases hx : fSetBytes (s.readBuf b) with
    | error K => exact ⟨_, exec_fldb_error hx, frame_raise ..⟩
    | ok x => exact ⟨_, exec_fldb_ok hx, frame_writeE s d _ _⟩
  | pldb d b =>
    cases hQ : decodePoint (s.readBuf b) with
    | error K => exact ⟨_, exec_pldb_error hQ, frame_raise ..⟩
    | ok Q => exact ⟨_, exec_pldb_ok hQ, frame_writeP s d _ _⟩
  | pstbx d a =>
    cases hv : encodeX (s.readP a) with
    | error K => exact ⟨_, exec_pstbx_error hv, frame_raise ..⟩
    | ok v => exact ⟨_, exec_pstbx_ok hv, frame_writeBuf s d (encodeX_short hv) _⟩
  | pbmul d b =>
    by_cases hl : (s.readBuf b).length = 32
    · exact ⟨_, exec_pbmul_ok hl, frame_ensureTable_writeP s d _ _⟩
    · exact ⟨_, exec_pbmul_error hl, frame_raise ..⟩
  | fstb d a => exact ⟨_, rfl, frame_writeBuf s d (fBytes_short _) _⟩
  | pstb d a => exact ⟨_, rfl, frame_writeBuf s d (encodeUncompressed_short _) _⟩
  | pstbc d a => exact ⟨_, rfl, frame_writeBuf s d (encodeCompressed_short _) _⟩
  | fzero d | fone d | fset d _ | fsel d _ _ | fadd d _ _ | fsub d _ _ | fmul d _ _ | fsqr d _ | finv d _ =>
    exact ⟨_, rfl, frame_writeE s d _ _⟩
  | pident d | pgen d | pset d _ | psel d _ _ | padd d _ _ | psub d _ _ | pdbl d _ | psmul d _ _ =>
    exact ⟨_, rfl, frame_writeP s d _ _⟩

/-- The lazy build changes the table only while `GTV` is 0. -/
theorem ensureTable_changes {s : State} (h : s.ensureTable.gtv ≠ s.gtv ∨ s.ensureTable.gt ≠ s.gt) : s.gtv = false := by
  by_contra hv
  rw [Bool.not_eq_false] at hv
  simp [ensureTable_of_valid hv] at h

/-- A command leaves the table as it is or as the lazy build leaves it. -/
theorem exec_table_cases {i : Instr} {s t : State} (h : exec i s = .next t) :
    (t.gtv = s.gtv ∧ t.gt = s.gt) ∨ (t.gtv = s.ensureTable.gtv ∧ t.gt = s.ensureTable.gt) := by
  cases hb : buildsTable i with
  | false =>
    obtain ⟨u, hu, hf⟩ := exec_frame i s
    obtain rfl := Host.Outcome.next.inj (hu.symm.trans h)
    exact .inl (hf.table hb)
  | true =>
    cases i with
    | gtinit =>
      obtain rfl := Host.Outcome.next.inj ((exec_gtinit s).symm.trans h)
      exact .inr ⟨rfl, rfl⟩
    | pbmul d b =>
      by_cases hl : (s.readBuf b).length = 32
      · obtain rfl := Host.Outcome.next.inj ((exec_pbmul_ok hl).symm.trans h)
        exact .inr ⟨rfl, rfl⟩
      · obtain rfl := Host.Outcome.next.inj ((exec_pbmul_error hl).symm.trans h)
        exact .inl ⟨rfl, rfl⟩
    | _ => cases hb

/-- The table changes only while `GTV` is 0, and then `GTV` becomes 1 (10_state.md R31). -/
theorem exec_table_change {i : Instr} {s t : State} (h : exec i s = .next t) (hne : t.gtv ≠ s.gtv ∨ t.gt ≠ s.gt) :
    s.gtv = false ∧ t.gtv = true := by
  obtain ⟨hv, hg⟩ | ⟨hv, hg⟩ := exec_table_cases h
  · exact absurd hne (by simp [hv, hg])
  · rw [hv, hg] at hne
    exact ⟨ensureTable_changes hne, hv.trans (ensureTable_gtv s)⟩

/-- A buffer outside a frame reads the same, its length included (20_memory.md R50). -/
theorem frame_readBuf {s t : State} {e : List EReg} {p : List PReg} {b : List BReg} {flag table : Bool}
    (hf : Frame s t e p b flag table) {i : BReg} (hi : i ∉ b) : t.readBuf i = s.readBuf i :=
  List.ext_getElem? fun off => hf.bytes i off hi

/-- Settles O53: what changed lies in the command's footprint, by its frame, and the table changes only where the lazy
build changes it. -/
theorem writers : Obligations.Writers := by
  intro i s t h
  obtain ⟨u, hu, hf⟩ := exec_frame i s
  obtain rfl := Host.Outcome.next.inj (hu.symm.trans h)
  refine ⟨fun hne => ?_, fun hne => ⟨?_, exec_table_change h hne⟩, fun k hne => ?_, fun k hne => ?_,
    fun k hne => ?_, hf.host⟩
  · exact mnemonic_of_writesFlag (by_contra fun hn => hne (hf.flag (Bool.eq_false_of_not_eq_true hn)))
  · refine mnemonic_of_buildsTable (by_contra fun hn => ?_)
    obtain ⟨hv, hg⟩ := hf.table (Bool.eq_false_of_not_eq_true hn)
    exact hne.elim (absurd hv) (absurd hg)
  · exact mem_pointDest (by_contra fun hn => hne (hf.points k hn))
  · exact mem_elementDest (by_contra fun hn => hne (hf.elements k hn))
  · exact mem_bufferDest (by_contra fun hn => hne (frame_readBuf hf hn))

end Sys2Proof.Claims

namespace Sys2Proof.Machine

/-- Every bit of the `STATUS` word (10_state.md R30); above `ERR` the bits of a 4-bit code are 0. -/
theorem statusWord_getLsbD (s : State) (k : Nat) : s.statusWord.getLsbD k =
    match k with
    | 0 => s.busy
    | 1 => s.flag
    | 2 => s.gtv
    | 3 => false
    | j + 4 => s.err.getLsbD j := by
  unfold State.statusWord
  rw [BitVec.getLsbD_append, BitVec.getLsbD_append, BitVec.getLsbD_append, BitVec.getLsbD_append, BitVec.getLsbD_append]
  match k with
  | 0 | 1 | 2 | 3 => simp
  | j + 4 => simpa using BitVec.lt_of_getLsbD

/-- Settles O55, bit by bit. -/
theorem statusLayout : Obligations.StatusLayout := by
  refine ⟨by decide, fun s => ⟨statusWord_getLsbD s 0, statusWord_getLsbD s 1, statusWord_getLsbD s 2,
    statusWord_getLsbD s 3, BitVec.eq_of_getLsbD_eq fun j hj => ?_, BitVec.eq_of_getLsbD_eq fun j hj => ?_⟩⟩
  · rw [BitVec.getLsbD_extractLsb', Nat.add_comm 4 j, statusWord_getLsbD s (j + 4)]
    simp [hj]
  · rw [BitVec.getLsbD_extractLsb', show 8 + j = (j + 4) + 4 by omega, statusWord_getLsbD s (j + 4 + 4)]
    simp

end Sys2Proof.Machine
end

section
/-! ## Transactions one after another (20_memory.md R56, R58, R60), and a command issued twice (R59) -/

namespace Sys2Proof.Machine

open Sys2Proof.Claims

/-! ### The five transactions -/

/-- Settles O7: each transaction is its rule's assignment, `BufWrite` by what the buffers read as after a replacement,
`Issue` by how a legal and an illegal word run. -/
theorem hostTransactions : Obligations.HostTransactions := by
  intro s
  refine ⟨⟨State.reset.gt, rfl⟩, fun i v => ?_, fun i => rfl, rfl, fun w i t hw hi => perform_issue_of_decode hw hi,
    fun w why hw => doIssue_of_next (runWord_of_illegal hw s)⟩
  exact ⟨(s.writeBuf i v.bytes).answer .nothing, rfl, readBuf_writeBuf_self s i v.short, rfl, rfl, rfl, rfl, rfl, rfl, rfl,
    rfl, rfl, fun j off hj => congrArg (·[off]?) (buffer_replace_of_ne s.buf v.short hj)⟩

/-! ### What is still pending has no part in a transaction -/

theorem dropPending_ensureTable (s : State) (rest : List Transaction) :
    (s.dropPending rest).ensureTable = s.ensureTable.dropPending rest := by
  cases h : s.gtv with
  | true => rw [ensureTable_of_valid h, ensureTable_of_valid (s := s.dropPending rest) h]
  | false =>
    rw [ensureTable_of_invalid h, ensureTable_of_invalid (s := s.dropPending rest) h]
    rfl

/-- A command reads and writes nothing of what the host still means to issue. -/
theorem exec_dropPending (i : Instr) (s : State) :
    ∃ t, exec i s = .next t ∧ ∀ rest, exec i (s.dropPending rest) = .next (t.dropPending rest) := by
  cases i with
  | gtinit => exact ⟨_, rfl, fun rest => by rw [exec_gtinit, dropPending_ensureTable]; rfl⟩
  | fldb d b =>
    cases hx : fSetBytes (s.readBuf b) with
    | error K => exact ⟨_, exec_fldb_error hx, fun _ => exec_fldb_error hx⟩
    | ok x => exact ⟨_, exec_fldb_ok hx, fun _ => exec_fldb_ok hx⟩
  | pldb d b =>
    cases hQ : decodePoint (s.readBuf b) with
    | error K => exact ⟨_, exec_pldb_error hQ, fun _ => exec_pldb_error hQ⟩
    | ok Q => exact ⟨_, exec_pldb_ok hQ, fun _ => exec_pldb_ok hQ⟩
  | pstbx d a =>
    cases hv : encodeX (s.readP a) with
    | error K => exact ⟨_, exec_pstbx_error hv, fun _ => exec_pstbx_error hv⟩
    | ok v => exact ⟨_, exec_pstbx_ok hv, fun _ => exec_pstbx_ok hv⟩
  | pbmul d b =>
    by_cases hl : (s.readBuf b).length = 32
    · refine ⟨_, exec_pbmul_ok hl, fun rest => ?_⟩
      rw [exec_pbmul_ok (s := s.dropPending rest) hl, dropPending_ensureTable]
      rfl
    · exact ⟨_, exec_pbmul_error hl, fun _ => exec_pbmul_error hl⟩
  | _ => exact ⟨_, rfl, fun _ => rfl⟩

theorem runWord_dropPending (w : Word) (s : State) :
    ∃ t, runWord w s = .next t ∧ ∀ rest, runWord w (s.dropPending rest) = .next (t.dropPending rest) := by
  cases h : decode w with
  | ok i => simpa only [runWord_of_decode h] using exec_dropPending i s
  | error why => exact ⟨_, runWord_of_illegal h s, fun rest => runWord_of_illegal h (s.dropPending rest)⟩

/-- A transaction reads nothing of what is still pending and leaves it as it is (20_memory.md R58; log entry 1). -/
theorem perform_dropPending (x : Transaction) (s : State) :
    ∃ t, perform x s = .next t ∧ ∀ rest, perform x (s.dropPending rest) = .next (t.dropPending rest) := by
  cases x with
  | issue w =>
    obtain ⟨t, ht, hrest⟩ := runWord_dropPending w s
    exact ⟨t.respond, doIssue_of_next ht, fun rest => doIssue_of_next (hrest rest)⟩
  | _ => exact ⟨_, rfl, fun _ => rfl⟩

theorem perform_pending {x : Transaction} {s t : State} (h : perform x s = .next t) : t.pending = s.pending := by
  obtain ⟨u, hu, hrest⟩ := perform_dropPending x s
  obtain rfl := Host.Outcome.next.inj (hu.symm.trans h)
  have hself : perform x s = .next (u.dropPending s.pending) := hrest s.pending
  rw [Host.Outcome.next.inj (hu.symm.trans hself)]
  rfl

/-! ### Issue order -/

theorem run_succ_of_step {s t : State} (k : Nat) (h : step s = .next t) : core.run (k + 1) s = core.run k t := by
  have hs : core.step s = .next t := h
  simp only [Host.Core.run, hs]

theorem performAll_cons {x : Transaction} {ts : List Transaction} {s t : State} (h : perform x s = .next t) :
    performAll (x :: ts) s = performAll ts t := by
  simp only [performAll, h]

/-- Settles O8, by induction on the transactions: each leaves the same state, but for what is pending, whether those
after it are pending or not. -/
theorem issueOrder : Obligations.IssueOrder := by
  intro ts rest s hp
  induction ts generalizing s with
  | nil => exact congrArg (fun l => Host.Outcome.next (s.dropPending l)) hp
  | cons x ts ih =>
    obtain ⟨u, hu, hq⟩ := perform_dropPending x (s.dropPending rest)
    have hup : u.dropPending rest = u := by rw [← show u.pending = rest from perform_pending hu]; rfl
    have hstep : step s = .next (u.dropPending (ts ++ rest)) := (step_of_pending hp).trans (hq (ts ++ rest))
    have hrun : core.run ts.length (u.dropPending (ts ++ rest)) = performAll ts u := by
      rw [ih (u.dropPending (ts ++ rest)) rfl]
      exact congrArg (performAll ts) hup
    exact (run_succ_of_step ts.length hstep).trans (hrun.trans (performAll_cons hu).symm)

/-! ### The same command a second time (20_memory.md R59): the sources read the same, and the same value is written again -/

theorem readE_of_writeE_setErr_of_ne {a d : EReg} (h : d ≠ a) (s : State) (v : Element) (c : BitVec 4) :
    ((s.writeE d v).setErr c).readE a = s.readE a := readE_writeE_of_ne s v h.symm

theorem readP_of_writeP_setErr_of_ne {a d : PReg} (h : d ≠ a) (s : State) (v : Point) (c : BitVec 4) :
    ((s.writeP d v).setErr c).readP a = s.readP a := readP_writeP_of_ne s v h.symm

theorem readBuf_of_writeP_setErr (s : State) (d : PReg) (v : Point) (c : BitVec 4) (b : BReg) :
    ((s.writeP d v).setErr c).readBuf b = s.readBuf b := rfl

theorem writeE_setErr_again (s : State) (d : EReg) (v : Element) (c : BitVec 4) :
    (((s.writeE d v).setErr c).writeE d v).setErr c = (s.writeE d v).setErr c := by
  rw [writeE_setErr, writeE_writeE_self, setErr_setErr]

theorem writeP_setErr_again (s : State) (d : PReg) (v : Point) (c : BitVec 4) :
    (((s.writeP d v).setErr c).writeP d v).setErr c = (s.writeP d v).setErr c := by
  rw [writeP_setErr, writeP_writeP_self, setErr_setErr]

theorem writeBuf_setErr_again (s : State) (d : BReg) {v : Bytes} (hv : v.length ≤ BUFMAX) (c : BitVec 4) :
    (((s.writeBuf d v).setErr c).writeBuf d v).setErr c = (s.writeBuf d v).setErr c := by
  rw [writeBuf_setErr, writeBuf_writeBuf_self s d hv, setErr_setErr]

theorem readE_setFlag (s : State) (f : Bool) (a : EReg) : (s.setFlag f).readE a = s.readE a := rfl

theorem readE_of_setFlag_setErr (s : State) (f : Bool) (c : BitVec 4) (a : EReg) :
    ((s.setFlag f).setErr c).readE a = s.readE a := rfl

theorem setFlag_setErr_again (s : State) (f : Bool) (c : BitVec 4) :
    (((s.setFlag f).setErr c).setFlag f).setErr c = (s.setFlag f).setErr c := rfl

theorem setFlag_of_setFlag_writeE_setErr (s : State) (f : Bool) (d : EReg) (v : Element) (c : BitVec 4) :
    (((s.setFlag f).writeE d v).setErr c).setFlag f = ((s.setFlag f).writeE d v).setErr c := rfl

theorem ensureTable_of_ensureTable_setErr (s : State) (c : BitVec 4) :
    (s.ensureTable.setErr c).ensureTable = s.ensureTable.setErr c := ensureTable_of_valid (ensureTable_gtv s)

/-- A second selection by the same condition selects the same. -/
theorem fSelect_fSelect (x y : Element) (c : Bool) : fSelect x (fSelect x y c) c = fSelect x y c := by
  rw [fSelect_eq, fSelect_eq]
  cases c <;> rfl

/-- The state a command leaves is one it leaves as it is, if running it there once more leaves that state. -/
theorem fixpoint_of_again {i : Instr} {s t u : State} (h : exec i s = .next t) (hagain : exec i t = .next u) (hu : u = t) :
    ∃ t, exec i s = .next t ∧ exec i t = .next t := ⟨t, h, hu ▸ hagain⟩

/-- A command that computes one Element from two and writes it to neither. -/
theorem exec_binaryE_again {i : Instr} {d a b : EReg} (f : Element → Element → Element)
    (hi : ∀ s, exec i s = .next ((s.writeE d (f (s.readE a) (s.readE b))).setErr okCode)) (hd : d ≠ a ∧ d ≠ b)
    (s : State) :
    ∃ t, exec i s = .next t ∧ exec i t = .next t :=
  fixpoint_of_again (hi s) (hi _)
    (by rw [readE_of_writeE_setErr_of_ne hd.1, readE_of_writeE_setErr_of_ne hd.2, writeE_setErr_again])

theorem exec_unaryE_again {i : Instr} {d a : EReg} (f : Element → Element)
    (hi : ∀ s, exec i s = .next ((s.writeE d (f (s.readE a))).setErr okCode)) (hd : d ≠ a) (s : State) :
    ∃ t, exec i s = .next t ∧ exec i t = .next t :=
  exec_binaryE_again (fun x _ => f x) hi ⟨hd, hd⟩ s

/-- A command that computes one Point from two and writes it to neither. -/
theorem exec_binaryP_again {i : Instr} {d a b : PReg} (f : Point → Point → Point)
    (hi : ∀ s, exec i s = .next ((s.writeP d (f (s.readP a) (s.readP b))).setErr okCode)) (hd : d ≠ a ∧ d ≠ b)
    (s : State) :
    ∃ t, exec i s = .next t ∧ exec i t = .next t :=
  fixpoint_of_again (hi s) (hi _)
    (by rw [readP_of_writeP_setErr_of_ne hd.1, readP_of_writeP_setErr_of_ne hd.2, writeP_setErr_again])

theorem exec_unaryP_again {i : Instr} {d a : PReg} (f : Point → Point)
    (hi : ∀ s, exec i s = .next ((s.writeP d (f (s.readP a))).setErr okCode)) (hd : d ≠ a) (s : State) :
    ∃ t, exec i s = .next t ∧ exec i t = .next t :=
  exec_binaryP_again (fun Q _ => f Q) hi ⟨hd, hd⟩ s

/-- `FSQRT` is the one command that reads its destination, to keep it where there is no root. -/
theorem exec_fsqrt_again {d a : EReg} (h : d ≠ a) (s : State) :
    ∃ t, exec (.fsqrt d a) s = .next t ∧ exec (.fsqrt d a) t = .next t := by
  refine ⟨_, exec_fsqrt d a s, ?_⟩
  rw [exec_fsqrt, readE_of_writeE_setErr_of_ne h, readE_setFlag,
    readE_of_setFlag_writeE_setErr, fSelect_fSelect, setFlag_of_setFlag_writeE_setErr, writeE_setErr_again]

/-- A `PBMUL` that passes its length check leaves the table built, so the second one builds nothing. -/
theorem exec_pbmul_again (d : PReg) (b : BReg) (s : State) :
    ∃ t, exec (.pbmul d b) s = .next t ∧ exec (.pbmul d b) t = .next t := by
  by_cases hl : (s.readBuf b).length = 32
  · refine ⟨_, exec_pbmul_ok hl, ?_⟩
    generalize hQ : scalarBaseMult s.ensureTable.gt (s.readBuf b) = Q
    have hb : ((s.ensureTable.writeP d Q).setErr okCode).readBuf b = s.readBuf b := by simp [State.readBuf]
    have hv : ((s.ensureTable.writeP d Q).setErr okCode).gtv = true := ensureTable_gtv s
    rw [exec_pbmul_ok (by rwa [hb]), ensureTable_of_valid hv, hb, setErr_gt, writeP_gt, hQ, writeP_setErr_again]
  · exact ⟨_, exec_pbmul_error hl, exec_pbmul_error hl⟩

/-- Every command whose destination is no source leaves a state it leaves as it is, raising or not. -/
theorem exec_leaves_fixpoint (i : Instr) (hd : DestinationIsNoSource i) (s : State) :
    ∃ t, exec i s = .next t ∧ exec i t = .next t := by
  cases i with
  | gtinit =>
    exact fixpoint_of_again (exec_gtinit s) (exec_gtinit _) (by rw [ensureTable_of_ensureTable_setErr, setErr_setErr])
  | fzero d => exact fixpoint_of_again (exec_fzero d s) (exec_fzero d _) (writeE_setErr_again ..)
  | fone d => exact fixpoint_of_again (exec_fone d s) (exec_fone d _) (writeE_setErr_again ..)
  | fset d a => exact exec_unaryE_again id (exec_fset d a) hd s
  | fsel d a b =>
    obtain ⟨ha, hb⟩ := hd
    exact fixpoint_of_again (exec_fsel d a b s) (exec_fsel d a b _)
      (by rw [readE_of_writeE_setErr_of_ne ha, readE_of_writeE_setErr_of_ne hb,
        setErr_flag, writeE_flag, writeE_setErr_again])
  | feq a b =>
    exact fixpoint_of_again (exec_feq a b s) (exec_feq a b _)
      (by rw [readE_of_setFlag_setErr, readE_of_setFlag_setErr, setFlag_setErr_again])
  | fisz a =>
    exact fixpoint_of_again (exec_fisz a s) (exec_fisz a _) (by rw [readE_of_setFlag_setErr, setFlag_setErr_again])
  | fadd d a b => exact exec_binaryE_again fAdd (exec_fadd d a b) hd s
  | fsub d a b => exact exec_binaryE_again fSub (exec_fsub d a b) hd s
  | fmul d a b => exact exec_binaryE_again montMul (exec_fmul d a b) hd s
  | fsqr d a => exact exec_unaryE_again montSqr (exec_fsqr d a) hd s
  | finv d a => exact exec_unaryE_again fInvert (exec_finv d a) hd s
  | fsqrt d a => exact exec_fsqrt_again hd s
  | fldb d b =>
    cases hx : fSetBytes (s.readBuf b) with
    | error K => exact fixpoint_of_again (exec_fldb_error hx) (exec_fldb_error hx) rfl
    | ok x => exact fixpoint_of_again (exec_fldb_ok hx) (exec_fldb_ok hx) (writeE_setErr_again ..)
  | fstb d a => exact fixpoint_of_again (exec_fstb d a s) (exec_fstb d a _) (writeBuf_setErr_again _ _ (fBytes_short _) _)
  | pident d => exact fixpoint_of_again (exec_pident d s) (exec_pident d _) (writeP_setErr_again ..)
  | pgen d => exact fixpoint_of_again (exec_pgen d s) (exec_pgen d _) (writeP_setErr_again ..)
  | pset d a => exact exec_unaryP_again id (exec_pset d a) hd s
  | psel d a b =>
    obtain ⟨ha, hb⟩ := hd
    exact fixpoint_of_again (exec_psel d a b s) (exec_psel d a b _)
      (by rw [readP_of_writeP_setErr_of_ne ha, readP_of_writeP_setErr_of_ne hb,
        setErr_flag, writeP_flag, writeP_setErr_again])
  | padd d a b => exact exec_binaryP_again pointAdd (exec_padd d a b) hd s
  | psub d a b => exact exec_binaryP_again pointSub (exec_psub d a b) hd s
  | pdbl d a => exact exec_unaryP_again pointDouble (exec_pdbl d a) hd s
  | pldb d b =>
    cases hQ : decodePoint (s.readBuf b) with
    | error K => exact fixpoint_of_again (exec_pldb_error hQ) (exec_pldb_error hQ) rfl
    | ok Q => exact fixpoint_of_again (exec_pldb_ok hQ) (exec_pldb_ok hQ) (writeP_setErr_again ..)
  | pstb d a =>
    exact fixpoint_of_again (exec_pstb d a s) (exec_pstb d a _) (writeBuf_setErr_again _ _ (encodeUncompressed_short _) _)
  | pstbx d a =>
    cases hv : encodeX (s.readP a) with
    | error K => exact fixpoint_of_again (exec_pstbx_error hv) (exec_pstbx_error hv) rfl
    | ok v => exact fixpoint_of_again (exec_pstbx_ok hv) (exec_pstbx_ok hv) (writeBuf_setErr_again _ _ (encodeX_short hv) _)
  | pstbc d a =>
    exact fixpoint_of_again (exec_pstbc d a s) (exec_pstbc d a _) (writeBuf_setErr_again _ _ (encodeCompressed_short _) _)
  | psmul d a b =>
    exact fixpoint_of_again (exec_psmul d a b s) (exec_psmul d a b _)
      (by rw [readP_of_writeP_setErr_of_ne hd, readBuf_of_writeP_setErr, writeP_setErr_again])
  | pbmul d b => exact exec_pbmul_again d b s

/-- Settles O54: the state the command leaves is one it does not change any more. -/
theorem secondIssueChangesNothing : Obligations.SecondIssueChangesNothing := by
  intro i s t hd h
  obtain ⟨u, hu, hagain⟩ := exec_leaves_fixpoint i hd s
  obtain rfl := Host.Outcome.next.inj (hu.symm.trans h)
  exact hagain

end Sys2Proof.Machine
end

section
/-! ## The ports (20_memory.md R62): a command takes its latency and is then the transaction `Issue`, and staging with
its commit is the transaction `BufWrite` -/

namespace Sys2Proof.Machine

open Sys2Proof.Claims

/-! ### Runs of cycles -/

theorem afterTransaction_of_next {x : Transaction} {s t : State} (h : perform x s = .next t) : afterTransaction x s = t := by
  simp only [afterTransaction, h]

theorem PortState.run_append (p : PortState) (xs ys : List PortIn) : p.run (xs ++ ys) = (p.run xs).run ys := by
  induction xs generalizing p with
  | nil => rfl
  | cons x xs ih => exact ih (p.next x)

/-! ### A command from its acceptance to its response -/

/-- The block while the command `w` executes on the state `c`, to respond in `n` cycles (20_memory.md R62 (a), (b)). -/
def PortState.executing (c : State) (w : Word) (n : Nat) : PortState := ⟨c.setBusy true, some ⟨w, n⟩, []⟩

theorem complete_executing {c u : State} {w : Word} (n : Nat) (hb : c.busy = false) (hu : perform (.issue w) c = .next u) :
    (PortState.executing c w n).complete w = ⟨u, none, []⟩ := by
  have hc : (PortState.executing c w n).core.setBusy false = c := by
    rw [← hb]
    rfl
  rw [PortState.complete, hc, afterTransaction_of_next hu]
  rfl

section
variable {c u : State} {w : Word} {x : PortIn} (hx : x.rst = false)
include hx

/-- The accepting cycle: the block is busy from the next one on, and nothing stays staged (log entry 11). -/
theorem next_accepting (staged : List StagedByte) (hv : x.cmdValid = true) :
    PortState.next ⟨c, none, staged⟩ x = .executing c x.cmd (latency x.cmd c) := by
  simp only [PortState.next, hx, hv, Bool.false_eq_true, if_false, if_true]
  rfl

theorem out_accepting (staged : List StagedByte) : (PortState.out ⟨c, none, staged⟩ x).cmdReady = true := by
  simp only [PortState.out, hx, Bool.false_eq_true, if_false, PortState.idleOut]

theorem next_executing (n : Nat) : (PortState.executing c w (n + 2)).next x = .executing c w (n + 1) := by
  simp [PortState.next, PortState.executing, hx]

theorem out_executing (n : Nat) :
    (PortState.executing c w (n + 2)).out x = (PortState.executing c w (n + 2)).closedOut := by
  simp [PortState.out, PortState.executing, hx]

theorem next_responding (hb : c.busy = false) (hu : perform (.issue w) c = .next u) :
    (PortState.executing c w 1).next x = ⟨u, none, []⟩ := by
  rw [← complete_executing 1 hb hu]
  simp [PortState.next, PortState.executing, hx]

theorem out_responding (hb : c.busy = false) (hu : perform (.issue w) c = .next u) :
    (PortState.executing c w 1).out x = PortState.responseOut ⟨u, none, []⟩ := by
  rw [← complete_executing 1 hb hu]
  simp [PortState.out, PortState.executing, hx]

end

/-- Cycles without `rst` only count down while the command executes, whatever the host drives (20_memory.md R62 (a)). -/
theorem run_executing (c : State) (w : Word) {xs : List PortIn} (hxs : ∀ x ∈ xs, x.rst = false) (n : Nat) :
    (PortState.executing c w (xs.length + (n + 1))).run xs = .executing c w (n + 1) := by
  induction xs with
  | nil => rw [List.length_nil, Nat.zero_add]; rfl
  | cons x xs ih =>
    rw [List.length_cons, show xs.length + 1 + (n + 1) = (xs.length + n) + 2 by omega, PortState.run,
      next_executing (hxs x List.mem_cons_self)]
    exact ih fun y hy => hxs y (List.mem_cons_of_mem x hy)

theorem latency_pos (w : Word) (s : State) : 0 < latency w s := Nat.succ_pos _

/-- From the accepting cycle on, as long as the command executes. -/
theorem run_accepted {c : State} {x : PortIn} {xs : List PortIn} (staged : List StagedByte) (hx : x.rst = false)
    (hv : x.cmdValid = true) (hxs : ∀ y ∈ xs, y.rst = false) (hl : xs.length = latency x.cmd c) {k : Nat}
    (hk : k < xs.length) :
    PortState.run ⟨c, none, staged⟩ (x :: xs.take k) = .executing c x.cmd (xs.length - k) := by
  have hcount : latency x.cmd c = (xs.take k).length + ((xs.length - k - 1) + 1) := by
    rw [List.length_take]; omega
  rw [PortState.run, next_accepting hx staged hv, hcount, run_executing c x.cmd fun y hy => hxs y (List.mem_of_mem_take hy)]
  congr 1; omega

/-- Settles O57: the command counts its latency down, each cycle but the last is that of a busy block, and the last one
responds. -/
theorem portCommandIsIssue : Obligations.PortCommandIsIssue := by
  intro c u staged x xs hb hx hv hxs hl hu
  refine ⟨out_accepting hx staged, ?_, fun k hk => ?_⟩
  · obtain ⟨n, hn⟩ : ∃ n, xs.length = n + 1 := Nat.exists_eq_succ_of_ne_zero (hl ▸ latency_pos _ _).ne'
    have hlast : x :: xs = (x :: xs.take n) ++ [xs[n]] := by
      rw [List.cons_append, List.take_append_getElem, ← hn, List.take_length]
    rw [hlast, PortState.run_append, run_accepted staged hx hv hxs hl (by omega), show xs.length - n = 1 by omega]
    exact next_responding (hxs _ (List.getElem_mem _)) hb hu
  · have hy : xs[k].rst = false := hxs _ (List.getElem_mem hk)
    rw [run_accepted staged hx hv hxs hl hk]
    obtain ⟨n, hn⟩ : ∃ n, xs.length - k = n + 1 := ⟨xs.length - k - 1, by omega⟩
    rw [hn]
    cases n with
    | zero =>
      rw [out_responding hy hb hu]
      exact ⟨rfl, rfl, fun _ => by omega, fun _ => ⟨rfl, rfl, rfl, rfl⟩⟩
    | succ n =>
      rw [out_executing hy]
      exact ⟨rfl, rfl, fun _ => rfl, fun _ => by omega⟩

/-! ### Staging and committing -/

/-- Every offset and every length a buffer has fits the 7 bits of its port signal. -/
theorem toNat_ofNat_of_le_bufmax {n : Nat} (h : n ≤ BUFMAX) : (BitVec.ofNat 7 n).toNat = n := by
  rw [BitVec.toNat_ofNat, Nat.mod_eq_of_lt (lt_of_le_of_lt h (by decide))]

theorem stagedAt_cons_self (i : BReg) (off : Nat) (b : Byte) (st : List StagedByte) :
    stagedAt (⟨i, off, b⟩ :: st) i off = some b := by
  simp [stagedAt]

theorem stagedAt_cons_of_ne {off n : Nat} (h : off ≠ n) (i : BReg) (b : Byte) (st : List StagedByte) :
    stagedAt (⟨i, off, b⟩ :: st) i n = stagedAt st i n := by
  simp [stagedAt, h]

theorem stagedBytes_succ {st : List StagedByte} {i : BReg} {n : Nat} {v : Bytes} {b : Byte}
    (hv : stagedBytes st i n = some v) (hb : stagedAt st i n = some b) : stagedBytes st i (n + 1) = some (v ++ [b]) := by
  simp only [stagedBytes, hv, hb]

/-- A byte staged at an offset is none of the bytes before it. -/
theorem stagedBytes_cons_of_le {off n : Nat} (h : n ≤ off) (i : BReg) (b : Byte) (st : List StagedByte) :
    stagedBytes (⟨i, off, b⟩ :: st) i n = stagedBytes st i n := by
  induction n with
  | zero => rfl
  | succ n ih => simp only [stagedBytes, ih (by omega), stagedAt_cons_of_ne (show off ≠ n by omega)]

/-- The idle block in state `c` with the bytes `v` staged in buffer `i` from offset 0 on, and none in another buffer. -/
structure PortState.HasStaged (p : PortState) (c : State) (i : BReg) (v : Bytes) : Prop where
  core    : p.core = c
  running : p.running = none
  only    : ∀ b ∈ p.staged, b.buf = i
  bytes   : stagedBytes p.staged i v.length = some v

namespace PortState.HasStaged
variable {p : PortState} {c u : State} {i : BReg} {v : Bytes}

/-- A cycle of `buf_we` stages the byte after those staged before and changes no state (20_memory.md R62 (c)). -/
theorem next_staging (h : p.HasStaged c i v) (hv : v.length < BUFMAX) (b : Byte) :
    (p.next { quiet with bufSel := i, bufAddr := BitVec.ofNat 7 v.length, bufWe := true, bufWdata := b }).HasStaged c i
      (v ++ [b]) := by
  have haddr := toNat_ofNat_of_le_bufmax hv.le
  have hnext : p.next { quiet with bufSel := i, bufAddr := BitVec.ofNat 7 v.length, bufWe := true, bufWdata := b } =
      ⟨c, none, ⟨i, v.length, b⟩ :: p.staged⟩ := by
    obtain ⟨core, running, staged⟩ := p
    obtain rfl : core = c := h.core
    obtain rfl : running = none := h.running
    simp [PortState.next, PortState.stage, PortState.commit, quiet, haddr, hv]
  rw [hnext]
  refine ⟨rfl, rfl, fun y hy => ?_, ?_⟩
  · obtain rfl | hy := List.mem_cons.mp hy
    · rfl
    · exact h.only y hy
  · rw [List.length_append]
    exact stagedBytes_succ ((stagedBytes_cons_of_le le_rfl i b p.staged).trans h.bytes) (stagedAt_cons_self ..)

/-- The cycles that stage a byte string, after those that staged the bytes before it. -/
theorem run_stagingCycles (h : p.HasStaged c i v) (w : Bytes) (hw : v.length + w.length ≤ BUFMAX) :
    (p.run (stagingCycles i v.length w)).HasStaged c i (v ++ w) := by
  induction w generalizing p v with
  | nil => rwa [List.append_nil]
  | cons b w ih =>
    rw [List.length_cons] at hw
    have hb := h.next_staging (by omega) b
    simpa [PortState.run, stagingCycles] using ih hb (by rw [List.length_append]; simp; omega)

/-- The commit of all that is staged is the transaction `BufWrite`, and nothing stays staged (20_memory.md R62 (c)). -/
theorem next_commitCycle (h : p.HasStaged c i v) (hv : v.length ≤ BUFMAX)
    (hu : perform (.bufWrite i ⟨v, hv⟩) c = .next u) :
    p.next (commitCycle i v.length) = ⟨u, none, []⟩ := by
  have hlen := toNat_ofNat_of_le_bufmax hv
  obtain ⟨core, running, staged⟩ := p
  obtain rfl : core = c := h.core
  obtain rfl : running = none := h.running
  have hst : stagedBytes staged i v.length = some v := h.bytes
  have hnone : (staged.filter fun b => b.buf != i) = [] := List.filter_eq_nil_iff.mpr fun b hb => by simp [h.only b hb]
  simp [PortState.next, PortState.stage, PortState.commit, commitCycle, quiet, hlen, hst, hv,
    afterTransaction_of_next hu, hnone]

end PortState.HasStaged

/-- Settles O59: the staging cycles stage the whole string and change no state, and the commit finds all of it. -/
theorem portBufWrite : Obligations.PortBufWrite := by
  intro c u i v hu
  have hidle : PortState.HasStaged ⟨c, none, []⟩ c i [] := ⟨rfl, rfl, (fun _ h => nomatch h), rfl⟩
  have hv : (PortState.run ⟨c, none, []⟩ (stagingCycles i 0 v.bytes)).HasStaged c i v.bytes :=
    hidle.run_stagingCycles v.bytes (by simpa using v.short)
  refine ⟨?_, hv.core⟩
  rw [PortState.run_append]
  exact hv.next_commitCycle v.short hu

end Sys2Proof.Machine
end

section
/-! ## The encoding (30_encoding.md R71 to R76): a word decodes to a command exactly when it is the word that spells it,
and exactly when it matches the command's row of the opcode table -/

namespace Sys2Proof

open Sys2Proof.Machine Sys2Proof.Claims

/-! ### The check of an index field and of all fields (R72, R76) -/

/-- The check of R72 is the mask of R73: a field passes when every bit its mask selects is 0. -/
theorem Kind.check_eq_none_iff_and_mask (k : Kind) (x : BitVec 4) : k.check x = none ↔ x &&& k.mask = 0 := by
  cases k <;> revert x <;> decide

/-- An index field is refused when its index is out of the range R72 gives its kind. -/
theorem Kind.check_ne_none_iff (k : Kind) (x : BitVec 4) :
    k.check x ≠ none ↔ (k = .point ∧ 7 < x.toNat) ∨ (k = .buffer ∧ 3 < x.toNat) ∨ (k = .unused ∧ x.toNat ≠ 0) := by
  cases k <;> revert x <;> decide

theorem Fields.check_eq_none_iff (f : Fields) (sh : Shape) :
    f.check sh = none ↔
      f.zero = 0 ∧ sh.rd.check f.rd = none ∧ sh.ra.check f.ra = none ∧ sh.rb.check f.rb = none := by
  by_cases hz : f.zero = 0
  · simp only [check, hz, ne_eq, not_true, if_false, Option.or_eq_none_iff, true_and]
  · simp only [check, hz, ne_eq, not_false_eq_true, if_true, reduceCtorEq, false_and]

theorem Fields.check_ne_none_iff (f : Fields) (sh : Shape) :
    f.check sh ≠ none ↔
      f.zero ≠ 0 ∨ ∃ k x, (k, x) ∈ [(sh.rd, f.rd), (sh.ra, f.ra), (sh.rb, f.rb)] ∧ k.check x ≠ none := by
  rw [ne_eq, check_eq_none_iff, not_and_or]
  refine or_congr_right ⟨fun h => ?_, fun ⟨k, x, hmem, hx⟩ ⟨hd, ha, hb⟩ => ?_⟩
  · by_contra hall
    push Not at hall
    exact h ⟨hall _ _ (by simp), hall _ _ (by simp), hall _ _ (by simp)⟩
  · simp only [List.mem_cons, Prod.mk.injEq, List.not_mem_nil, or_false] at hmem
    obtain ⟨rfl, rfl⟩ | ⟨rfl, rfl⟩ | ⟨rfl, rfl⟩ := hmem
    exacts [hx hd, hx ha, hx hb]

/-! ### The opcodes (R74) -/

theorem shapeOf_eq_none_iff (op : BitVec 8) : shapeOf op = none ↔ op ∉ opcodes := by
  revert op
  decide

theorem mem_opcodes_of_shapeOf {op : BitVec 8} {sh : Shape} (h : shapeOf op = some sh) : op ∈ opcodes := by
  by_contra hop
  rw [(shapeOf_eq_none_iff op).mpr hop] at h
  cases h

theorem mem_opcodes_iff_toNat (op : BitVec 8) : op ∈ opcodes ↔ op.toNat ∈ opcodes.map BitVec.toNat :=
  (List.mem_map_of_injective fun _ _ => BitVec.eq_of_toNat_eq).symm

/-! ### What the fields of a command say, and the command they spell (R74, R75) -/

/-- An index field of kind `k` after its operand is read from it and laid out in a field again. -/
def Kind.respell (k : Kind) (x : BitVec 4) : BitVec 4 :=
  match k with
  | .element => .ofNat 4 (eIndex x)
  | .point => .ofNat 4 (pIndex x)
  | .buffer => .ofNat 4 (bIndex x)
  | .unused => 0

theorem Kind.respell_eq_self {k : Kind} {x : BitVec 4} (h : k.check x = none) : k.respell x = x := by
  cases k with
  | element => exact ofNat_eIndex x
  | point => exact ofNat_pIndex (by simpa [Kind.check] using h)
  | buffer => exact ofNat_bIndex (by simpa [Kind.check] using h)
  | unused => exact (BitVec.eq_of_toNat_eq (y := 0) (by simpa [Kind.check] using h)).symm

/-- The fields of the command that fields of shape `sh` spell. -/
def Fields.respell (f : Fields) (sh : Shape) : Fields :=
  ⟨f.op, sh.rd.respell f.rd, sh.ra.respell f.ra, sh.rb.respell f.rb, 0⟩

theorem Fields.respell_eq_self {f : Fields} {sh : Shape} (h : f.check sh = none) : f.respell sh = f := by
  obtain ⟨hz, hd, ha, hb⟩ := (f.check_eq_none_iff sh).mp h
  rw [Fields.respell, Kind.respell_eq_self hd, Kind.respell_eq_self ha, Kind.respell_eq_self hb, ← hz]

/-- Opcode by opcode: the command's operands are of the kinds the opcode's shape gives. -/
theorem Fields.exists_command {f : Fields} {sh : Shape} (h : shapeOf f.op = some sh) :
    ∃ i, f.command = some i ∧ i.fields = f.respell sh := by
  obtain ⟨op, rd, ra, rb, zero⟩ := f
  have hop : op ∈ opcodes := mem_opcodes_of_shapeOf h
  simp only [opcodes, List.cons_append, List.nil_append, List.mem_cons, List.not_mem_nil, or_false] at hop
  rcases hop with rfl | rfl | rfl | rfl | rfl | rfl | rfl | rfl | rfl | rfl | rfl | rfl | rfl | rfl | rfl |
    rfl | rfl | rfl | rfl | rfl | rfl | rfl | rfl | rfl | rfl | rfl | rfl | rfl <;>
  · obtain rfl := Option.some.inj h
    exact ⟨_, rfl, rfl⟩

theorem command_fields (i : Instr) : i.fields.command = some i := by
  cases i <;> simp only [Instr.fields, Fields.command, BitVec.ofNat_eq_ofNat, BitVec.reduceToNat, eIndex_ofNat,
    pIndex_ofNat, bIndex_ofNat]

theorem fields_injective : Function.Injective Instr.fields := fun i j h =>
  Option.some.inj (by rw [← command_fields i, ← command_fields j, h])

/-- The family `WellSpelled`, command by command. -/
theorem wellFormed_eq_true (i : Instr) : i.wellFormed = true :=
  match i with
  | .gtinit => Laws.WellSpelled.gtinit
  | .fzero d => Laws.WellSpelled.fzero d
  | .fone d => Laws.WellSpelled.fone d
  | .fset d a => Laws.WellSpelled.fset d a
  | .fsel d a b => Laws.WellSpelled.fsel d a b
  | .feq a b => Laws.WellSpelled.feq a b
  | .fisz a => Laws.WellSpelled.fisz a
  | .fadd d a b => Laws.WellSpelled.fadd d a b
  | .fsub d a b => Laws.WellSpelled.fsub d a b
  | .fmul d a b => Laws.WellSpelled.fmul d a b
  | .fsqr d a => Laws.WellSpelled.fsqr d a
  | .finv d a => Laws.WellSpelled.finv d a
  | .fsqrt d a => Laws.WellSpelled.fsqrt d a
  | .fldb d b => Laws.WellSpelled.fldb d b
  | .fstb d a => Laws.WellSpelled.fstb d a
  | .pident d => Laws.WellSpelled.pident d
  | .pgen d => Laws.WellSpelled.pgen d
  | .pset d a => Laws.WellSpelled.pset d a
  | .psel d a b => Laws.WellSpelled.psel d a b
  | .padd d a b => Laws.WellSpelled.padd d a b
  | .psub d a b => Laws.WellSpelled.psub d a b
  | .pdbl d a => Laws.WellSpelled.pdbl d a
  | .pldb d b => Laws.WellSpelled.pldb d b
  | .pstb d a => Laws.WellSpelled.pstb d a
  | .pstbx d a => Laws.WellSpelled.pstbx d a
  | .pstbc d a => Laws.WellSpelled.pstbc d a
  | .psmul d a b => Laws.WellSpelled.psmul d a b
  | .pbmul d b => Laws.WellSpelled.pbmul d b

theorem check_fields (i : Instr) : ∃ sh, shapeOf i.fields.op = some sh ∧ i.fields.check sh = none := by
  have h := wellFormed_eq_true i
  unfold Instr.wellFormed at h
  split at h
  next sh hsh => exact ⟨sh, hsh, Option.isNone_iff_eq_none.mp h⟩
  next => cases h

/-! ### The decoder and the encoder are inverse (R71, R75) -/

/-- Fields that pass the check of their opcode's shape decode, to the command whose fields they are. -/
theorem Fields.decode_of_check {f : Fields} {sh : Shape} (hsh : shapeOf f.op = some sh) (hck : f.check sh = none) :
    ∃ i, f.decode = .ok i ∧ i.fields = f := by
  obtain ⟨i, hi, hf⟩ := exists_command hsh
  exact ⟨i, by simp only [decode, hsh, hck, hi], hf.trans (respell_eq_self hck)⟩

theorem Fields.check_of_decode {f : Fields} {i : Instr} (h : f.decode = .ok i) :
    ∃ sh, shapeOf f.op = some sh ∧ f.check sh = none := by
  unfold decode at h
  split at h
  next => cases h
  next sh hsh =>
    split at h
    next => cases h
    next hck => exact ⟨sh, hsh, hck⟩

theorem Fields.decode_eq_ok_iff {f : Fields} {i : Instr} : f.decode = .ok i ↔ i.fields = f := by
  constructor
  · intro h
    obtain ⟨sh, hsh, hck⟩ := check_of_decode h
    obtain ⟨j, hj, hf⟩ := decode_of_check hsh hck
    obtain rfl := Except.ok.inj (h.symm.trans hj)
    exact hf
  · rintro rfl
    obtain ⟨sh, hsh, hck⟩ := check_fields i
    obtain ⟨j, hj, hf⟩ := decode_of_check hsh hck
    rwa [fields_injective hf] at hj

theorem decode_eq_ok_iff_fields {w : Word} {i : Instr} : decode w = .ok i ↔ i.fields = Fields.ofWord w :=
  Fields.decode_eq_ok_iff

/-- Settles O2: the decoder cuts the word back into the command's fields, and those spell this command only. -/
theorem decodeEncode : Obligations.DecodeEncode := fun i =>
  ⟨decode_eq_ok_iff_fields.mpr (ofWord_toWord i.fields).symm, wellFormed_eq_true i⟩

/-- Settles O3: the command's fields are those of the word, and laying them out gives the word. -/
theorem encodeDecode : Obligations.EncodeDecode := fun w i h => by
  rw [encode, decode_eq_ok_iff_fields.mp h, toWord_ofWord]

theorem exists_decode_iff (w : Word) :
    (∃ i, decode w = .ok i) ↔ ∃ sh, shapeOf (Fields.ofWord w).op = some sh ∧ (Fields.ofWord w).check sh = none := by
  constructor
  · rintro ⟨i, hi⟩
    exact Fields.check_of_decode hi
  · rintro ⟨sh, hsh, hck⟩
    obtain ⟨i, hi, -⟩ := Fields.decode_of_check hsh hck
    exact ⟨i, hi⟩

theorem exists_illegal_iff (w : Word) : (∃ why, decode w = .error why) ↔ ¬ ∃ i, decode w = .ok i := by
  cases decode w <;> simp

/-! ### Mask and match (R73) -/

theorem toWord_injective : Function.Injective Fields.toWord := fun f g h => by
  rw [← ofWord_toWord f, h, ofWord_toWord]

/-- Masking a word masks each of its fields. -/
theorem toWord_and_toWord (f g : Fields) :
    f.toWord &&& g.toWord =
      Fields.toWord ⟨f.op &&& g.op, f.rd &&& g.rd, f.ra &&& g.ra, f.rb &&& g.rb, f.zero &&& g.zero⟩ := by
  rw [Fields.toWord, Fields.toWord, Fields.toWord, ← BitVec.and_append, ← BitVec.and_append, ← BitVec.and_append]
  exact BitVec.and_append

/-- `(w & mask) = match` compares the opcode and is the check of R76. -/
theorem and_mask_eq_opMatch_iff (w : Word) (sh : Shape) (op : BitVec 8) :
    w &&& sh.mask = opMatch op ↔ (Fields.ofWord w).op = op ∧ (Fields.ofWord w).check sh = none := by
  have hop (x : BitVec 8) : x &&& 0xFF = x := BitVec.and_allOnes
  have hzero (x : BitVec 12) : x &&& 0xFFF = x := BitVec.and_allOnes
  conv_lhs => rw [← toWord_ofWord w, Shape.mask, opMatch, toWord_and_toWord, toWord_injective.eq_iff, Fields.mk.injEq]
  rw [hop, hzero, Fields.check_eq_none_iff, Kind.check_eq_none_iff_and_mask, Kind.check_eq_none_iff_and_mask,
    Kind.check_eq_none_iff_and_mask]
  tauto

/-! ### The opcode table (R74) -/

/-- The mnemonic of the commands of an opcode; `none` for an unassigned opcode. -/
def opMnemonic (op : BitVec 8) : Option String := (Fields.command ⟨op, 0, 0, 0, 0⟩).map mnemonic

theorem opMnemonic_fields (i : Instr) : opMnemonic i.fields.op = some (mnemonic i) := by
  cases i <;> rfl

/-- The transcribed table has one row per opcode: its mnemonic, its `match` and the `mask` of its shape. -/
theorem opcodeRows_eq : opcodeRows.map (fun r => (some r.1, r.2.1, some r.2.2)) =
    opcodes.map fun op => (opMnemonic op, opMatch op, (shapeOf op).map Shape.mask) := by decide

theorem mnemonics_nodup : (opcodeRows.map Prod.fst).Nodup := by decide

/-- The rows are told apart by their mnemonics. -/
theorem row_eq_of_mnemonic_eq {r r' : String × Word × Word} (hr : r ∈ opcodeRows) (hr' : r' ∈ opcodeRows)
    (h : r.1 = r'.1) : r = r' :=
  List.inj_on_of_nodup_map mnemonics_nodup hr hr' h

theorem exists_opcode_of_row {m : String} {mtch mask : Word} (h : (m, mtch, mask) ∈ opcodeRows) :
    ∃ op sh, shapeOf op = some sh ∧ opMnemonic op = some m ∧ opMatch op = mtch ∧ sh.mask = mask := by
  have hrow := List.mem_map_of_mem (f := fun r : String × Word × Word => (some r.1, r.2.1, some r.2.2)) h
  rw [opcodeRows_eq] at hrow
  obtain ⟨op, -, he⟩ := List.mem_map.mp hrow
  obtain ⟨hm, hmtch, hmask⟩ : opMnemonic op = some m ∧ opMatch op = mtch ∧ (shapeOf op).map Shape.mask = some mask := by
    simpa using he
  obtain ⟨sh, hsh, hmask⟩ := Option.map_eq_some_iff.mp hmask
  exact ⟨op, sh, hsh, hm, hmtch, hmask⟩

theorem row_of_opcode {op : BitVec 8} {sh : Shape} {m : String} (hsh : shapeOf op = some sh)
    (hm : opMnemonic op = some m) : (m, opMatch op, sh.mask) ∈ opcodeRows := by
  have hrow : (some m, opMatch op, some sh.mask) ∈
      opcodes.map fun op => (opMnemonic op, opMatch op, (shapeOf op).map Shape.mask) :=
    List.mem_map.mpr ⟨op, mem_opcodes_of_shapeOf hsh, by rw [hm, hsh]; rfl⟩
  rw [← opcodeRows_eq] at hrow
  obtain ⟨⟨m', mtch, mask⟩, hr, he⟩ := List.mem_map.mp hrow
  simp only [Prod.mk.injEq, Option.some.injEq] at he
  obtain ⟨rfl, rfl, rfl⟩ := he
  exact hr

/-- A word that matches a row decodes to a command of the row. -/
theorem decode_of_match {w : Word} {r : String × Word × Word} (hr : r ∈ opcodeRows) (h : w &&& r.2.2 = r.2.1) :
    ∃ i, decode w = .ok i ∧ mnemonic i = r.1 := by
  obtain ⟨m, mtch, mask⟩ := r
  obtain ⟨op, sh, hsh, hm, rfl, rfl⟩ := exists_opcode_of_row hr
  obtain ⟨rfl, hck⟩ := (and_mask_eq_opMatch_iff w sh op).mp h
  obtain ⟨i, hi, hf⟩ := Fields.decode_of_check hsh hck
  refine ⟨i, hi, Option.some.inj ?_⟩
  rw [← opMnemonic_fields, hf, hm]

/-- A word that decodes to a command matches the command's row. -/
theorem match_of_decode {w : Word} {i : Instr} (h : decode w = .ok i) :
    ∃ r ∈ opcodeRows, r.1 = mnemonic i ∧ w &&& r.2.2 = r.2.1 := by
  obtain ⟨sh, hsh, hck⟩ := Fields.check_of_decode h
  have hm := opMnemonic_fields i
  rw [decode_eq_ok_iff_fields.mp h] at hm
  exact ⟨_, row_of_opcode hsh hm, rfl, (and_mask_eq_opMatch_iff w sh _).mpr ⟨rfl, hck⟩⟩

/-! ### The operands (R78) -/

theorem toNat_ofNat_index {n : Nat} (hn : n ≤ 16) (i : Fin n) : (BitVec.ofNat 4 i).toNat = i := by
  rw [BitVec.toNat_ofNat, Nat.mod_eq_of_lt (i.isLt.trans_le hn)]

/-- Each operand stands unchanged in its field: where a command has one, the field is spelled with its index. -/
theorem operands_fields (i : Instr) :
    (∀ x ∈ (operands i).1, x = i.fields.rd.toNat) ∧ (∀ x ∈ (operands i).2.1, x = i.fields.ra.toNat) ∧
      (∀ x ∈ (operands i).2.2, x = i.fields.rb.toNat) := by
  cases i <;> refine ⟨?_, ?_, ?_⟩ <;> rintro _ ⟨⟩ <;> exact (toNat_ofNat_index (by decide) _).symm

/-- Settles O4: a word matches the row of the command it decodes to, and rows are told apart by their mnemonics. -/
theorem opcodeTable : Obligations.OpcodeTable := by
  intro w
  refine ⟨fun m mtch mask hr => ⟨decode_of_match hr, ?_⟩, fun i hi => ?_, ?_, fun r hr r' hr' h h' => ?_⟩
  · rintro ⟨i, hi, rfl⟩
    obtain ⟨r, hr', hm, hw⟩ := match_of_decode hi
    obtain rfl := row_eq_of_mnemonic_eq hr' hr hm
    exact hw
  · have hop := operands_fields i
    rw [decode_eq_ok_iff_fields.mp hi] at hop
    exact hop
  · rw [exists_illegal_iff]
    constructor
    · rintro hnone ⟨i, hi⟩
      obtain ⟨r, hr, -, hw⟩ := match_of_decode hi
      exact hnone r hr hw
    · intro hill r hr hw
      obtain ⟨i, hi, -⟩ := decode_of_match hr hw
      exact hill ⟨i, hi⟩
  · obtain ⟨i, hi, hm⟩ := decode_of_match hr h
    obtain ⟨j, hj, hm'⟩ := decode_of_match hr' h'
    obtain rfl := Except.ok.inj (hi.symm.trans hj)
    exact row_eq_of_mnemonic_eq hr hr' (hm.symm.trans hm')

/-! ### Illegal words (R76) -/

/-- `Issue(w)` of an illegal word raises `IllegalCommand` and responds. -/
theorem perform_issue_of_illegal {w : Word} {why : Illegal} (h : decode w = .error why) (s : State) :
    perform (.issue w) s = .next { s with err := 15, reply := .response 15 s.flag } :=
  doIssue_of_next (runWord_of_illegal h s)

/-- A word is illegal when its opcode is unassigned, its `zero` field is not 0, or an index field fails its check. -/
theorem illegal_iff (w : Word) :
    (∃ why, decode w = .error why) ↔
      (Fields.ofWord w).op ∉ opcodes ∨ (Fields.ofWord w).zero ≠ 0 ∨
        ∃ sh, shapeOf (Fields.ofWord w).op = some sh ∧
          ∃ k x, (k, x) ∈ [(sh.rd, (Fields.ofWord w).rd), (sh.ra, (Fields.ofWord w).ra), (sh.rb, (Fields.ofWord w).rb)] ∧
            k.check x ≠ none := by
  rw [exists_illegal_iff, exists_decode_iff, ← shapeOf_eq_none_iff]
  cases shapeOf (Fields.ofWord w).op with
  | none => simp only [reduceCtorEq, false_and, exists_false, not_false_eq_true, true_or]
  | some sh => simp only [Option.some.injEq, exists_eq_left', reduceCtorEq, false_or, ← ne_eq, Fields.check_ne_none_iff]

/-- Settles O5: an illegal word only raises, every transaction after it leaves a state, and a word is illegal when its
opcode is unassigned or its fields fail their check. -/
theorem illegalWord : Obligations.IllegalWord := by
  refine ⟨fun w why s h => ⟨perform_issue_of_illegal h s, fun t => perform_leaves_state t _⟩, fun w => ?_,
    ⟨.unassignedOpcode, by decide⟩, ⟨.unassignedOpcode, by decide⟩⟩
  rw [illegal_iff, mem_opcodes_iff_toNat]
  simp only [Kind.check_ne_none_iff]
  rfl

/-- Settles O1: each word is evaluated. -/
theorem specWordsDecode : Obligations.SpecWordsDecode := by
  unfold Obligations.SpecWordsDecode
  decide

end Sys2Proof
end

section
/-! ## The laws of the field (40_field_primitives.md R118): on residues, as equal limb patterns, and as equal states -/

namespace Sys2Proof.Machine

/-! ### The laws as equal limb patterns: both sides are canonical and represent one residue -/

theorem fAdd_comm {a b : Element} (ha : a.Canonical) (hb : b.Canonical) : fAdd a b = fAdd b a :=
  eq_of_res (fAdd_canonical ha hb) (fAdd_canonical hb ha) (by rw [fAdd_res ha hb, fAdd_res hb ha, add_comm])

theorem montMul_comm {a b : Element} (ha : a.Canonical) (hb : b.Canonical) : montMul a b = montMul b a :=
  eq_of_res (montMul_canonical a hb) (montMul_canonical b ha) (by rw [montMul_res a hb, montMul_res b ha, mul_comm])

theorem fAdd_fSub {a b : Element} (ha : a.Canonical) (hb : b.Canonical) : fAdd a (fSub b a) = b := by
  have hsub := fSub_canonical hb ha
  exact eq_of_res (fAdd_canonical ha hsub) hb (by rw [fAdd_res ha hsub, fSub_res hb ha, add_sub_cancel])

theorem montMul_ONE {a : Element} (ha : a.Canonical) : montMul a ONE = a :=
  eq_of_res (montMul_canonical a ONE_canonical) ha (by rw [montMul_res a ONE_canonical, ONE_res, mul_one])

theorem fSub_self {a : Element} (ha : a.Canonical) : fSub a a = ZERO :=
  eq_of_res (fSub_canonical ha ha) ZERO_canonical (by rw [fSub_res ha ha, sub_self, ZERO_res])

theorem fNeg_fNeg {a : Element} (ha : a.Canonical) : fNeg (fNeg a) = a :=
  eq_of_res (fNeg_canonical (fNeg_canonical ha)) ha (by rw [fNeg_res (fNeg_canonical ha), fNeg_res ha, neg_neg])

theorem fAdd_self_eq_montMul {a b : Element} (ha : a.Canonical) (hb : b.Canonical) (h : b.val = 2) : fAdd a a = montMul a b := by
  have hres : b.res = 2 := by rw [← val_cast, h, Nat.cast_ofNat]
  exact eq_of_res (fAdd_canonical ha ha) (montMul_canonical a hb) (by rw [fAdd_res ha ha, montMul_res a hb, hres, mul_two])

theorem montMul_fInvert {a : Element} (ha : a.Canonical) (h : a ≠ ZERO) : montMul a (fInvert a) = ONE := by
  have hinv := (fInvert_res ha).1
  exact eq_of_res (montMul_canonical a hinv) ONE_canonical (by rw [montMul_res a hinv, fInvert_mul ha h, ONE_res])

theorem fInvert_ZERO : fInvert ZERO = ZERO := by
  obtain ⟨hcan, hres⟩ := fInvert_res ZERO_canonical
  exact (res_eq_zero_iff hcan).mp (by rw [hres, ZERO_res, zero_pow (by decide)])

/-! ### What the functions compute on residues -/

/-- The residue of an Element as an integer, where the difference of two residues may be negative. -/
theorem val_eq_emod_of_res {a : Element} {n : Int} (h : a.res = (n : ZMod P)) : (a.val : Int) = n % P := by
  have hcast : ((a.val : Int) : ZMod P) = (n : ZMod P) := by rw [Int.cast_natCast, val_cast, h]
  rw [← (ZMod.intCast_eq_intCast_iff' _ _ _).mp hcast, Int.emod_eq_of_lt (by omega) (by exact_mod_cast val_lt a)]

theorem fAdd_val {a b : Element} (ha : a.Canonical) (hb : b.Canonical) : (fAdd a b).val = (a.val + b.val) % P :=
  val_eq_of_res (by rw [fAdd_res ha hb, Nat.cast_add])

theorem fSub_val {a b : Element} (ha : a.Canonical) (hb : b.Canonical) :
    ((fSub a b).val : Int) = ((a.val : Int) - b.val) % P :=
  val_eq_emod_of_res (by rw [fSub_res ha hb, Int.cast_sub, Int.cast_natCast, Int.cast_natCast])

theorem montMul_val (a : Element) {b : Element} (hb : b.Canonical) : (montMul a b).val = a.val * b.val % P :=
  val_eq_of_res (by rw [montMul_res a hb, Nat.cast_mul])

/-! ### The residues are a field of `p` elements -/

theorem elementLaws {a b : Element} (ha : a.Canonical) (hb : b.Canonical) : ElementLaws a b where
  add_val := fAdd_val ha hb
  sub_val := fSub_val ha hb
  mul_val := montMul_val a hb
  add_canonical := fAdd_canonical ha hb
  sub_canonical := fSub_canonical ha hb
  mul_canonical := montMul_canonical a hb
  add_comm := fAdd_comm ha hb
  mul_comm := montMul_comm ha hb
  add_sub := fAdd_fSub ha hb
  mul_one := montMul_ONE ha
  mul_invert := montMul_fInvert ha
  square_eq_mul := rfl

/-- `mont(v)` is the one Element that represents the residue `v`. -/
theorem exists_unique_element {v : Nat} (hv : v < P) :
    ∃ a : Element, a.Canonical ∧ a.val = v ∧ ∀ b : Element, b.Canonical → b.val = v → b = a :=
  ⟨mont v, mont_canonical v, by rw [val_mont, Nat.mod_eq_of_lt hv], fun b hb hbv => by rw [← hbv, mont_val hb]⟩

/-- A residue but 0 is coprime to `p`. -/
theorem residue_inverse {v : Nat} (h0 : 0 < v) (hv : v < P) : ∃ u, u < P ∧ v * u % P = 1 :=
  Nat.exists_mul_mod_eq_one_of_coprime (Nat.coprime_of_lt_prime h0.ne' hv P_prime).symm P_prime.one_lt

theorem residue_no_zero_divisor {u v : Nat} (hu : u < P) (hv : v < P) (h : u * v % P = 0) : u = 0 ∨ v = 0 :=
  (P_prime.dvd_mul.mp (Nat.dvd_of_mod_eq_zero h)).imp (Nat.eq_zero_of_dvd_of_lt · hu) (Nat.eq_zero_of_dvd_of_lt · hv)

/-- Settles O60: each law compares the residues of two canonical Elements, and the rest is that `p` is prime. -/
theorem fieldArithmeticLaws : Obligations.FieldArithmeticLaws where
  laws _ _ := elementLaws
  invert_zero := fInvert_ZERO
  p_elements _ := exists_unique_element
  p_prime := P_prime
  inverses _ := residue_inverse
  no_zero_divisor _ _ := residue_no_zero_divisor

/-! ### The laws as equal states: of two commands with one destination, the second writes over the first -/

theorem readE_of_writeE_setErr_self (s : State) (d : EReg) (v : Element) (c : BitVec 4) :
    ((s.writeE d v).setErr c).readE d = v := readE_writeE_self s d v

theorem writeE_setErr_over (s : State) (d : EReg) (u v : Element) (c : BitVec 4) :
    (((s.writeE d u).setErr c).writeE d v).setErr c = (s.writeE d v).setErr c := by
  rw [writeE_setErr, writeE_writeE_self, setErr_setErr]

/-- `FSUB` of `b` and `a`, then `FADD` of `a`. -/
theorem exec_fsub_fadd {s : State} {d a b : EReg} (ha : (s.readE a).Canonical) (hb : (s.readE b).Canonical) (hd : d ≠ a) :
    ∃ t, exec (.fsub d b a) s = .next t ∧ exec (.fadd d a d) t = exec (.fset d b) s := by
  refine ⟨_, exec_fsub d b a s, ?_⟩
  rw [exec_fadd, readE_of_writeE_setErr_of_ne hd, readE_of_writeE_setErr_self, fAdd_fSub ha hb, writeE_setErr_over, exec_fset]

/-- `FNEGZ` twice, `b` holding `ZERO`; `d` may be `a`. -/
theorem exec_fnegz_fnegz {s : State} {d a b : EReg} (ha : (s.readE a).Canonical) (hz : s.readE b = ZERO) (hd : d ≠ b) :
    ∃ t, exec (Instr.fnegz d b a) s = .next t ∧ exec (Instr.fnegz d b d) t = exec (.fset d a) s := by
  have hneg : fSub ZERO (fSub ZERO (s.readE a)) = s.readE a := fNeg_fNeg ha
  refine ⟨_, exec_fsub d b a s, ?_⟩
  rw [exec_fsub, readE_of_writeE_setErr_of_ne hd, readE_of_writeE_setErr_self, hz, hneg, writeE_setErr_over, exec_fset]

/-- Settles O20: the values written are equal by the laws on Elements. -/
theorem fieldLaws : Obligations.FieldLaws := by
  intro s d a b ha hb
  refine ⟨?comm_add, ?comm_mul, exec_fsub_fadd ha hb, fun hone => ?one, ?self, fun htwo => ?double, exec_fnegz_fnegz ha⟩
  case comm_add => rw [exec_fadd, exec_fadd, fAdd_comm ha hb]
  case comm_mul => rw [exec_fmul, exec_fmul, montMul_comm ha hb]
  case one => rw [exec_fmul, exec_fset, hone, montMul_ONE ha]
  case self => rw [exec_fsub, exec_fzero, fSub_self ha]
  case double => rw [exec_fadd, exec_fmul, fAdd_self_eq_montMul ha hb htwo]

end Sys2Proof.Machine
end

section
/-! ## The field commands (41_field_commands.md R130 to R141) -/

namespace Sys2Proof.Machine

/-! ### Constants and arithmetic, as integers and as residues (10_state.md R36, R37; 40_field_primitives.md R105, R107, R117) -/

theorem ONE_eq_mont_one : ONE = mont 1 := by decide +kernel

/-- The subtractor as R105 writes it: `p` is added exactly when the difference is negative. -/
theorem fSub_int_eq_ite {a b : Element} (ha : a.Canonical) (hb : b.Canonical) :
    ((fSub a b).int : Int) = if b.int ≤ a.int then (a.int : Int) - b.int else (a.int : Int) - b.int + P := by
  rw [fSub_int ha hb]
  split
  next hle =>
    rw [show a.int + P - b.int = a.int - b.int + P by omega, Nat.add_mod_right, Nat.mod_eq_of_lt (by omega),
      Nat.cast_sub hle]
  next hlt => rw [Nat.mod_eq_of_lt (by omega)]; omega

/-- The negation as an integer: `p − B`, but 0 for `ZERO` (40_field_primitives.md R117). -/
theorem fNeg_int {b : Element} (hb : b.Canonical) : (fNeg b).int = if b = ZERO then 0 else P - b.int := by
  rw [fNeg, fSub_int ZERO_canonical hb, show ZERO.int = 0 from rfl, Nat.zero_add]
  split
  next hz => rw [hz, show ZERO.int = 0 from rfl, Nat.sub_zero, Nat.mod_self]
  next hz =>
    have hpos : b.int ≠ 0 := fun h => hz (int_inj h)
    exact Nat.mod_eq_of_lt (by have := P_pos; omega)

theorem montSqr_val {a : Element} (ha : a.Canonical) : (montSqr a).val = a.val ^ 2 % P :=
  val_eq_of_res (by rw [montSqr_res ha, Nat.cast_pow])

/-- `RINV` is the inverse of the Montgomery radix modulo `p` (00_scope.md R11). -/
theorem radix_mul_RINV_mod : 2 ^ 256 * RINV % P = 1 := by decide

/-! ### The codec's two round trips, and what it refuses (40_field_primitives.md R112, R113) -/

theorem fSetBytes_of_lt {v : Bytes} (hl : v.length = 32) (h : beNat v < P) : fSetBytes v = .ok (mont (beNat v)) := by
  rw [fSetBytes_eq, if_pos ⟨hl, h⟩]

theorem fSetBytes_of_refused {v : Bytes} (h : v.length ≠ 32 ∨ P ≤ beNat v) :
    fSetBytes v = .error .invalidElementEncoding := by
  rw [fSetBytes_eq, if_neg (by omega)]

/-- Loading the encoding of a canonical Element gives it back, limb for limb. -/
theorem fSetBytes_fBytes {a : Element} (ha : a.Canonical) : fSetBytes (fBytes a) = .ok a := by
  rw [fSetBytes_of_lt (fBytes_length a) (by rw [beNat_fBytes]; exact val_lt a), beNat_fBytes, mont_val ha]

/-- Encoding what was loaded gives the same bytes back. -/
theorem fBytes_of_fSetBytes {v : Bytes} {x : Element} (h : fSetBytes v = .ok x) : fBytes x = v := by
  rw [fSetBytes_eq] at h
  split at h
  next hv =>
    obtain ⟨hl, hlt⟩ := hv
    obtain rfl := Except.ok.inj h
    exact beNat_inj ((fBytes_length _).trans hl.symm) (by rw [beNat_fBytes, val_mont, Nat.mod_eq_of_lt hlt])
  next => cases h

/-- No error kind has the code of a command that did not fail (60_exceptions.md R220). -/
theorem Err.code_ne_okCode (K : Err) : K.code ≠ okCode := by cases K <;> decide

end Sys2Proof.Machine

namespace Sys2Proof.Claims

open Sys2Proof Sys2Proof.Machine

/-! ### The word of a command, and the state a command that writes an Element register leaves -/

/-- The word of the claims decodes to the command it spells; an index is one of the 16 values of its field
(30_encoding.md R71, R75). -/
theorem decode_kWord {i : Instr} {op : Nat} (rd ra rb : Fin 16)
    (h : i.fields = ⟨.ofNat 8 op, .ofNat 4 rd, .ofNat 4 ra, .ofNat 4 rb, 0⟩) : decode (kWord op rd ra rb) = .ok i := by
  rw [kWord_eq rd.isLt ra.isLt rb.isLt, decode_toWord, Fields.decode_eq_ok_iff]
  exact h

/-- Of a command that writes one Element register and cannot fail: the value written, `ERR` 0 and the frame. -/
theorem exists_of_exec_writeE {i : Instr} {s : State} {d : EReg} {v : Element}
    (h : exec i s = .next ((s.writeE d v).setErr okCode)) :
    ∃ t, exec i s = .next t ∧ t.readE d = v ∧ t.err = 0 ∧ Frame s t (e := [d]) :=
  ⟨_, h, readE_of_writeE_setErr s d v okCode, rfl, frame_writeE s d v okCode⟩

/-! ### Constants, copies and predicates (R130 to R135) -/

/-- Settles O14: each command writes the value its rule names, and `FSEL` one of its two sources. -/
theorem elementConstantsAndCopies : Obligations.ElementConstantsAndCopies := by
  intro s d a b
  obtain ⟨t, ht, hval, hok⟩ := exists_of_exec_writeE (exec_fone d s)
  have hsel := exists_of_exec_writeE (exec_fsel d a b s)
  rw [fSelect_eq] at hsel
  exact ⟨⟨decode_kWord d 0 0 rfl, exists_of_exec_writeE (exec_fzero d s)⟩,
    ⟨decode_kWord d 0 0 rfl, t, ht, hval, hval.trans ONE_eq_mont_one, hok⟩,
    ⟨decode_kWord d a 0 rfl, exists_of_exec_writeE (exec_fset d a s)⟩, ⟨decode_kWord d a b rfl, hsel⟩⟩

/-- Settles O15: `FLAG` takes the answer of `FEqual` or of `FIsZero`, and no register is written. -/
theorem elementPredicates : Obligations.ElementPredicates := fun s a b ha hb =>
  ⟨⟨decode_kWord 0 a b rfl, _, exec_feq a b s, fEqual_iff_val _ _, fEqual_iff ha hb, rfl, frame_setFlag s _ _⟩,
    ⟨decode_kWord 0 a 0 rfl, _, exec_fisz a s, fIsZero_iff ha, rfl, frame_setFlag s _ _⟩⟩

/-! ### Arithmetic (R136 to R139) -/

/-- Settles O16: the adder's sum, as an integer and as a residue. -/
theorem faddResult : Obligations.FaddResult := by
  intro s d a b ha hb
  obtain ⟨t, ht, hval, hok⟩ := exists_of_exec_writeE (exec_fadd d a b s)
  have hlt : (s.readE a).int + (s.readE b).int < 2 * P := by omega
  exact ⟨decode_kWord d a b rfl, t, ht, by rw [hval, fAdd_int hlt], by rw [hval, fAdd_val ha hb], hok⟩

/-- Settles O17: the subtractor's difference, as an integer and as a residue, and from `ZERO` the negation. -/
theorem fsubResult : Obligations.FsubResult := by
  intro s d a b ha hb
  obtain ⟨t, ht, hval, hok⟩ := exists_of_exec_writeE (exec_fsub d a b s)
  refine ⟨decode_kWord d a b rfl, t, ht, ?int, ?val, fun hz => ?neg, hok⟩
  case int => rw [hval, fSub_int_eq_ite ha hb]
  case val => rw [hval, fSub_val ha hb]
  case neg => rw [hval, hz]; exact fNeg_int hb

/-- Settles O18: the Montgomery product, as an integer and as a residue. -/
theorem fmulResult : Obligations.FmulResult := by
  refine ⟨radix_mul_RINV_mod, fun s d a b _ hb => ?_⟩
  obtain ⟨t, ht, hval, hok⟩ := exists_of_exec_writeE (exec_fmul d a b s)
  exact ⟨decode_kWord d a b rfl, t, ht, by rw [hval, montMul_int hb], by rw [hval, montMul_val _ hb], hok⟩

/-- Settles O19: `MontSqr(a)` is `MontMul(a, a)`, so the two commands write one value. -/
theorem fsqrResult : Obligations.FsqrResult := by
  intro s d a ha
  obtain ⟨t, ht, hval, hok⟩ := exists_of_exec_writeE (exec_fsqr d a s)
  have hmul : exec (.fsqr d a) s = exec (.fmul d a a) s := by rw [exec_fsqr, exec_fmul, montSqr]
  exact ⟨decode_kWord d a 0 rfl, hmul, t, ht, by rw [hval]; exact montSqr_canonical ha, by rw [hval, montSqr_val ha], hok⟩

/-! ### Bytes (R140, R141) -/

/-- Settles O25: the loader accepts exactly the 32-byte encodings of integers below `p`, and any other buffer only
raises. -/
theorem fldbResult : Obligations.FldbResult := by
  intro s d b
  rw [bigEndian_eq]
  refine ⟨decode_kWord d (b.castLE (by decide)) 0 rfl, fun hl hlt => ?loads, fun hbad => ?raises⟩
  case loads =>
    obtain ⟨t, ht, hval, hok⟩ := exists_of_exec_writeE (exec_fldb_ok (d := d) (fSetBytes_of_lt hl hlt))
    exact ⟨t, ht, hval, by rw [hval, val_mont, Nat.mod_eq_of_lt hlt], hok⟩
  case raises => exact ⟨_, exec_fldb_error (fSetBytes_of_refused hbad), rfl, frame_setErr s _⟩

/-- Settles O26: `FBytes` emits the spec's encoding of the residue, and the write replaces one buffer. -/
theorem fstbResult : Obligations.FstbResult := fun s d a =>
  ⟨decode_kWord (d.castLE (by decide)) a 0 rfl, _, exec_fstb d a s,
    (readBuf_of_writeBuf_setErr s d (fBytes_short _) _).trans (fBytes_eq_encoding32 _), rfl,
    frame_writeBuf s d (fBytes_short _) _⟩

/-- `FSTB` then `FLDB` of the same buffer. -/
theorem exec_fstb_fldb {s : State} (c : BReg) {a : EReg} (d : EReg) (ha : (s.readE a).Canonical) :
    ∃ t u, exec (.fstb c a) s = .next t ∧ exec (.fldb d c) t = .next u ∧ u.err = 0 ∧ u.readE d = s.readE a := by
  refine ⟨_, _, exec_fstb c a s, exec_fldb_ok (x := s.readE a) ?_, rfl, readE_of_writeE_setErr _ d _ _⟩
  rw [readBuf_of_writeBuf_setErr s c (fBytes_short _), fSetBytes_fBytes ha]

/-- `FLDB` that succeeds, then `FSTB` of the register it loaded. -/
theorem exec_fldb_fstb {s t : State} {d : EReg} {b : BReg} (c : BReg) (h : exec (.fldb d b) s = .next t)
    (hok : t.err = 0) : ∃ u, exec (.fstb c d) t = .next u ∧ u.readBuf c = s.readBuf b := by
  cases hx : fSetBytes (s.readBuf b) with
  | error K =>
    obtain rfl := Host.Outcome.next.inj ((exec_fldb_error hx).symm.trans h)
    exact absurd hok K.code_ne_okCode
  | ok x =>
    obtain rfl := Host.Outcome.next.inj ((exec_fldb_ok hx).symm.trans h)
    refine ⟨_, exec_fstb c d _, ?_⟩
    rw [readBuf_of_writeBuf_setErr _ c (fBytes_short _), readE_of_writeE_setErr, fBytes_of_fSetBytes hx]

/-- Settles O27: the two orders of storing and loading, each with the law of the codec that undoes it. -/
theorem elementRoundTrips : Obligations.ElementRoundTrips :=
  ⟨fun _ c _ d => exec_fstb_fldb c d, fun _ _ _ _ c => exec_fldb_fstb c⟩

end Sys2Proof.Claims
end

section
/-! ## Inversion and square root (42_field_inv_sqrt.md R160 to R165) -/

namespace Sys2Proof.Machine

/-! ### Inversion (R160, R165) -/

theorem fInvert_val {a : Element} (ha : a.Canonical) : (fInvert a).val = a.val ^ (P - 2) % P :=
  val_eq_of_res (by rw [(fInvert_res ha).2, Nat.cast_pow, val_cast])

/-- But for `ZERO`, the inverse of the inverse is the other factor of the product 1. -/
theorem fInvert_fInvert {a : Element} (ha : a.Canonical) : fInvert (fInvert a) = a := by
  have : Fact P.Prime := ⟨P_prime⟩
  by_cases hz : a = ZERO
  · rw [hz, fInvert_ZERO, fInvert_ZERO]
  · have hb := (fInvert_res ha).1
    have hprod : a.res * (fInvert a).res = 1 := fInvert_mul ha hz
    have hne : (fInvert a).res ≠ 0 := right_ne_zero_of_mul_eq_one hprod
    have hnz : fInvert a ≠ ZERO := fun h => hne ((res_eq_zero_iff hb).mpr h)
    have hprod' : (fInvert a).res * (fInvert (fInvert a)).res = 1 := fInvert_mul hb hnz
    exact eq_of_res (fInvert_res hb).1 ha (mul_left_cancel₀ hne (by rw [hprod', mul_comm, hprod]))

/-! ### Square root (R162, R165) -/

theorem mod_eq_val_iff {a : Element} {n : Nat} : n % P = a.val ↔ (n : ZMod P) = a.res :=
  ⟨fun h => by rw [← val_cast, ← h, ZMod.natCast_mod], fun h => (val_eq_of_res h.symm).symm⟩

theorem sq_cast_eq_res {a : Element} {y : Nat} (h : y ^ 2 % P = a.val) : (y : ZMod P) ^ 2 = a.res := by
  rw [← Nat.cast_pow, mod_eq_val_iff.mp h]

theorem fSqrt_res {a : Element} (ha : a.Canonical) : (fSqrt a).2.res = a.res ^ ((P + 1) / 4) := (sqrtCandidate_res ha).2

theorem fSqrt_val {a : Element} (ha : a.Canonical) : (fSqrt a).2.val = a.val ^ ((P + 1) / 4) % P :=
  val_eq_of_res (by rw [fSqrt_res ha, Nat.cast_pow, val_cast])

theorem fSqrt_ok_iff_pow {a : Element} (ha : a.Canonical) :
    (fSqrt a).1 = true ↔ (a.val ^ ((P + 1) / 4)) ^ 2 % P = a.val := by
  rw [fSqrt_ok_iff ha, fSqrt_res ha, mod_eq_val_iff, Nat.cast_pow, Nat.cast_pow, val_cast]

theorem fSqrt_ok_iff_sq_val {a : Element} (ha : a.Canonical) : (fSqrt a).1 = true ↔ (fSqrt a).2.val ^ 2 % P = a.val := by
  rw [fSqrt_ok_iff ha, mod_eq_val_iff, Nat.cast_pow, val_cast]

/-- The candidate of a square of `y` is `y` or `p − y`. -/
theorem fSqrt_val_of_sq {a : Element} (ha : a.Canonical) {y : Nat} (hy : y < P) (hsq : y ^ 2 % P = a.val) :
    (fSqrt a).2.val = y ∨ (fSqrt a).2.val = (P - y) % P := by
  obtain h | h := fSqrt_root ha (sq_cast_eq_res hsq)
  · exact .inl ((val_eq_of_res h).trans (Nat.mod_eq_of_lt hy))
  · exact .inr (val_eq_of_res (by rw [h, Nat.cast_sub hy.le, ZMod.natCast_self, zero_sub]))

/-- A square has a root among the candidate and its negation, so the candidate is a root of every square. -/
theorem fSqrt_ok_iff_square {a : Element} (ha : a.Canonical) : (fSqrt a).1 = true ↔ ∃ y, y < P ∧ y ^ 2 % P = a.val := by
  constructor
  · exact fun h => ⟨_, val_lt _, (fSqrt_ok_iff_sq_val ha).mp h⟩
  · rintro ⟨y, -, hsq⟩
    have : Fact P.Prime := ⟨P_prime⟩
    rw [fSqrt_ok_iff ha, ← sq_cast_eq_res hsq]
    exact sq_eq_sq_iff_eq_or_eq_neg.mpr (fSqrt_root ha (sq_cast_eq_res hsq))

end Sys2Proof.Machine

namespace Sys2Proof.Claims

open Sys2Proof Sys2Proof.Machine

/-! ### `FINV` (R161, R165) -/

/-- Settles O21: the chain's exponent is `p − 2`, and it takes `ZERO` to `ZERO`. -/
theorem finvResult : Obligations.FinvResult := by
  intro s d a ha
  obtain ⟨t, ht, hval, hok⟩ := exists_of_exec_writeE (exec_finv d a s)
  exact ⟨decode_kWord d a 0 rfl, t, ht, by rw [hval]; exact (fInvert_res ha).1, by rw [hval, fInvert_val ha],
    fun hz => by rw [hval, hz, fInvert_ZERO], hok⟩

/-- Settles O22: `a · a^(p − 2)` is 1 where `a` is not 0, so the inverse of the inverse is `a`. -/
theorem finvInverts : Obligations.FinvInverts := by
  intro s d a c ha hd
  refine ⟨fun hz => ⟨_, _, exec_finv d a s, exec_fmul c a d _, ?product⟩, _, _, exec_finv d a s, exec_finv c d _, ?twice⟩
  case product =>
    rw [readE_of_writeE_setErr, readE_of_writeE_setErr, readE_of_writeE_setErr_of_ne hd, montMul_fInvert ha hz]
  case twice => rw [readE_of_writeE_setErr, readE_of_writeE_setErr, fInvert_fInvert ha]

/-! ### `FSQRT` (R163, R165) -/

/-- What `FSQRT` leaves: `FLAG` tells whether the candidate is a root, and only a root is written. -/
theorem exists_of_exec_fsqrt (s : State) (d a : EReg) :
    ∃ t, exec (.fsqrt d a) s = .next t ∧ t.flag = (fSqrt (s.readE a)).1 ∧
      (t.flag = true → t.readE d = (fSqrt (s.readE a)).2) ∧ (t.flag = false → t.readE d = s.readE d) ∧
      t.err = 0 ∧ Frame s t (e := [d]) (flag := true) := by
  refine ⟨_, exec_fsqrt d a s, rfl, fun (h : (fSqrt _).1 = true) => ?root, fun (h : (fSqrt _).1 = false) => ?kept, rfl,
    frame_setFlag_writeE s _ d _ _⟩
  case root => rw [readE_of_setFlag_writeE_setErr, fSelect_eq, if_pos h]
  case kept => rw [readE_of_setFlag_writeE_setErr, fSelect_eq, h, if_neg Bool.false_ne_true]

/-- Settles O23: the candidate is the operand to the power `(p + 1)/4`, and `FLAG` compares its square. -/
theorem fsqrtResult : Obligations.FsqrtResult := by
  intro s d a ha
  obtain ⟨t, ht, hflag, hroot, hkept, hok⟩ := exists_of_exec_fsqrt s d a
  refine ⟨decode_kWord d a 0 rfl, t, ht, by rw [hflag, fSqrt_ok_iff_pow ha], fun h => ?_, hkept, hok⟩
  rw [hroot h]
  exact ⟨fSqrt_canonical ha, fSqrt_val ha⟩

/-- Settles O24: of a square the candidate is one of the two roots, so `FLAG` is set on every square, and on nothing
else because the candidate is then a root. -/
theorem fsqrtDecidesSquares : Obligations.FsqrtDecidesSquares := by
  intro s d a ha
  obtain ⟨t, ht, hflag, hroot, -, -⟩ := exists_of_exec_fsqrt s d a
  have hsquare := fSqrt_ok_iff_square ha
  rw [← hflag] at hsquare
  refine ⟨t, ht, hsquare, fun h => ?root, fun y hy hsq => ?roots⟩
  case root => rw [hroot h]; exact (fSqrt_ok_iff_sq_val ha).mp (hflag ▸ h)
  case roots => rw [hroot (hsquare.mpr ⟨y, hy, hsq⟩)]; exact fSqrt_val_of_sq ha hy hsq

end Sys2Proof.Claims
end

section
/-! ## Point addition, doubling and subtraction (43_point_primitives.md R170 to R172, R178), and the tables built from
them (R175 to R177) -/

namespace Sys2Proof.Machine

open Sys2Proof.Claims

/-! ### Points as limb patterns (10_state.md R22): both sides are canonical and have the same residues -/

/-- A Point with canonical coordinates is determined by its residues. -/
theorem point_eq_of_res {A B : Point} (hA : A.Canonical) (hB : B.Canonical) (hX : A.X.res = B.X.res)
    (hY : A.Y.res = B.Y.res) (hZ : A.Z.res = B.Z.res) : A = B := by
  obtain ⟨AX, AY, AZ⟩ := A
  obtain ⟨BX, BY, BZ⟩ := B
  obtain ⟨cAX, cAY, cAZ⟩ := hA
  obtain ⟨cBX, cBY, cBZ⟩ := hB
  obtain rfl := eq_of_res cAX cBX hX
  obtain rfl := eq_of_res cAY cBY hY
  obtain rfl := eq_of_res cAZ cBZ hZ
  rfl

/-- The closed form of R170 is symmetric in its two operands. -/
theorem pointAdd_comm {A B : Point} (hA : A.Canonical) (hB : B.Canonical) : pointAdd A B = pointAdd B A := by
  obtain ⟨eX, eY, eZ⟩ := pointAdd_res hA hB
  obtain ⟨fX, fY, fZ⟩ := pointAdd_res hB hA
  exact point_eq_of_res (pointAdd_canonical hA hB) (pointAdd_canonical hB hA)
    (by rw [eX, fX]; ring) (by rw [eY, fY]; ring) (by rw [eZ, fZ]; ring)

/-! ### The identity and the negation on representatives (43_point_primitives.md R178) -/

theorem IDENT_res : IDENT.X.res = 0 ∧ IDENT.Y.res = 1 ∧ IDENT.Z.res = 0 := ⟨ZERO_res, ONE_res, ZERO_res⟩

/-- Adding `IDENT` multiplies every coordinate by `Y` (46_scalar_mult.md R212). -/
theorem pointAdd_IDENT_res {Q : Point} (h : Q.Canonical) :
    (pointAdd Q IDENT).X.res = Q.X.res * Q.Y.res ∧ (pointAdd Q IDENT).Y.res = Q.Y.res ^ 2 ∧
    (pointAdd Q IDENT).Z.res = Q.Z.res * Q.Y.res := by
  obtain ⟨eX, eY, eZ⟩ := pointAdd_res h IDENT_canonical
  obtain ⟨iX, iY, iZ⟩ := IDENT_res
  rw [iX, iY, iZ] at eX eY eZ
  exact ⟨by rw [eX]; ring, by rw [eY]; ring, by rw [eZ]; ring⟩

theorem pointDouble_IDENT : pointDouble IDENT = IDENT := by
  obtain ⟨eX, eY, eZ⟩ := pointDouble_res IDENT_canonical
  obtain ⟨iX, iY, iZ⟩ := IDENT_res
  rw [iX, iY, iZ] at eX
  rw [iY, iZ] at eY eZ
  exact point_eq_of_res (pointDouble_canonical IDENT_canonical) IDENT_canonical
    (by rw [eX, iX]; ring) (by rw [eY, iY]; ring) (by rw [eZ, iZ]; ring)

/-- With `Y` negated, the two products in each sum that `X` and `Z` have as a factor cancel. -/
theorem pointSub_self {Q : Point} (h : Q.Canonical) : (pointSub Q Q).X = ZERO ∧ (pointSub Q Q).Z = ZERO := by
  obtain ⟨cX, -, cZ⟩ := pointSub_canonical h h
  obtain ⟨eX, -, eZ⟩ := pointAdd_res h (pointNeg_canonical h)
  have nX : (pointNeg Q).X.res = Q.X.res := rfl
  have nY : (pointNeg Q).Y.res = -Q.Y.res := fNeg_res h.2.1
  have nZ : (pointNeg Q).Z.res = Q.Z.res := rfl
  rw [nX, nY, nZ] at eX eZ
  exact ⟨(res_eq_zero_iff cX).mp (by rw [pointSub, eX]; ring), (res_eq_zero_iff cZ).mp (by rw [pointSub, eZ]; ring)⟩

/-! ### The same point (43_point_primitives.md R179) -/

/-- Points that represent one element of the group are the same point. -/
theorem samePoint_of_represents {A B : Point} {g : curve.Point} (hA : Represents A g) (hB : Represents B g) :
    SamePoint A B := by
  cases g with
  | zero => exact .inl ⟨hA, hB⟩
  | some x y n =>
    obtain ⟨zA, xA, yA⟩ := hA
    obtain ⟨zB, xB, yB⟩ := hB
    exact .inr ⟨zA, zB, by rw [xA, xB]; ring, by rw [yA, yB]; ring⟩

/-- A Point whose coordinates are a nonzero multiple of another's is the same point, on the curve or not. -/
theorem samePoint_of_scaled {A Q : Point} (hA : A.Canonical) (hQ : Q.Canonical) {c : ZMod P} (hc : c ≠ 0)
    (hX : Q.X.res = A.X.res * c) (hY : Q.Y.res = A.Y.res * c) (hZ : Q.Z.res = A.Z.res * c) : SamePoint Q A := by
  have : Fact P.Prime := ⟨P_prime⟩
  have hzero : Q.Z = ZERO ↔ A.Z = ZERO := by
    rw [← res_eq_zero_iff hQ.2.2, ← res_eq_zero_iff hA.2.2, hZ, mul_eq_zero_iff_right hc]
  by_cases hz : A.Z = ZERO
  · exact .inl ⟨hzero.mpr hz, hz⟩
  · exact .inr ⟨mt hzero.mp hz, hz, by rw [hX, hZ]; ring, by rw [hY, hZ]; ring⟩

theorem samePoint_pointAdd_IDENT {Q : Point} (h : Q.Canonical) (hY : Q.Y ≠ ZERO) : SamePoint (pointAdd Q IDENT) Q := by
  obtain ⟨eX, eY, eZ⟩ := pointAdd_IDENT_res h
  exact samePoint_of_scaled h (pointAdd_canonical h IDENT_canonical) (mt (res_eq_zero_iff h.2.1).mp hY) eX
    (by rw [eY, sq]) eZ

/-! ### The generator table (43_point_primitives.md R176) -/

theorem genTableEntry_eq_entry (gt : GenTable) {k : Nat} (hk : k < NTAB) (j : Nat) :
    genTableEntry gt k j = entry gt[k] j := by
  rw [genTableEntry, List.getD_eq_getElem _ _ (by simpa using hk), Vector.getElem_toList]

theorem genTableEntry_build {k j : Nat} (hk : k < NTAB) (hj : j < TABLEN) :
    genTableEntry buildGeneratorTable k j = genEntry (genBase k) j := by
  rw [genTableEntry_eq_entry _ hk, genTable_entry hk hj]

end Sys2Proof.Machine

namespace Sys2Proof.Claims

open Sys2Proof Sys2Proof.Machine

/-- The word of the claims with Point register operands. -/
theorem decode_kWord_points {i : Instr} {op : Nat} (rd ra rb : PReg)
    (h : i.fields = ⟨.ofNat 8 op, .ofNat 4 rd, .ofNat 4 ra, .ofNat 4 rb, 0⟩) : decode (kWord op rd ra rb) = .ok i :=
  decode_kWord (rd.castLE (by decide)) (ra.castLE (by decide)) (rb.castLE (by decide)) h

/-- Of a command that writes one Point register and cannot fail: the value written, `ERR` 0 and the frame. -/
theorem exists_of_exec_writeP {i : Instr} {s : State} {d : PReg} {v : Point}
    (h : exec i s = .next ((s.writeP d v).setErr okCode)) :
    ∃ t, exec i s = .next t ∧ t.readP d = v ∧ t.err = 0 ∧ Frame s t (p := [d]) :=
  ⟨_, h, readP_of_writeP_setErr s d v okCode, rfl, frame_writeP s d v okCode⟩

/-! ### Closed forms and limb patterns (R170 to R172) -/

/-- Settles O29: the value written is the closed form's. -/
theorem paddClosedForm : Obligations.PaddClosedForm := by
  intro s d a b ha hb
  obtain ⟨t, ht, hval, herr, hframe⟩ := exists_of_exec_writeP (exec_padd d a b s)
  refine ⟨decode_kWord_points d a b rfl, t, ht, ?canonical, herr, hframe, ?residues⟩
  case canonical => rw [hval]; exact pointAdd_canonical ha hb
  case residues =>
    rintro _ _ _ _ _ _ rfl rfl rfl rfl rfl rfl
    rw [hval]
    exact pointAdd_res ha hb

/-- Settles O30: the value written is the closed form's. -/
theorem pdblClosedForm : Obligations.PdblClosedForm := by
  intro s d a ha
  obtain ⟨t, ht, hval, herr, hframe⟩ := exists_of_exec_writeP (exec_pdbl d a s)
  refine ⟨decode_kWord_points d a 0 rfl, t, ht, ?canonical, herr, hframe, ?residues⟩
  case canonical => rw [hval]; exact pointDouble_canonical ha
  case residues =>
    rintro _ _ _ rfl rfl rfl
    rw [hval]
    exact pointDouble_res ha

/-- `PADD` of a second operand first put in a register of its own. -/
theorem exists_of_exec_padd_written (s : State) (d : PReg) {a c : PReg} (N : Point) (h : c ≠ a) :
    ∃ u, exec (.padd d a c) (s.writeP c N) = .next u ∧ u.readP d = pointAdd (s.readP a) N := by
  obtain ⟨u, hu, hval, -⟩ := exists_of_exec_writeP (exec_padd d a c (s.writeP c N))
  exact ⟨u, hu, by rw [hval, readP_writeP_of_ne s N h.symm, readP_writeP_self]⟩

/-- Settles O31: `PointSub` is `PointAdd` of the first operand and the negated second one. -/
theorem psubIsPaddOfNegation : Obligations.PsubIsPaddOfNegation := by
  intro s d a b _ hb
  obtain ⟨t, ht, hval, herr, hframe⟩ := exists_of_exec_writeP (exec_psub d a b s)
  refine ⟨decode_kWord_points d a b rfl, t, pointNeg (s.readP b), ht, herr, hframe, rfl, rfl, fNeg_int hb.2.1,
    fun c hc => ?_⟩
  obtain ⟨u, hu, hval'⟩ := exists_of_exec_padd_written s d (pointNeg (s.readP b)) hc
  exact ⟨u, hu, by rw [hval, hval', pointSub]⟩

/-- Settles O32: the values written are equal by the symmetry of the closed form. -/
theorem paddCommutes : Obligations.PaddCommutes := by
  intro s d a b ha hb
  rw [exec_padd, exec_padd, pointAdd_comm ha hb]

/-- Settles O33: each identity of the point functions is that of the command that calls them, and `IDENT` may stand
on either side because `PADD` commutes. -/
theorem pointIdentities : Obligations.PointIdentities := by
  intro s d a b ha
  refine ⟨fun hb => ?add, fun hi => ?double, ?self⟩
  case add =>
    obtain ⟨t, ht, hval, -⟩ := exists_of_exec_writeP (exec_padd d a b s)
    have hswap := paddCommutes s d a b ha (by rw [hb]; exact IDENT_canonical)
    obtain ⟨hX, hY, hZ⟩ := pointAdd_IDENT_res ha
    refine ⟨t, ht, hswap.symm.trans ht, ?_⟩
    rw [hval, hb]
    exact ⟨hX, hY, hZ, samePoint_pointAdd_IDENT ha⟩
  case double =>
    obtain ⟨t, ht, hval, -⟩ := exists_of_exec_writeP (exec_pdbl d a s)
    exact ⟨t, ht, by rw [hval, hi, pointDouble_IDENT]⟩
  case self =>
    obtain ⟨t, ht, hval, -⟩ := exists_of_exec_writeP (exec_psub d a a s)
    exact ⟨t, ht, by rw [hval]; exact pointSub_self ha⟩

/-! ### The group of the curve (R178) -/

/-- Settles O34: the value written represents the sum, by the group law of `PointAdd`. -/
theorem paddIsGroupSum : Obligations.PaddIsGroupSum := by
  intro s d a b g h k ha hb hg hh hk
  obtain ⟨t, ht, hval, -⟩ := exists_of_exec_writeP (exec_padd d a b s)
  exact ⟨t, ht, by rw [hval]; exact pointAdd_represents ha hb hg hh hk⟩

/-- Settles O35: the double and the sum of the point with itself represent one element of the group. -/
theorem pdblIsGroupDouble : Obligations.PdblIsGroupDouble := by
  intro s d a g k ha hg hk
  obtain ⟨t, ht, hval, -⟩ := exists_of_exec_writeP (exec_pdbl d a s)
  obtain ⟨u, hu, -, hsum⟩ := paddIsGroupSum s d a a g g k ha ha hg hg hk
  obtain ⟨hproper, hdouble⟩ := pointDouble_represents ha hg hk
  rw [← hval] at hproper hdouble
  exact ⟨t, u, ht, hu, hproper, hdouble, samePoint_of_represents hdouble hsum⟩

/-- Settles O36: the value written represents the difference, by the group law of `PointSub`. -/
theorem psubIsGroupDifference : Obligations.PsubIsGroupDifference := by
  intro s d a b g h k ha hb hg hh hk
  obtain ⟨t, ht, hval, -⟩ := exists_of_exec_writeP (exec_psub d a b s)
  exact ⟨t, ht, by rw [hval]; exact pointSub_represents ha hb hg hh hk⟩

/-! ### The tables (R175 to R177) -/

/-- Settles O50: each entry of the window table is the operation on earlier entries that R175 names, and each entry of
the generator table the one its recursion gives. -/
theorem tables : Obligations.Tables := by
  refine ⟨fun Q => ⟨rfl, fun k hk => ⟨window_entry_odd Q hk, window_entry_even Q hk⟩⟩, ?generator,
    fun k hk => ?base, fun k j hk hj => ?entry⟩
  case generator => exact genTableEntry_build (by decide) (by decide)
  case base =>
    have hk' : k + 1 < NTAB := by unfold NTAB; omega
    rw [genTableEntry_build hk' (by decide), genTableEntry_build (Nat.lt_of_succ_lt hk') (by decide)]
    rfl
  case entry =>
    have hj' : j + 1 < TABLEN := by unfold TABLEN; omega
    rw [genTableEntry_build hk hj', genTableEntry_build hk (Nat.lt_of_succ_lt hj'), genTableEntry_build hk (by decide)]
    rfl

end Sys2Proof.Claims
end

section
/-! ## Point constants and copies (44_point_commands.md R190 to R193) -/

namespace Sys2Proof.Machine

open Sys2Proof.Claims

theorem beNat_encoding32 {n : Nat} (h : n < P) : beNat (encoding32 n) = n := by
  rw [← bigEndian_eq, bigEndian_encoding32 (h.trans (by decide))]

/-- The uncompressed encoding of a pair that solves the curve equation decodes to that pair (45_point_codec.md R200). -/
theorem decodePoint_encoding32 {x y : Nat} (hx : x < P) (hy : y < P) (h : y ^ 2 % P = (x ^ 3 + 7) % P) :
    decodePoint ([0x04] ++ encoding32 x ++ encoding32 y) = .ok ⟨mont x, mont y, ONE⟩ := by
  have hlen : (encoding32 x ++ encoding32 y).length = 64 := by simp [encoding32_length]
  calc decodePoint ([0x04] ++ encoding32 x ++ encoding32 y)
      = decodeUncompressed (0x04 :: (encoding32 x ++ encoding32 y)) := decodePoint_uncompressed _ hlen
    _ = .ok ⟨mont x, mont y, ONE⟩ := by
      rw [decodeUncompressed_eq _ (encoding32_length x) (encoding32_length y), beNat_encoding32 hx, beNat_encoding32 hy,
        if_pos ⟨hx, hy⟩, if_pos h]

theorem GEN_eq_mont : GEN = ⟨mont Gx, mont Gy, ONE⟩ := by decide +kernel

/-- The generator's own encoding decodes to it: its coordinates are below `p` and solve the curve equation
(10_state.md R38). -/
theorem decodePoint_GEN : decodePoint ([0x04] ++ encoding32 Gx ++ encoding32 Gy) = .ok GEN := by
  rw [decodePoint_encoding32 (by decide) (by decide) (by decide), GEN_eq_mont]

end Sys2Proof.Machine

namespace Sys2Proof.Claims

open Sys2Proof Sys2Proof.Machine

/-- Settles O28: each command writes the Point its rule names, `PSEL` one of its two sources, and `PLDB` of the
generator's encoding writes what `PGEN` writes. -/
theorem pointConstantsAndCopies : Obligations.PointConstantsAndCopies := by
  intro s d a b
  have hgen := exists_of_exec_writeP (exec_pgen d s)
  rw [GEN_eq_mont] at hgen
  have hsel := exists_of_exec_writeP (exec_psel d a b s)
  rw [pointSelect_eq] at hsel
  refine ⟨⟨decode_kWord_points d 0 0 rfl, exists_of_exec_writeP (exec_pident d s)⟩,
    ⟨decode_kWord_points d 0 0 rfl, hgen, fun c hc => ?load⟩,
    ⟨decode_kWord_points d a 0 rfl, exists_of_exec_writeP (exec_pset d a s)⟩, ⟨decode_kWord_points d a b rfl, hsel⟩⟩
  case load =>
    have hdec : decodePoint (s.readBuf c) = .ok GEN := by rw [hc, decodePoint_GEN]
    rw [exec_pldb_ok hdec, exec_pgen]

end Sys2Proof.Claims
end

section
/-! ## The point codec (45_point_codec.md R200 to R204) -/

namespace Sys2Proof.Machine

open Sys2Proof.Claims

/-! ### The shapes of a point encoding (R200) -/

/-- The four pairs (length, first byte) the decoder knows (45_point_codec.md R200). -/
def KnownShape (v : Bytes) : Prop :=
  ∃ x rest, v = x :: rest ∧
    ((rest.length = 0 ∧ x = 0x00) ∨ (rest.length = 64 ∧ x = 0x04) ∨ (rest.length = 32 ∧ (x = 0x02 ∨ x = 0x03)))

theorem decodePoint_zero : decodePoint [0x00] = .ok IDENT := rfl

theorem decodePoint_of_not_knownShape {v : Bytes} (h : ¬ KnownShape v) : decodePoint v = .error .invalidPointEncoding := by
  unfold decodePoint
  cases v with
  | nil => rfl
  | cons x rest =>
    dsimp only [List.head?_cons, List.length_cons]
    rw [if_neg fun ⟨hl, hx⟩ => h ⟨x, rest, rfl, .inl ⟨by omega, hx⟩⟩,
      if_neg fun ⟨hl, hx⟩ => h ⟨x, rest, rfl, .inr (.inl ⟨by omega, hx⟩)⟩,
      if_neg fun ⟨hl, hx⟩ => h ⟨x, rest, rfl, .inr (.inr ⟨by omega, hx⟩)⟩]

theorem knownShape_of_decodePoint {v : Bytes} {Q : Point} (h : decodePoint v = .ok Q) : KnownShape v := by
  by_contra hn
  rw [decodePoint_of_not_knownShape hn] at h
  cases h

/-! ### What a byte string encodes (R200, 20_memory.md R54) -/

/-- `x` and `y` are residues that solve the curve equation (10_state.md R38). -/
structure CurvePair (x y : Nat) : Prop where
  x_lt     : x < P
  y_lt     : y < P
  equation : y ^ 2 % P = (x ^ 3 + 7) % P

/-- The first byte of a compressed encoding: `02` for an even `y`, `03` for an odd one (20_memory.md R54). -/
def parityPrefix (y : Nat) : Bytes := if y % 2 = 0 then [0x02] else [0x03]

/-- The three formats of a point, and the Point each stands for (20_memory.md R54). -/
inductive Encodes : Bytes → Point → Prop
  | identity : Encodes [0x00] IDENT
  | uncompressed {x y : Nat} (h : CurvePair x y) :
      Encodes ([0x04] ++ encoding32 x ++ encoding32 y) ⟨mont x, mont y, ONE⟩
  | compressed {x y : Nat} (h : CurvePair x y) : Encodes (parityPrefix y ++ encoding32 x) ⟨mont x, mont y, ONE⟩

theorem encoding32_beNat {v : Bytes} (hl : v.length = 32) (h : beNat v < P) : encoding32 (beNat v) = v :=
  beNat_inj ((encoding32_length _).trans hl.symm) (beNat_encoding32 h)

theorem parityPrefix_eq (y : Nat) :
    ∃ pfx : Byte, parityPrefix y = [pfx] ∧ (pfx = 0x02 ∨ pfx = 0x03) ∧ y % 2 = pfx.toNat % 2 := by
  unfold parityPrefix
  split
  next heven => exact ⟨0x02, rfl, .inl rfl, heven⟩
  next hodd => exact ⟨0x03, rfl, .inr rfl, Nat.mod_two_ne_zero.mp hodd⟩

theorem parityPrefix_of_parity {pfx : Byte} {y : Nat} (hp : pfx = 0x02 ∨ pfx = 0x03) (hy : y % 2 = pfx.toNat % 2) :
    parityPrefix y = [pfx] := by
  unfold parityPrefix
  obtain rfl | rfl := hp
  · exact if_pos hy
  · exact if_neg (by rw [hy]; decide)

/-- Of the two roots `y` and `p − y` one has each parity, because `p` is odd and no root is 0
(45_point_codec.md R200). -/
theorem CurvePair.exists_of_parity {x y : Nat} (h : CurvePair x y) (b : Nat) :
    ∃ z, CurvePair x z ∧ z % 2 = b % 2 := by
  by_cases hb : y % 2 = b % 2
  · exact ⟨y, h, hb⟩
  have hodd : P % 2 = 1 := by decide
  obtain ⟨hx, hy, heq⟩ := h
  have hcurve : (y : ZMod P) ^ 2 = (x : ZMod P) ^ 3 + 7 := by exact_mod_cast (ZMod.natCast_eq_natCast_iff' _ _ _).mpr heq
  have hpos : y ≠ 0 := fun h0 => y_ne_zero hcurve (by rw [h0, Nat.cast_zero])
  have hneg : (P - y) ^ 2 % P = y ^ 2 % P := by
    rw [← ZMod.natCast_eq_natCast_iff', Nat.cast_pow, Nat.cast_sub hy.le, ZMod.natCast_self, zero_sub, neg_sq, Nat.cast_pow]
  exact ⟨P - y, ⟨hx, by omega, hneg.trans heq⟩, by omega⟩

theorem encodes_of_decodeUncompressed {v : Bytes} {Q : Point} (hl : v.length = 64)
    (h : decodeUncompressed (0x04 :: v) = .ok Q) : Encodes (0x04 :: v) Q := by
  obtain ⟨xs, ys, rfl, hx⟩ : ∃ xs ys, v = xs ++ ys ∧ xs.length = 32 :=
    ⟨v.take 32, v.drop 32, (List.take_append_drop 32 v).symm, by rw [List.length_take, hl]; rfl⟩
  have hy : ys.length = 32 := by rw [List.length_append] at hl; omega
  rw [decodeUncompressed_eq _ hx hy] at h
  split_ifs at h with hlt heq
  obtain rfl := Except.ok.inj h
  have henc := Encodes.uncompressed ⟨hlt.1, hlt.2, heq⟩
  rwa [encoding32_beNat hx hlt.1, encoding32_beNat hy hlt.2] at henc

/-- A compressed string that is accepted has an `x` below `p` and a root, so also the root of its first byte's parity, which
is the one the decoder answers. -/
theorem encodes_of_decodeCompressed {pfx : Byte} {v : Bytes} {Q : Point} (hp : pfx = 0x02 ∨ pfx = 0x03)
    (hl : v.length = 32) (h : decodeCompressed pfx (pfx :: v) = .ok Q) : Encodes (pfx :: v) Q := by
  have hlt : beNat v < P := by
    by_contra hbig
    rw [decodeCompressed_big hl (Nat.le_of_not_lt hbig)] at h
    cases h
  have hroot : ∃ y, y < P ∧ y ^ 2 % P = (beNat v ^ 3 + 7) % P := by
    by_contra hnone
    rw [decodeCompressed_none hl hlt hnone] at h
    cases h
  obtain ⟨y, hy, heq⟩ := hroot
  obtain ⟨z, hz, hpar⟩ := CurvePair.exists_of_parity ⟨hlt, hy, heq⟩ pfx.toNat
  rw [decodeCompressed_root hp hl hlt hz.y_lt hz.equation hpar] at h
  obtain rfl := Except.ok.inj h
  have henc := Encodes.compressed hz
  rwa [parityPrefix_of_parity hp hpar, encoding32_beNat hl hlt] at henc

/-- Whatever the decoder accepts is in one of the three formats. -/
theorem encodes_of_decodePoint {v : Bytes} {Q : Point} (h : decodePoint v = .ok Q) : Encodes v Q := by
  obtain ⟨pfx, rest, rfl, ⟨hl, rfl⟩ | ⟨hl, rfl⟩ | ⟨hl, hp⟩⟩ := knownShape_of_decodePoint h
  · obtain rfl := List.length_eq_zero_iff.mp hl
    obtain rfl := Except.ok.inj (decodePoint_zero.symm.trans h)
    exact .identity
  · exact encodes_of_decodeUncompressed hl (by rwa [decodePoint_uncompressed rest hl] at h)
  · exact encodes_of_decodeCompressed hp hl (by rwa [decodePoint_compressed pfx rest hp hl] at h)

/-- A string in one of the three formats decodes to the Point it stands for. -/
theorem decodePoint_of_encodes {v : Bytes} {Q : Point} (h : Encodes v Q) : decodePoint v = .ok Q := by
  cases h with
  | identity => exact decodePoint_zero
  | uncompressed h => exact decodePoint_encoding32 h.x_lt h.y_lt h.equation
  | @compressed x y h =>
    obtain ⟨pfx, hpfx, hp, hpar⟩ := parityPrefix_eq y
    have hx := beNat_encoding32 h.x_lt
    have hl := encoding32_length x
    rw [hpfx, List.singleton_append, decodePoint_compressed pfx _ hp hl,
      decodeCompressed_root hp hl (by rw [hx]; exact h.x_lt) h.y_lt (by rw [hx]; exact h.equation) hpar, hx]

/-! ### The encoders, by the affine coordinates (R201 to R203, 43_point_primitives.md R179) -/

theorem affine_eq_none {Q : Point} (h : Q.Canonical) (hz : Q.Z = ZERO) : affine Q = none := by
  rw [affine_eq h, if_pos hz]

/-- A normalised Point's affine coordinates are its own. -/
theorem affine_normalised {X Y : Element} (hX : X.Canonical) (hY : Y.Canonical) : affine ⟨X, Y, ONE⟩ = some (X, Y) := by
  obtain ⟨x, y, haff, hx, hy, ex, ey⟩ :=
    affine_residues (Q := ⟨X, Y, ONE⟩) ⟨hX, hY, ONE_canonical⟩ (show ONE ≠ ZERO by decide)
  obtain rfl : x = X := eq_of_res hx hX (by rw [← ex, ONE_res, mul_one])
  obtain rfl : y = Y := eq_of_res hy hY (by rw [← ey, ONE_res, mul_one])
  exact haff

theorem encodeUncompressed_of_none {Q : Point} (h : affine Q = none) : encodeUncompressed Q = [0x00] := by
  rw [encodeUncompressed, h, Option.elim_none]

theorem encodeCompressed_of_none {Q : Point} (h : affine Q = none) : encodeCompressed Q = [0x00] := by
  rw [encodeCompressed, h, Option.elim_none]

theorem encodeX_of_none {Q : Point} (h : affine Q = none) : encodeX Q = .error .isIdentity := by
  rw [encodeX, h, Option.elim_none]

section
variable {Q : Point} {x y : Element} (h : affine Q = some (x, y))
include h

theorem encodeUncompressed_of_some : encodeUncompressed Q = [0x04] ++ encoding32 x.val ++ encoding32 y.val := by
  rw [encodeUncompressed, h, Option.elim_some, fBytes_eq_encoding32, fBytes_eq_encoding32]

theorem encodeX_of_some : encodeX Q = .ok (encoding32 x.val) := by
  rw [encodeX, h, Option.elim_some, fBytes_eq_encoding32]

theorem encodeCompressed_of_some : encodeCompressed Q = parityPrefix y.val ++ encoding32 x.val := by
  rw [encodeCompressed, h, Option.elim_some, lsb_fBytes, fBytes_eq_encoding32, parityPrefix]
  obtain hy | hy := Nat.mod_two_eq_zero_or_one y.val <;> rw [hy] <;> rfl

end

/-- The affine coordinates as integers: `x·Z = X` and `y·Z = Y` modulo `p` (43_point_primitives.md R179). -/
theorem affine_integers {Q : Point} (h : Q.Canonical) (hz : Q.Z ≠ ZERO) :
    ∃ x y : Element, affine Q = some (x, y) ∧ x.val * Q.Z.val % P = Q.X.val ∧ y.val * Q.Z.val % P = Q.Y.val := by
  obtain ⟨x, y, haff, -, -, ex, ey⟩ := affine_residues h hz
  exact ⟨x, y, haff, mod_eq_val_iff.mpr (by rw [Nat.cast_mul, val_cast, val_cast, ex]),
    mod_eq_val_iff.mpr (by rw [Nat.cast_mul, val_cast, val_cast, ey])⟩

/-! ### The round trips on byte strings and Points (R204) -/

/-- The encoders give back the string a Point was decoded from, each on its own format and both on `00`. -/
theorem encode_of_encodes {v : Bytes} {Q : Point} (h : Encodes v Q) :
    (v.length = 65 ∨ v.length = 1 → encodeUncompressed Q = v) ∧
    (v.length = 33 ∨ v.length = 1 → encodeCompressed Q = v) := by
  cases h with
  | identity =>
    have haff : affine IDENT = none := affine_eq_none IDENT_canonical rfl
    exact ⟨fun _ => encodeUncompressed_of_none haff, fun _ => encodeCompressed_of_none haff⟩
  | @uncompressed x y h =>
    have hlen : ([0x04] ++ encoding32 x ++ encoding32 y).length = 65 := by simp [encoding32_length]
    refine ⟨fun _ => ?_, fun hl => by omega⟩
    rw [encodeUncompressed_of_some (affine_normalised (mont_canonical x) (mont_canonical y)), val_mont, val_mont,
      Nat.mod_eq_of_lt h.x_lt, Nat.mod_eq_of_lt h.y_lt]
  | @compressed x y h =>
    obtain ⟨pfx, hpfx, -⟩ := parityPrefix_eq y
    have hlen : (parityPrefix y ++ encoding32 x).length = 33 := by simp [hpfx, encoding32_length]
    refine ⟨fun hl => by omega, fun _ => ?_⟩
    rw [encodeCompressed_of_some (affine_normalised (mont_canonical x) (mont_canonical y)), val_mont, val_mont,
      Nat.mod_eq_of_lt h.x_lt, Nat.mod_eq_of_lt h.y_lt]

/-- The affine coordinates of a Proper Point solve the curve equation. -/
theorem affine_equation {Q : Point} (hQ : Q.Proper) (hz : Q.Z ≠ ZERO) {x y : ZMod P} (hx : x * Q.Z.res = Q.X.res)
    (hy : y * Q.Z.res = Q.Y.res) : y ^ 2 = x ^ 3 + 7 := by
  have : Fact P.Prime := ⟨P_prime⟩
  obtain ⟨hc, hcurve, -⟩ := hQ
  have hz3 : Q.Z.res ^ 3 ≠ 0 := pow_ne_zero 3 (mt (res_eq_zero_iff hc.2.2).mp hz)
  have hscaled := (onCurve_iff Q).mp hcurve
  rw [← hx, ← hy] at hscaled
  exact mul_right_cancel₀ hz3 (by linear_combination hscaled)

/-- Both encodings of a Proper Point stand for one Point, the normalised representative of the same point or `IDENT`. -/
theorem exists_encodes {Q : Point} (hQ : Q.Proper) :
    ∃ N : Point, Encodes (encodeUncompressed Q) N ∧ Encodes (encodeCompressed Q) N ∧ SamePoint N Q ∧
      (N = IDENT ∨ N.Z = ONE) := by
  by_cases hz : Q.Z = ZERO
  · have haff := affine_eq_none hQ.1 hz
    rw [encodeUncompressed_of_none haff, encodeCompressed_of_none haff]
    exact ⟨IDENT, .identity, .identity, .inl ⟨rfl, hz⟩, .inl rfl⟩
  · obtain ⟨x, y, haff, cx, cy, ex, ey⟩ := affine_residues hQ.1 hz
    have hpair : CurvePair x.val y.val := by
      refine ⟨val_lt x, val_lt y, (ZMod.natCast_eq_natCast_iff' _ _ _).mp ?_⟩
      push_cast
      exact affine_equation hQ hz ex ey
    have hu := Encodes.uncompressed hpair
    have hc := Encodes.compressed hpair
    rw [mont_val cx, mont_val cy] at hu hc
    rw [encodeUncompressed_of_some haff, encodeCompressed_of_some haff]
    refine ⟨⟨x, y, ONE⟩, hu, hc, .inr ⟨show ONE ≠ ZERO by decide, hz, ?_, ?_⟩, .inr rfl⟩
    · rw [ONE_res, mul_one, ex]
    · rw [ONE_res, mul_one, ey]

end Sys2Proof.Machine

namespace Sys2Proof.Claims

open Sys2Proof Sys2Proof.Machine

/-! ### How the codec commands end -/

theorem onlyError_pldb {s : State} {d : PReg} {b : BReg} {K : Err} (h : decodePoint (s.readBuf b) = .error K) :
    OnlyError (.pldb d b) s K.code :=
  ⟨_, exec_pldb_error h, rfl, frame_setErr s _⟩

/-- Of a command that writes one buffer: the bytes written, `ERR` 0 and the frame. -/
theorem exists_of_exec_writeBuf {i : Instr} {s : State} {d : BReg} {v : Bytes} (hv : v.length ≤ BUFMAX)
    (h : exec i s = .next ((s.writeBuf d v).setErr okCode)) :
    ∃ t, exec i s = .next t ∧ t.err = 0 ∧ Frame s t (b := [d]) ∧ t.readBuf d = v :=
  ⟨_, h, rfl, frame_writeBuf s d hv _, readBuf_of_writeBuf_setErr s d hv _⟩

/-! ### `PLDB` (R200) -/

/-- Settles O37: `00` is one of the formats, and a shape the decoder does not know fails before anything is read. -/
theorem pldbShapes : Obligations.PldbShapes := fun _ d b =>
  ⟨decode_kWord (d.castLE (by decide)) (b.castLE (by decide)) 0 rfl,
    fun hz => exists_of_exec_writeP (exec_pldb_ok (by rw [hz, decodePoint_zero])),
    fun hn => onlyError_pldb (decodePoint_of_not_knownShape hn)⟩

/-- Settles O38: the decoder's three answers, by its two range checks and its curve check. -/
theorem pldbUncompressed : Obligations.PldbUncompressed := by
  intro s d b xs ys hv hx hy
  have hdec : decodePoint (s.readBuf b) = decodeUncompressed (0x04 :: (xs ++ ys)) := by
    rw [hv]
    exact decodePoint_uncompressed (xs ++ ys) (by rw [List.length_append, hx, hy])
  rw [decodeUncompressed_eq _ hx hy, ← bigEndian_eq, ← bigEndian_eq] at hdec
  refine ⟨fun hbig => ?range, fun hxp hyp hoff => ?curve, fun hxp hyp hon => ?point⟩
  case range => exact onlyError_pldb (hdec.trans (if_neg (by omega)))
  case curve => exact onlyError_pldb (hdec.trans ((if_pos ⟨hxp, hyp⟩).trans (if_neg hoff)))
  case point => exact exists_of_exec_writeP (exec_pldb_ok (hdec.trans ((if_pos ⟨hxp, hyp⟩).trans (if_pos hon))))

/-- Settles O39: the decoder's three answers, by its range check and by whether the right-hand side has a root. -/
theorem pldbCompressed : Obligations.PldbCompressed := by
  intro s d b pfx xs hv hp hx
  have hdec : decodePoint (s.readBuf b) = decodeCompressed pfx (pfx :: xs) := by
    rw [hv]
    exact decodePoint_compressed pfx xs hp hx
  rw [bigEndian_eq]
  refine ⟨fun hbig => ?range, fun hlt hnone => ?noRoot, fun hlt y hy hroot hpar => ?point⟩
  case range => exact onlyError_pldb (hdec.trans (decodeCompressed_big hx hbig))
  case noRoot => exact onlyError_pldb (hdec.trans (decodeCompressed_none hx hlt hnone))
  case point => exact exists_of_exec_writeP (exec_pldb_ok (hdec.trans (decodeCompressed_root hp hx hlt hy hroot hpar)))

/-! ### `PSTB`, `PSTBX` and `PSTBC` (R201 to R203) -/

/-- Settles O40: the bytes written are the encoder's, by whether the point has affine coordinates. -/
theorem pstbResult : Obligations.PstbResult := by
  intro s d a ha
  obtain ⟨t, ht, herr, hframe, hbuf⟩ := exists_of_exec_writeBuf (encodeUncompressed_short _) (exec_pstb d a s)
  refine ⟨decode_kWord (d.castLE (by decide)) (a.castLE (by decide)) 0 rfl, t, ht, herr, hframe, fun hz => ?identity,
    fun hz => ?affine⟩
  case identity => rw [hbuf, encodeUncompressed_of_none (affine_eq_none ha hz)]
  case affine =>
    obtain ⟨x, y, haff, hx, hy⟩ := affine_integers ha hz
    exact ⟨x.val, y.val, val_lt x, val_lt y, hx, hy, by rw [hbuf, encodeUncompressed_of_some haff]⟩

/-- Settles O41: the encoder fails exactly where the point has no affine coordinates. -/
theorem pstbxResult : Obligations.PstbxResult := by
  intro s d a ha
  refine ⟨decode_kWord (d.castLE (by decide)) (a.castLE (by decide)) 0 rfl, fun hz => ?identity, fun hz => ?affine⟩
  case identity => exact ⟨_, exec_pstbx_error (encodeX_of_none (affine_eq_none ha hz)), rfl, frame_setErr s _⟩
  case affine =>
    obtain ⟨x, y, haff, hx, -⟩ := affine_integers ha hz
    have henc := encodeX_of_some haff
    obtain ⟨t, ht, herr, hframe, hbuf⟩ := exists_of_exec_writeBuf (encodeX_short henc) (exec_pstbx_ok (d := d) henc)
    exact ⟨t, x.val, ht, herr, hframe, val_lt x, hx, hbuf⟩

/-- Settles O42: as for `PSTB`, the first byte carrying the parity of `y`. -/
theorem pstbcResult : Obligations.PstbcResult := by
  intro s d a ha
  obtain ⟨t, ht, herr, hframe, hbuf⟩ := exists_of_exec_writeBuf (encodeCompressed_short _) (exec_pstbc d a s)
  refine ⟨decode_kWord (d.castLE (by decide)) (a.castLE (by decide)) 0 rfl, t, ht, herr, hframe, fun hz => ?identity,
    fun hz => ?affine⟩
  case identity => rw [hbuf, encodeCompressed_of_none (affine_eq_none ha hz)]
  case affine =>
    obtain ⟨x, y, haff, hx, hy⟩ := affine_integers ha hz
    exact ⟨x.val, y.val, val_lt x, val_lt y, hx, hy, by rw [hbuf, encodeCompressed_of_some haff, parityPrefix]⟩

/-! ### Round trips (R204) -/

/-- A `PLDB` that ends without error has written the Point its buffer stands for. -/
theorem pldb_encodes {s t : State} {p : PReg} {b : BReg} (h : exec (.pldb p b) s = .next t) (hok : t.err = 0) :
    Encodes (s.readBuf b) (t.readP p) := by
  cases hdec : decodePoint (s.readBuf b) with
  | error K =>
    obtain rfl := Host.Outcome.next.inj ((exec_pldb_error hdec).symm.trans h)
    exact absurd hok K.code_ne_okCode
  | ok Q =>
    obtain rfl := Host.Outcome.next.inj ((exec_pldb_ok hdec).symm.trans h)
    rw [readP_of_writeP_setErr]
    exact encodes_of_decodePoint hdec

/-- Settles O43: what was decoded is in one of the three formats, and the encoder of that format gives it back. -/
theorem pointBytesRoundTrip : Obligations.PointBytesRoundTrip := by
  intro s t p b c h hok
  obtain ⟨huncompressed, hcompressed⟩ := encode_of_encodes (pldb_encodes h hok)
  refine ⟨fun hl => ⟨_, exec_pstb c p t, ?_⟩, fun hl => ⟨_, exec_pstbc c p t, ?_⟩⟩
  · rw [readBuf_of_writeBuf_setErr t c (encodeUncompressed_short _), huncompressed hl]
  · rw [readBuf_of_writeBuf_setErr t c (encodeCompressed_short _), hcompressed hl]

/-- `PLDB` of the buffer a command has filled with an encoding. -/
theorem exec_store_pldb {i : Instr} {s : State} {b : BReg} {v : Bytes} {N : Point} (q : PReg) (hv : v.length ≤ BUFMAX)
    (h : exec i s = .next ((s.writeBuf b v).setErr okCode)) (hN : Encodes v N) :
    ∃ t u, exec i s = .next t ∧ exec (.pldb q b) t = .next u ∧ u.err = 0 ∧ u.readP q = N := by
  refine ⟨_, _, h, exec_pldb_ok (Q := N) ?_, rfl, readP_of_writeP_setErr _ q N _⟩
  rw [readBuf_of_writeBuf_setErr s b hv, decodePoint_of_encodes hN]

/-- Settles O44: both encodings of a Proper Point stand for its normalised representative, which `PLDB` writes. -/
theorem pointRoundTrips : Obligations.PointRoundTrips := by
  intro s b p q hp
  obtain ⟨N, huncompressed, hcompressed, hsame, hnorm⟩ := exists_encodes hp
  obtain ⟨t, u, ht, hu, herr, hval⟩ := exec_store_pldb q (encodeUncompressed_short _) (exec_pstb b p s) huncompressed
  obtain ⟨t', u', ht', hu', herr', hval'⟩ := exec_store_pldb q (encodeCompressed_short _) (exec_pstbc b p s) hcompressed
  exact ⟨⟨t, u, ht, hu, herr, by rwa [hval], by rwa [hval]⟩, ⟨t', u', ht', hu', herr', by rwa [hval'], by rwa [hval']⟩⟩

end Sys2Proof.Claims
end

section
/-! ## Scalar multiplication (46_scalar_mult.md R210 to R215) -/

namespace Sys2Proof.Claims

open Sys2Proof Sys2Proof.Machine

/-! ### `PSMUL` (R210, R211, R215) -/

theorem pointAdd_IDENT_IDENT : pointAdd IDENT IDENT = IDENT := by
  obtain ⟨eX, eY, eZ⟩ := pointAdd_IDENT_res IDENT_canonical
  obtain ⟨iX, iY, iZ⟩ := IDENT_res
  exact point_eq_of_res (pointAdd_canonical IDENT_canonical IDENT_canonical) IDENT_canonical
    (by rw [eX, iX, zero_mul]) (by rw [eY, iY, one_pow]) (by rw [eZ, iZ, zero_mul])

/-- A zero byte keeps the identity, limb for limb: its two nibbles add `IDENT` to `IDENT`. -/
theorem scalarStep_zero (T : Table) : scalarStep T false IDENT 0 = IDENT := by
  have hhi : tableSelect T (hiNibble 0) = IDENT := tableSelect_eq_multiple T _
  have hlo : tableSelect T (loNibble 0) = IDENT := tableSelect_eq_multiple T _
  rw [← scalarStep_first, scalarStep, hhi, hlo, if_pos rfl, pointAdd_IDENT_IDENT, quadruple_IDENT, pointAdd_IDENT_IDENT]

theorem scalarLoop_zeros (T : Table) (v : Bytes) (h : ∀ x ∈ v, x = 0) : scalarLoop T IDENT v = IDENT := by
  induction v with
  | nil => rfl
  | cons x v ih =>
    obtain ⟨rfl, hv⟩ := List.forall_mem_cons.mp h
    rw [scalarLoop, scalarStep_zero, ih hv]

/-- Settles O45: the loop over bytes is the fold over their nibbles, and zero bytes keep `IDENT`. -/
theorem psmulLoop : Obligations.PsmulLoop := by
  intro s d a b
  obtain ⟨t, ht, hval, herr, hframe⟩ := exists_of_exec_writeP (exec_psmul d a b s)
  rw [scalarMult_eq_loop] at hval
  exact ⟨decode_kWord (d.castLE (by decide)) (a.castLE (by decide)) (b.castLE (by decide)) rfl, t, ht, herr, hframe,
    hval.trans (scalarLoop_eq_foldl _ _ _), fun hz => hval.trans (scalarLoop_zeros _ _ hz)⟩

/-- Settles O46: the value written represents the multiple, by the loop's invariant in the group. -/
theorem psmulIsGroupMultiple : Obligations.PsmulIsGroupMultiple := by
  intro s d a b g k ha hg hk
  rw [bigEndian_eq] at hk
  obtain ⟨t, ht, hval, -⟩ := exists_of_exec_writeP (exec_psmul d a b s)
  obtain ⟨hproper, hmul⟩ := scalarMult_represents ha hg (s.readBuf b)
  rw [← hval] at hproper hmul
  exact ⟨t, ht, hproper, hmul k hk⟩

/-! ### `PBMUL` (R212, R213, R215) -/

/-- Of a `PBMUL` that does not raise: the value written, `ERR` 0, the table built, and the frame. -/
theorem exists_of_exec_pbmul {s : State} (d : PReg) {b : BReg} (hlen : (s.readBuf b).length = 32) (hT : s.TableValid) :
    ∃ t, exec (.pbmul d b) s = .next t ∧ t.readP d = scalarBaseMult buildGeneratorTable (s.readBuf b) ∧ t.err = 0 ∧
      t.gtv = true ∧ t.gt = buildGeneratorTable ∧ Frame s t (p := [d]) (table := true) := by
  have ht := exec_pbmul_ok (d := d) hlen
  rw [ensureTable_gt hT] at ht
  exact ⟨_, ht, readP_of_writeP_setErr _ d _ okCode, rfl, ensureTable_gtv s, ensureTable_gt hT,
    frame_ensureTable_writeP s d _ okCode⟩

/-- Settles O47: the length check comes first; past it, the loop over bytes is the fold over their nibbles. -/
theorem pbmulResult : Obligations.PbmulResult := by
  intro s d b
  refine ⟨decode_kWord (d.castLE (by decide)) (b.castLE (by decide)) 0 rfl, fun hlen => ?error, fun hlen hT => ?product⟩
  case error => exact ⟨_, exec_pbmul_error hlen, rfl, frame_setErr s _⟩
  case product =>
    obtain ⟨t, ht, hval, herr, hgtv, hgt, hframe⟩ := exists_of_exec_pbmul d hlen hT
    exact ⟨t, ht, herr, hgtv, hgt, hframe, hval.trans (baseLoop_eq_foldl _ _ 0 IDENT (by omega))⟩

/-- Settles O48: `PBMUL` and `PSMUL` of the generator represent one element of the group. -/
theorem pbmulIsGroupMultiple : Obligations.PbmulIsGroupMultiple := by
  intro s d b g k hlen hT hg hk
  obtain ⟨t, ht, hval, -⟩ := exists_of_exec_pbmul d hlen hT
  obtain ⟨hproper, hmul⟩ := scalarBaseMult_represents hg hlen
  rw [← hval] at hproper hmul
  have hrep := hmul k (by rwa [← bigEndian_eq])
  have hgen : (s.writeP d GEN).readP d = GEN := readP_writeP_self s d GEN
  obtain ⟨u, hu, -, hrep'⟩ := psmulIsGroupMultiple (s.writeP d GEN) d d b g k (by rw [hgen]; exact GEN_proper)
    (by rwa [hgen]) hk
  exact ⟨t, u, ht, hproper, hrep, hu, samePoint_of_represents hrep hrep'⟩

/-! ### `GTINIT` (R214) -/

/-- Settles O49: the lazy build, which does nothing to a table that is built. -/
theorem gtinitResult : Obligations.GtinitResult := by
  refine ⟨by decide, fun s => ⟨_, exec_gtinit s, rfl, frame_ensureTable s okCode, ensureTable_gtv s,
    fun hbuilt => ?built, fun hnot => ?notBuilt⟩⟩
  case built => rw [setErr_gt, ensureTable_of_valid hbuilt]
  case notBuilt => rw [setErr_gt, ensureTable_of_invalid hnot, setTable_gt]

end Sys2Proof.Claims
end

section
/-! ## Errors (60_exceptions.md R220, R221, R223): every command ends with `ERR` 0 or raises one of its own kinds -/

namespace Sys2Proof.Claims

open Sys2Proof Sys2Proof.Machine

/-! ### Which kinds the decoders and the encoder answer (40_field_primitives.md R113; 45_point_codec.md R200, R202) -/

/-- A decoder that fails has failed at one of its two stages. -/
theorem bind_eq_error_iff {α β : Type} {r : Except Err α} {f : α → Except Err β} {K : Err} :
    r.bind f = .error K ↔ r = .error K ∨ ∃ x, r = .ok x ∧ f x = .error K := by
  cases r with
  | error L => simp [error_bind]
  | ok x => simp [ok_bind]

theorem fSetBytes_error {v : Bytes} {K : Err} (h : fSetBytes v = .error K) : K = .invalidElementEncoding := by
  rw [fSetBytes_eq] at h
  split at h
  next => cases h
  next => exact (Except.error.inj h).symm

theorem decodeUncompressed_error {v : Bytes} {K : Err} (h : decodeUncompressed v = .error K) :
    K = .invalidElementEncoding ∨ K = .notOnCurve := by
  unfold decodeUncompressed at h
  obtain hx | ⟨x, -, h⟩ := bind_eq_error_iff.mp h
  · exact .inl (fSetBytes_error hx)
  obtain hy | ⟨y, -, h⟩ := bind_eq_error_iff.mp h
  · exact .inl (fSetBytes_error hy)
  split at h
  next => cases h
  next => exact .inr (Except.error.inj h).symm

theorem decodeCompressed_error {pfx : Byte} {v : Bytes} {K : Err} (h : decodeCompressed pfx v = .error K) :
    K = .invalidElementEncoding ∨ K = .invalidCompressedPoint := by
  unfold decodeCompressed at h
  obtain hx | ⟨x, -, h⟩ := bind_eq_error_iff.mp h
  · exact .inl (fSetBytes_error hx)
  dsimp only at h
  split at h
  next => cases h
  next => exact .inr (Except.error.inj h).symm

theorem encodeX_error {Q : Point} {K : Err} (h : encodeX Q = .error K) : K = .isIdentity := by
  cases haff : affine Q with
  | none => exact Except.error.inj (h.symm.trans (encodeX_of_none haff))
  | some a => cases h.symm.trans (encodeX_of_some (x := a.1) (y := a.2) haff)

/-- The error kinds a command may raise (60_exceptions.md R221). -/
def mayRaise : Instr → List Err
  | .fldb _ _ => [.invalidElementEncoding]
  | .pldb _ _ => [.invalidElementEncoding, .invalidPointEncoding, .notOnCurve, .invalidCompressedPoint]
  | .pstbx _ _ => [.isIdentity]
  | .pbmul _ _ => [.invalidScalarLength]
  | _ => []

/-- A string of no known shape fails as such, and a known shape fails as its own decoder does. -/
theorem decodePoint_error {v : Bytes} {K : Err} (h : decodePoint v = .error K) (d : PReg) (b : BReg) :
    K ∈ mayRaise (.pldb d b) := by
  by_cases hv : KnownShape v
  · obtain ⟨pfx, rest, rfl, ⟨hl, rfl⟩ | ⟨hl, rfl⟩ | ⟨hl, hp⟩⟩ := hv
    · obtain rfl := List.length_eq_zero_iff.mp hl
      cases h.symm.trans decodePoint_zero
    · rw [decodePoint_uncompressed rest hl] at h
      obtain rfl | rfl := decodeUncompressed_error h <;> simp [mayRaise]
    · rw [decodePoint_compressed pfx rest hp hl] at h
      obtain rfl | rfl := decodeCompressed_error h <;> simp [mayRaise]
  · obtain rfl := Except.error.inj (h.symm.trans (decodePoint_of_not_knownShape hv))
    simp [mayRaise]

/-! ### How a command ends (00_scope.md R14) -/

theorem err_of_finish {s t : State} (h : s.finish = .next t) : t.err = 0 := by
  rw [finish_eq_next.mp h]
  rfl

/-- A command that checks its operand before it writes ends without error or raises the kind its check answered. -/
theorem conclude_cases {α : Type} {s t : State} {r : Except Err α} {write : α → State}
    (h : s.conclude (r.map write) = .next t) : t.err = 0 ∨ ∃ K, r = .error K ∧ t = s.setErr K.code := by
  cases r with
  | error K => exact .inr ⟨K, rfl, raise_eq_next.mp h⟩
  | ok x => exact .inl (err_of_finish h)

/-- Every command ends without error, or raises one of its kinds and changes nothing but `ERR`
(60_exceptions.md R221, R223). -/
theorem exec_ends_or_raises {i : Instr} {s t : State} (h : exec i s = .next t) :
    t.err = 0 ∨ ∃ K ∈ mayRaise i, t = s.setErr K.code := by
  cases i with
  | fldb d b =>
    exact (conclude_cases h).imp_right fun ⟨K, hK, ht⟩ => ⟨K, List.mem_singleton.mpr (fSetBytes_error hK), ht⟩
  | pldb d b => exact (conclude_cases h).imp_right fun ⟨K, hK, ht⟩ => ⟨K, decodePoint_error hK d b, ht⟩
  | pstbx d a =>
    exact (conclude_cases h).imp_right fun ⟨K, hK, ht⟩ => ⟨K, List.mem_singleton.mpr (encodeX_error hK), ht⟩
  | pbmul d b =>
    by_cases hl : (s.readBuf b).length = 32
    · exact .inl (err_of_finish ((exec_pbmul_ok hl).symm.trans h))
    · exact .inr ⟨_, List.mem_singleton_self _, raise_eq_next.mp ((exec_pbmul_error hl).symm.trans h)⟩
  | _ => exact .inl (err_of_finish h)

/-- The same of a command word; an illegal word only raises (30_encoding.md R76). -/
theorem runWord_ends_or_raises {w : Word} {s t : State} (h : runWord w s = .next t) :
    t.err = 0 ∨ ∃ K : Err, t = s.setErr K.code := by
  cases hw : decode w with
  | ok i => exact (exec_ends_or_raises ((runWord_of_decode hw s).symm.trans h)).imp_right fun ⟨K, _, ht⟩ => ⟨K, ht⟩
  | error why => exact .inr ⟨.illegalCommand, raise_eq_next.mp ((runWord_of_illegal hw s).symm.trans h)⟩

/-- Settles O51: a command that ends with an error has raised, whether its word is legal or not, and the response is
what `Issue` makes of the state it leaves. -/
theorem errorChangesNothingElse : Obligations.ErrorChangesNothingElse := by
  refine ⟨fun i s t h herr => ?command, fun w s t h herr => ?issue⟩
  case command =>
    obtain ⟨K, -, rfl⟩ := (exec_ends_or_raises h).resolve_left herr
    rfl
  case issue =>
    obtain ⟨u, hu⟩ := runWord_leaves_state w s
    obtain rfl := Host.Outcome.next.inj ((doIssue_of_next hu).symm.trans h)
    obtain ⟨K, rfl⟩ := (runWord_ends_or_raises hu).resolve_left herr
    rfl

/-- The codes of the kinds each command may raise (60_exceptions.md R220). -/
theorem code_of_mem_mayRaise {i : Instr} {K : Err} (h : K ∈ mayRaise i) :
    (mnemonic i = "FLDB" ∧ K.code = 1) ∨
    (mnemonic i = "PLDB" ∧ (K.code = 1 ∨ K.code = 2 ∨ K.code = 3 ∨ K.code = 4)) ∨
    (mnemonic i = "PSTBX" ∧ K.code = 5) ∨ (mnemonic i = "PBMUL" ∧ K.code = 6) := by
  cases i with
  | fldb d b =>
    obtain rfl := List.mem_singleton.mp h
    exact .inl ⟨rfl, rfl⟩
  | pldb d b =>
    refine .inr (.inl ⟨rfl, ?_⟩)
    simp only [mayRaise, List.mem_cons, List.not_mem_nil, or_false] at h
    obtain rfl | rfl | rfl | rfl := h <;> decide
  | pstbx d a =>
    obtain rfl := List.mem_singleton.mp h
    exact .inr (.inr (.inl ⟨rfl, rfl⟩))
  | pbmul d b =>
    obtain rfl := List.mem_singleton.mp h
    exact .inr (.inr (.inr ⟨rfl, rfl⟩))
  | _ => exact absurd h List.not_mem_nil

/-- Settles O52: a command that ends with an error has raised one of its kinds, whose codes are these. -/
theorem errorCodes : Obligations.ErrorCodes := by
  intro i s t h
  refine (exec_ends_or_raises h).imp_right fun ⟨K, hK, ht⟩ => ?_
  rw [ht]
  exact code_of_mem_mayRaise hK

end Sys2Proof.Claims
end

section
/-! ## What a latency depends on (70_reset_and_hazards.md R248, R251), and reset at the ports (R240, R241) -/

namespace Sys2Proof.Claims

open Sys2Proof Sys2Proof.Machine

/-! ### The public inputs of a command word -/

theorem latency_eq_of_publicInputs {w : Word} {s s' : State} (h : publicInputs w s = publicInputs w s') :
    latency w s = latency w s' := by
  rw [latency, latency, h]

theorem publicInputs_of_decode {w : Word} {i : Instr} (h : decode w = .ok i) (s : State) :
    publicInputs w s = commandInputs i w s := by
  simp only [publicInputs, h]

theorem publicInputs_of_illegal {w : Word} {why : Illegal} (h : decode w = .error why) (s : State) :
    publicInputs w s = ⟨w, none, none, none⟩ := by
  simp only [publicInputs, h]

/-- Two runs of a command take the same time when its public inputs are the same. -/
theorem latency_eq_of_commandInputs {w : Word} {i : Instr} {s s' : State} (hw : decode w = .ok i)
    (h : commandInputs i w s = commandInputs i w s') : latency w s = latency w s' :=
  latency_eq_of_publicInputs (by rw [publicInputs_of_decode hw, publicInputs_of_decode hw, h])

theorem latency_eq_of_illegal {w : Word} {why : Illegal} (hw : decode w = .error why) (s s' : State) :
    latency w s = latency w s' :=
  latency_eq_of_publicInputs (by rw [publicInputs_of_illegal hw, publicInputs_of_illegal hw])

/-! ### The latency of each command (R248) -/

section
variable {w : Word} {s s' : State}

theorem latency_gtinit_congr (hw : decode w = .ok .gtinit) (hgtv : s.gtv = s'.gtv) : latency w s = latency w s' :=
  latency_eq_of_commandInputs hw (by simp only [commandInputs, hgtv])

theorem latency_psmul_congr {d a : PReg} {b : BReg} (hw : decode w = .ok (.psmul d a b))
    (hlen : (s.readBuf b).length = (s'.readBuf b).length) : latency w s = latency w s' :=
  latency_eq_of_commandInputs hw (by simp only [commandInputs, hlen])

theorem latency_fldb_congr {d : EReg} {b : BReg} (hw : decode w = .ok (.fldb d b)) (hbuf : s.readBuf b = s'.readBuf b) :
    latency w s = latency w s' :=
  latency_eq_of_commandInputs hw (by simp only [commandInputs, hbuf])

theorem latency_pldb_congr {d : PReg} {b : BReg} (hw : decode w = .ok (.pldb d b)) (hbuf : s.readBuf b = s'.readBuf b) :
    latency w s = latency w s' :=
  latency_eq_of_commandInputs hw (by simp only [commandInputs, hbuf])

theorem latency_pbmul_congr {d : PReg} {b : BReg} (hw : decode w = .ok (.pbmul d b)) (hbuf : s.readBuf b = s'.readBuf b)
    (hgtv : s.gtv = s'.gtv) : latency w s = latency w s' :=
  latency_eq_of_commandInputs hw (by simp only [commandInputs, hbuf, hgtv])

/-- A `PBMUL` that passes its length check has no public input in its buffer. -/
theorem latency_pbmul_of_length {d : PReg} {b : BReg} (hw : decode w = .ok (.pbmul d b)) (hl : (s.readBuf b).length = 32)
    (hl' : (s'.readBuf b).length = 32) (hgtv : s.gtv = s'.gtv) : latency w s = latency w s' :=
  latency_eq_of_commandInputs hw (by simp only [commandInputs, hl, hl', if_true, hgtv])

/-- Every command but five has no public input but its word (70_reset_and_hazards.md R248 (a)). -/
theorem commandInputs_of_mnemonic {i : Instr} (hm : mnemonic i ∉ ["GTINIT", "FLDB", "PLDB", "PSMUL", "PBMUL"]) (w : Word)
    (s : State) : commandInputs i w s = ⟨w, none, none, none⟩ := by
  cases i with
  | gtinit | fldb | pldb | psmul | pbmul => exact absurd (by simp [mnemonic]) hm
  | _ => rfl

theorem latency_other {i : Instr} (hw : decode w = .ok i)
    (hm : mnemonic i ∉ ["GTINIT", "FLDB", "PLDB", "PSMUL", "PBMUL"]) : latency w s = latency w s' :=
  latency_eq_of_commandInputs hw (by rw [commandInputs_of_mnemonic hm, commandInputs_of_mnemonic hm])

/-- No word has a public input outside itself, the buffers and `GTV` (70_reset_and_hazards.md R248). -/
theorem latency_congr (hbuf : s.buf = s'.buf) (hgtv : s.gtv = s'.gtv) : latency w s = latency w s' := by
  have hread : ∀ b, s.readBuf b = s'.readBuf b := fun b => congrArg (Memory.buffer · b) hbuf
  cases hw : decode w with
  | error why => exact latency_eq_of_illegal hw s s'
  | ok i =>
    cases i with
    | gtinit => exact latency_gtinit_congr hw hgtv
    | psmul d a b => exact latency_psmul_congr hw (by rw [hread])
    | fldb d b => exact latency_fldb_congr hw (hread b)
    | pldb d b => exact latency_pldb_congr hw (hread b)
    | pbmul d b => exact latency_pbmul_congr hw (hread b) hgtv
    | _ => exact latency_eq_of_commandInputs hw rfl

end

/-- Settles O56: clause by clause the two states give the word the same public inputs. -/
theorem latencyIsPublic : Obligations.LatencyIsPublic := fun w s s' =>
  ⟨latency_pos w s, latency_congr, fun _ _ _ => latency_psmul_congr, fun _ _ => latency_pbmul_of_length,
    fun _ _ => latency_fldb_congr, fun _ _ => latency_pldb_congr, fun _ _ => latency_pbmul_congr, latency_gtinit_congr,
    fun _ => latency_other, fun _ hw => latency_eq_of_illegal hw s s'⟩

/-! ### A cycle of `rst` (R241) -/

theorem next_of_rst (p : PortState) {x : PortIn} (hx : x.rst = true) :
    p.next x = ⟨{ State.reset with pending := p.core.pending }, none, []⟩ :=
  if_pos hx

theorem out_of_rst (p : PortState) {x : PortIn} (hx : x.rst = true) : p.out x = (p.next x).closedOut :=
  if_pos hx

/-- Settles O58: the port-level reset is the transaction `Reset` with nothing executing and nothing staged, and its
outputs are closed. -/
theorem portReset : Obligations.PortReset := by
  intro p x hx
  rw [out_of_rst p hx, next_of_rst p hx]
  exact ⟨⟨State.reset.gt, rfl⟩, rfl, rfl, rfl⟩

end Sys2Proof.Claims
end
